-- ==== Sys2Proof/Word.lean ====
section
/-!
DEFINITION. The floating-point formats of the block and the words its two stream ports carry
(spec/00_scope.md rules R5 and R11; spec/30_encoding.md rules R80, R81, R82 and R87).
-/

namespace Sys2Proof

/-- FMT, the format of every port channel and of every intermediate value (rule R5).
A block is built for exactly one of the two (rule R87). -/
inductive Fmt where
  | binary32
  | binary64
  deriving DecidableEq, Repr, Inhabited

/-- W, the width of one channel encoding (rules R5 and R82). -/
abbrev Fmt.width : Fmt → Nat
  | .binary32 => 32
  | .binary64 => 64

/-- Width of the biased exponent field (rule R82). -/
def Fmt.expBits : Fmt → Nat
  | .binary32 => 8
  | .binary64 => 11

/-- F, the width of the fraction field (rule R82). -/
def Fmt.fracBits : Fmt → Nat
  | .binary32 => 23
  | .binary64 => 52

/-- The exponent bias (rule R82). -/
def Fmt.bias : Fmt → Nat
  | .binary32 => 127
  | .binary64 => 1023

/-- E_MAX, the all-ones exponent field (rule R82). -/
def Fmt.expMax : Fmt → Nat
  | .binary32 => 255
  | .binary64 => 2047

/-- The exponent of one unit in the last place of a subnormal: 1 - bias - F (rule R82). -/
def Fmt.minExp : Fmt → Int
  | .binary32 => -149
  | .binary64 => -1074

/-- E, the bytes of one element in the host's buffers: W/8 (spec/20_memory.md rule R61). -/
def Fmt.bytes : Fmt → Nat
  | .binary32 => 4
  | .binary64 => 8

/-- The encoding of one channel in format f (rule R82). -/
abbrev Chan (f : Fmt) := BitVec f.width

/-- What `in_data` carries: 3W bits (rules R35 and R80), one width per build. -/
inductive InData where
  | w96 (bits : BitVec 96)
  | w192 (bits : BitVec 192)
  deriving DecidableEq, Repr

/-- What `out_data` carries: 4W bits (rules R36 and R81), one width per build. -/
inductive OutData where
  | w128 (bits : BitVec 128)
  | w256 (bits : BitVec 256)
  deriving DecidableEq, Repr

/-- The format whose input port has the width of this word. -/
def InData.fmt : InData → Fmt
  | .w96 _ => .binary32
  | .w192 _ => .binary64

/-- The format whose output port has the width of this word. -/
def OutData.fmt : OutData → Fmt
  | .w128 _ => .binary32
  | .w256 _ => .binary64

end Sys2Proof
end

