-- ==== Sys2Proof/Syntax.lean ====
section
/-!
DEFINITION. The one operation of the block, ENCODE (spec/00_scope.md rule R2), in the two formats of
spec/opcode_table.json: a row per FMT, the fields R, G and B of the beat as the operands
(spec/30_encoding.md rules R80 and R84).
-/

namespace Sys2Proof

/-- An input beat read as an instruction. There is no opcode: every beat is an ENCODE of the pixel
it carries (rule R84), so the operands are the three channel encodings col.r, col.g and col.b. -/
inductive Instr where
  /-- ENCODE, format IN_BEAT with FMT = binary32 (96 bits). -/
  | encode32 (r g b : BitVec 32)
  /-- ENCODE, format IN_BEAT with FMT = binary64 (192 bits). -/
  | encode64 (r g b : BitVec 64)
  deriving DecidableEq, Repr

/-- The format a beat is written in. -/
def Instr.fmt : Instr → Fmt
  | .encode32 _ _ _ => .binary32
  | .encode64 _ _ _ => .binary64

end Sys2Proof
end

