-- ==== Sys2Proof/Config.lean ====
section
/-!
DEFINITION. The constants of the block (spec/00_scope.md rules R6 to R8, spec/30_encoding.md rule
R85), its build parameters (rules R5, R8, R9 and R10) and the values the spec leaves free
(spec/93_implementation_defined.md U1, U2 and U3).
-/

namespace Sys2Proof

/-- RANGE = 6.0 (rule R6). -/
def Config.range : Rat := 6

/-- LEVELS = 255 (rule R7). -/
def Config.levels : Rat := 255

/-- EPSILON = RN(1e-6) in binary32 (rules R8 and R85). -/
def Config.epsilon32 : BitVec 32 := 0x358637BD

/-- EPSILON = RN(1e-6) in binary64 (rules R8 and R85). -/
def Config.epsilon64 : BitVec 64 := 0x3EB0C6F7A0B5ED8D

/-- m_1 = RN(1/255) in binary32, the greatest EPSILON a build may choose (rules R8 and R85). -/
def Config.leastLevel32 : BitVec 32 := 0x3B808081

/-- m_1 = RN(1/255) in binary64 (rules R8 and R85). -/
def Config.leastLevel64 : BitVec 64 := 0x3F70101010101010

/-- The parameters fixed when a block is built: FMT (rule R5), DEPTH (rule R9), LATENCY (rule R10) and
EPSILON as an encoding in each format (rule R8). DEPTH and LATENCY are open, so they are arguments
of every rule that uses them, and no rule changes any of these at run time (rules R33, R65 and R87). -/
structure Build where
  fmt : Fmt
  depth : Nat
  latency : Nat
  eps32 : BitVec 32
  eps64 : BitVec 64
  deriving DecidableEq, Repr

/-- This hardware's build: FMT = binary32 and EPSILON = RN(1e-6) (rules R5 and R8). For the open DEPTH
and LATENCY it takes the reference values 5 and 5 (rules R9 and R10). DESIGN CHOICE, log entry 1. -/
def Config.thisBuild : Build :=
  { fmt := .binary32, depth := 5, latency := 5,
    eps32 := Config.epsilon32, eps64 := Config.epsilon64 }

/-- FREE VALUE (U2, rule R39 item 4): whether the block offers the head of Q in cycle number `n` once
it is old enough. It may depend on the beats in flight (rule R247). Log entry 2. -/
opaque Config.freeOffer (n : Nat) (inFlight : List Instr) : Bool

/-- FREE VALUE (U3, rule R40): whether the block is ready in cycle number `n` where Q has room. It may
depend on `out_ready` and never on `in_valid` or on the data of a beat. Log entry 2. -/
opaque Config.freeReady (n : Nat) (outReady : Bool) : Bool

/-- FREE VALUE (U1, rule R42): what `out_data` holds in cycle number `n` while `out_valid` = 0.
Log entry 3. -/
opaque Config.freeOutData (n : Nat) : BitVec 256

/-- FREE VALUE: what a host script drives on `in_data` in cycle number `n` while it offers no beat;
spec/30_encoding.md rule R88 does not say. Log entry 4. -/
opaque Config.freeInData (n : Nat) : BitVec 192

end Sys2Proof
end

