-- ==== Sys2Proof/WellFormed.lean ====
section
/-!
DEFINITION. What a beat and a build must satisfy: a beat fits a block when it is written in the
block's FMT (spec/30_encoding.md rule R87), and a build keeps the bounds of spec/00_scope.md
rules R8, R9 and R10. No bit pattern of a beat is ill-formed (rule R84).
-/

namespace Sys2Proof

/-- The beat is written in the format the block is built for (rule R87: a block has exactly one of
the two rows of the opcode table). -/
def Instr.fits (f : Fmt) (i : Instr) : Bool := i.fmt == f

/-- EPSILON is an FMT value in (0, m_1], in both formats (rule R8). Non-negative encodings are ordered
as their values are (spec/42_max3.md rule R143). -/
def Build.epsilonOk (b : Build) : Bool :=
  0 < b.eps32.toNat && b.eps32.toNat ≤ Config.leastLevel32.toNat &&
    (0 < b.eps64.toNat && b.eps64.toNat ≤ Config.leastLevel64.toNat)

/-- The bounds of the build parameters (rules R8, R9 and R10). -/
def Build.wf (b : Build) : Bool := 1 ≤ b.depth && 1 ≤ b.latency && b.epsilonOk

end Sys2Proof
end

