-- ==== Sys2Proof/Decode.lean ====
section
/-!
DEFINITION. From the bits of `in_data` to an ENCODE and back (spec/30_encoding.md rules R80, R84 and
R87). Decoding is total on the words of the port: match 0 under mask 0. Only a word that is no beat
length is rejected.
-/

namespace Sys2Proof

/-- Field number `k` of a word of W-bit fields: bits [(k+1)W-1 : kW] (rules R80 and R81). -/
def fieldAt (w k : Nat) {n : Nat} (bits : BitVec n) : BitVec w := bits.extractLsb' (k * w) w

/-- Rule R80: R in bits [W-1:0], G in [2W-1:W], B in [3W-1:2W]; rule R84: every word is an ENCODE. -/
def decode : InData → Instr
  | .w96 bits => .encode32 (fieldAt 32 0 bits) (fieldAt 32 1 bits) (fieldAt 32 2 bits)
  | .w192 bits => .encode64 (fieldAt 64 0 bits) (fieldAt 64 1 bits) (fieldAt 64 2 bits)

/-- The beat of a pixel: the concatenation {B, G, R} (rules R35 and R80). -/
def encode : Instr → InData
  | .encode32 r g b => .w96 (b ++ (g ++ r))
  | .encode64 r g b => .w192 (b ++ (g ++ r))

/-- The fields R, G, B and M of an output beat, as unsigned numbers (rule R81). -/
def outFields : OutData → List Nat
  | .w128 bits =>
    [(fieldAt 32 0 bits).toNat, (fieldAt 32 1 bits).toNat, (fieldAt 32 2 bits).toNat,
      (fieldAt 32 3 bits).toNat]
  | .w256 bits =>
    [(fieldAt 64 0 bits).toNat, (fieldAt 64 1 bits).toNat, (fieldAt 64 2 bits).toNat,
      (fieldAt 64 3 bits).toNat]

/-- Why a word is not an input beat. -/
inductive DecodeError where
  /-- The word has a length that is no beat length (rule R87: 96 or 192 bits). -/
  | beatLength (nbits : Nat)
  deriving DecidableEq, Repr

/-- A word of a stated length read as an input beat. -/
def beatOfWord (nbits w : Nat) : Except DecodeError InData :=
  if nbits = 96 then .ok (.w96 (BitVec.ofNat 96 w))
  else if nbits = 192 then .ok (.w192 (BitVec.ofNat 192 w))
  else .error (.beatLength nbits)

/-- The beat length a shorter word is padded to with zeros above its bits: 96 up to 96 bits, 192 up
to 192 bits. A longer word keeps its length and is no beat. -/
def paddedLength (nbits : Nat) : Nat :=
  if nbits ≤ 96 then 96 else if nbits ≤ 192 then 192 else nbits

/-- The instruction the decoder reads from a word of spec/opcode_table.json. The table's rows have no
fixed bits, so the number of bits alone selects the row (rule R87). -/
def decodeTableWord (nbits w : Nat) : Option Instr :=
  match beatOfWord (paddedLength nbits) (w % 2 ^ nbits) with
  | .ok d => some (decode d)
  | .error _ => none

/-- The beat a word of the opcode table stands for, padded as in decodeTableWord. -/
def tableBeat (nbits w : Nat) : InData :=
  if nbits ≤ 96 then .w96 (BitVec.ofNat 96 (w % 2 ^ nbits))
  else .w192 (BitVec.ofNat 192 (w % 2 ^ nbits))

end Sys2Proof
end

