-- ==== Sys2Proof/Machine/Float.lean ====
section
/-!
DEFINITION. The numbers of the block: exact rationals, the rounding RN, and the functions val and enc
between encodings and values (spec/00_scope.md rules R12 and R13; spec/30_encoding.md rule R82).
-/

namespace Sys2Proof.Machine

/-- 2 to an integer power, exactly. -/
def pow2 : Int → Rat
  | .ofNat n => ((2 ^ n : Nat) : Rat)
  | .negSucc n => mkRat 1 (2 ^ (n + 1))

/-- The greatest e with 2^e at most |v|, for v other than 0. -/
def ilog2 (v : Rat) : Int :=
  let e : Int := (Nat.log2 v.num.natAbs : Int) - (Nat.log2 v.den : Int)
  if pow2 e ≤ |v| then e else e - 1

/-- The nearest integer, a tie going to the even one (rule R12). -/
def roundEven (q : Rat) : Int :=
  if q - q.floor < 1 / 2 then q.floor
  else if 1 / 2 < q - q.floor then q.floor + 1
  else if q.floor % 2 = 0 then q.floor
  else q.floor + 1

/-- The exponent of one unit in the last place of FMT around v: gradual underflow stops it at the
exponent of the subnormals (rules R12 and R82). -/
def ulpExp (f : Fmt) (v : Rat) : Int := max f.minExp (ilog2 v - f.fracBits)

/-- RN(v): v rounded once to the nearest FMT value, ties to even, with gradual underflow and no flush
to zero (rule R12). Rule R12 derives that no value of this block overflows, so there is no infinity. -/
def rn (f : Fmt) (v : Rat) : Rat := roundEven (v / pow2 (ulpExp f v)) * pow2 (ulpExp f v)

/-- The greatest finite value of FMT (rule R82). -/
def maxFinite (f : Fmt) : Rat :=
  ((2 ^ (f.fracBits + 1) - 1 : Nat) : Rat) * pow2 ((f.expMax : Int) - 1 - f.bias - f.fracBits)

/-- What an encoding stands for: val(e) of rule R13. Quiet and signalling NaNs are one class, since
the block does not distinguish them (rule R83). -/
inductive FVal where
  | nan
  | inf (negative : Bool)
  | real (v : Rat)
  deriving DecidableEq, Repr

/-- Sign bit of an encoding: bit W-1 (rule R82). -/
def signBit (f : Fmt) (e : Chan f) : Bool := 2 ^ (f.expBits + f.fracBits) ≤ e.toNat

/-- Biased exponent field of an encoding (rule R82). -/
def expField (f : Fmt) (e : Chan f) : Nat := e.toNat / 2 ^ f.fracBits % 2 ^ f.expBits

/-- Fraction field of an encoding (rule R82). -/
def fracField (f : Fmt) (e : Chan f) : Nat := e.toNat % 2 ^ f.fracBits

/-- The magnitude a zero, subnormal or normal encoding stands for (rule R82, last two lines). -/
def magnitude (f : Fmt) (e : Chan f) : Rat :=
  if expField f e = 0 then (fracField f e : Rat) * pow2 f.minExp
  else ((2 ^ f.fracBits + fracField f e : Nat) : Rat) *
    pow2 ((expField f e : Int) - f.bias - f.fracBits)

/-- val(e) (rule R82). A zero of either sign is the real 0. -/
def val (f : Fmt) (e : Chan f) : FVal :=
  if expField f e = f.expMax then
    if fracField f e = 0 then .inf (signBit f e) else .nan
  else .real (if signBit f e then -magnitude f e else magnitude f e)

/-- isNaN(e) (rule R13). -/
def isNaN (f : Fmt) (e : Chan f) : Bool := val f e == .nan

/-- The real number of a finite encoding, and 0 for a NaN or an infinity. -/
def realOf (f : Fmt) (e : Chan f) : Rat :=
  match val f e with
  | .real v => v
  | _ => 0

/-- The encoding of a magnitude that is an FMT value: the count of its last-place units, the exponent
field above them (rule R82). -/
def encMagnitude (f : Fmt) (v : Rat) : Int :=
  (ulpExp f v - f.minExp) * 2 ^ f.fracBits + (v / pow2 (ulpExp f v)).floor

/-- enc(v), the encoding of the FMT value v; enc(0) is all zeros (rule R13). -/
def enc (f : Fmt) (v : Rat) : Chan f :=
  if v = 0 then 0
  else if v < 0 then BitVec.ofInt f.width (2 ^ (f.expBits + f.fracBits) + encMagnitude f (-v))
  else BitVec.ofInt f.width (encMagnitude f v)

end Sys2Proof.Machine
end

