-- ==== Sys2Proof/Machine/Datapath.lean ====
section
/-!
DEFINITION. The five units of the datapath and their composition ENCODE (spec/40_encode.md rule R100;
spec/41_normalize.md to spec/45_scale_clamp.md). Every value between the units is an exact rational;
each rn is one of the roundings of rule R100.
-/

namespace Sys2Proof.Machine

/-- NORM (rule R120), one lane of the clamping/normalization unit. -/
def norm (f : Fmt) (e : Chan f) : Rat :=
  match val f e with
  | .nan => 0
  | .inf false => 1
  | .inf true => 0
  | .real v =>
    let q := rn f (v / Config.range)
    if q ≤ 0 then 0 else if 1 < q then 1 else q

/-- The greater of two values, compared as reals (rule R143). -/
def maxOf (a b : Rat) : Rat := if a ≤ b then b else a

/-- MAX3 (rule R140): the peak, floored at EPSILON and capped at 1. -/
def max3 (eps a b c : Rat) : Rat :=
  let floored := maxOf eps (maxOf (maxOf a b) c)
  if floored ≤ 1 then floored else 1

/-- The level m_k = RN(k/255) (rule R162). -/
def level (f : Fmt) (k : Nat) : Rat := rn f (k / Config.levels)

/-- The scaled peak t = RN(m_raw * 255) of QUANT (rule R160). -/
def scaledPeak (f : Fmt) (mRaw : Rat) : Rat := rn f (mRaw * Config.levels)

/-- The integer code k = ceil(t) of QUANT (rules R160 and R161); internal, not a port (rule R36). -/
def quantCode (f : Fmt) (mRaw : Rat) : Nat := (scaledPeak f mRaw).ceil.toNat

/-- QUANT (rule R160): the code k and the level m. -/
def quant (f : Fmt) (mRaw : Rat) : Nat × Rat := (quantCode f mRaw, level f (quantCode f mRaw))

/-- RECIP (rule R180): the exact reciprocal of m, never rounded to FMT (rule R182). -/
def recip (m : Rat) : Rat := 1 / m

/-- SCALE (rule R200): one rounding of the exact product of the channel and the shared reciprocal. -/
def scale (f : Fmt) (c rho : Rat) : Rat := rn f (c * rho)

/-- OCLAMP (rule R201). -/
def oclamp (d : Rat) : Rat := if d < 0 then 0 else if 1 < d then 1 else d

/-- Three values of one pixel, a lane each. -/
structure Rgb where
  r : Rat
  g : Rat
  b : Rat
  deriving DecidableEq, Repr

/-- The values of an output pixel (rule R203). -/
structure Rgbm where
  rgb : Rgb
  m : Rat
  deriving DecidableEq, Repr

/-- One function applied lane by lane (rules R125 and R183). -/
def Rgb.lanes (h : Rat → Rat) (c : Rgb) : Rgb := { r := h c.r, g := h c.g, b := h c.b }

/-- Unit 1: the normalized pixel c (rule R120). -/
def normPixel (f : Fmt) (r g b : Chan f) : Rgb := { r := norm f r, g := norm f g, b := norm f b }

/-- Unit 2: the floored peak m_raw (rule R140). -/
def peak (f : Fmt) (eps : Chan f) (c : Rgb) : Rat := max3 (realOf f eps) c.r c.g c.b

/-- Unit 4 and the scaling of unit 5: the quotients d, one reciprocal for the three lanes (rules R183
and R200). -/
def quotients (f : Fmt) (c : Rgb) (rho : Rat) : Rgb := c.lanes fun ci => scale f ci rho

/-- The output clamp of unit 5, present in every build (rule R201). -/
def clampPixel (d : Rgb) : Rgb := d.lanes oclamp

/-- The quotients d ENCODE computes for a pixel, before the output clamp (rules R100 and R202). -/
def encodeQuotients (f : Fmt) (eps r g b : Chan f) : Rgb :=
  let c := normPixel f r g b
  quotients f c (recip (quant f (peak f eps c)).2)

/-- The values ENCODE computes for a pixel (rule R100). -/
def encodeValues (f : Fmt) (eps r g b : Chan f) : Rgbm :=
  { rgb := clampPixel (encodeQuotients f eps r g b)
    m := (quant f (peak f eps (normPixel f r g b))).2 }

/-- PACK (rule R203) in binary32: the beat {M, B, G, R}. -/
def pack32 (p : Rgbm) : BitVec 128 :=
  enc .binary32 p.m ++ (enc .binary32 p.rgb.b ++ (enc .binary32 p.rgb.g ++ enc .binary32 p.rgb.r))

/-- PACK (rule R203) in binary64. -/
def pack64 (p : Rgbm) : BitVec 256 :=
  enc .binary64 p.m ++ (enc .binary64 p.rgb.b ++ (enc .binary64 p.rgb.g ++ enc .binary64 p.rgb.r))

/-- ENCODE (rule R100): the output beat of an input beat, in the beat's own format, with the EPSILON of
the build. -/
def encodeBeat (build : Build) : Instr → OutData
  | .encode32 r g b => .w128 (pack32 (encodeValues .binary32 build.eps32 r g b))
  | .encode64 r g b => .w256 (pack64 (encodeValues .binary64 build.eps64 r g b))

end Sys2Proof.Machine
end

