-- ==== Sys2Proof/Machine/State.lean ====
section
/-!
DEFINITION. The state of the machine: the in-flight queue Q and the few bits the rules of
spec/10_state.md imply beside it, the free choices still to be made, the output stream, and the host
that drives the ports (spec/30_encoding.md rule R88, spec/20_memory.md rule R61). The block itself has
no registers, no program counter, no flags and no memory (rules R30 to R34 and R60).
-/

namespace Sys2Proof.Machine

/-- An entry of Q (rule R37). `beat` is the input beat as accepted, read as its ENCODE; reading it loses
no bit. `age` counts the rising edges since the pixel was accepted, the accepting edge included. -/
structure Entry where
  beat : Instr
  age : Nat
  deriving DecidableEq, Repr

/-- The block's free choices in one cycle (rule R39 item 4, rule R40; U2 and U3): whether it offers a
head that is old enough, and whether it is ready where Q has room, in a cycle with `out_ready` = 0
(`readyHeld`) and in one with `out_ready` = 1 (`readyTaken`). -/
structure Choice where
  offer : Bool
  readyHeld : Bool
  readyTaken : Bool
  deriving DecidableEq, Repr

/-- The input ports in one cycle (rule R35); the clock is the step itself. -/
structure PortsIn where
  rst : Bool
  inValid : Bool
  inData : InData
  outReady : Bool
  deriving DecidableEq, Repr

/-- The output ports in one cycle (rule R36). -/
structure PortsOut where
  inReady : Bool
  outValid : Bool
  outData : OutData
  busy : Bool
  deriving DecidableEq, Repr

/-- HOST_ENDIAN, the byte order of the host's buffers (rule R66). -/
inductive Endian where
  | little
  | big
  deriving DecidableEq, Repr

/-- The image the host encodes, and where its buffers lie (rule R61). -/
structure Image where
  height : Nat
  width : Nat
  inBase : Nat
  outBase : Nat
  endian : Endian
  deriving DecidableEq, Repr

/-- One line of the host's script: the lines of rule R88 as beats and numbers, and two more that let
the host do the rest of what the spec allows it. -/
inductive Line where
  /-- `ENCODE`: offer this beat until it is accepted (rule R88). `dest` is where the result is to be
  stored, when the beat is a pixel (y, x) of the host's image (rule R61). -/
  | send (beat : InData) (dest : Option (Nat × Nat))
  /-- Read pixel (y, x) from the host's input buffer, then offer it (rule R61). -/
  | pixel (y x : Nat)
  /-- `IDLE n`: n cycles with `in_valid` = 0 (rule R88). -/
  | idle (n : Nat)
  /-- `HOLD n`: `out_ready` = 0 for n cycles while the following lines go on (rule R88). -/
  | hold (n : Nat)
  /-- `RESET n`: n cycles with `rst` = 1 (rule R88). -/
  | reset (n : Nat)
  /-- `DRAIN`: wait, with `out_ready` = 1, until `busy` = 0 (rule R88). -/
  | drain
  /-- One cycle with exactly these port values: any host (rule R245). -/
  | drive (ports : PortsIn)
  deriving DecidableEq, Repr

/-- The host, which drives the input ports and takes the output beats. None of it is the block's. -/
structure HostSide where
  /-- The lines still to run, the current one first (rule R88). -/
  script : List Line
  /-- Cycles of `HOLD` still to go, the current one included (rule R88). -/
  hold : Nat
  /-- For each pixel in flight, oldest first, where its result is to be stored: the host pairs results
  with pixels by their position in the stream (rules R63 and R70). -/
  dests : List (Option (Nat × Nat))
  /-- The image being encoded (rule R61). -/
  image : Image
  /-- The host's memory: addresses strictly rising, no byte equal to what an unlisted address reads as. -/
  mem : List Host.Cell
  deriving DecidableEq, Repr

/-- The machine at the start of a clock cycle. -/
structure State where
  /-- What is fixed when the block is built; no step changes it (rules R5, R8, R9, R10 and R33). -/
  build : Build
  /-- An edge with `rst` = 1 has been seen since power-up (rule R243). -/
  live : Bool
  /-- The in-flight queue Q, oldest entry first (rule R37). -/
  q : List Entry
  /-- The head of Q was offered in the cycle before and not taken, so it stays offered (rule R39 item 3). -/
  offered : Bool
  /-- The block's free choices of this cycle and the next ones. Past its end they are the free values
  of Config. The model's own field, not the spec's. -/
  schedule : List Choice
  /-- The number of this cycle, to which the free values of Config are applied. The model's own field:
  the block has no counter (rule R227). -/
  draws : Nat
  /-- Every output beat transferred so far, in order: the output list of rule R88. -/
  outputs : List OutData
  /-- The host at the ports. -/
  host : HostSide
  deriving DecidableEq, Repr

/-- The block signals no error and never stops: the table of exception causes is empty (rule R220).
There is no fault, and none could be raised. -/
inductive Fault where
  deriving DecidableEq, Repr

/-- Why a cycle has no meaning. -/
inductive Refusal where
  /-- Raised by exec for an instruction without a meaning; none is left. Safe. -/
  | notModelled (mnemonic : String)
  /-- Raised by a cycle with `rst` = 0 before the first edge with `rst` = 1 after power-up: state and
  ports are unspecified and such a run is outside the spec (rules R231 and R243, U4). Safe. -/
  | beforeFirstReset
  /-- Raised by a beat of the other format: the block has exactly one of the two rows of the opcode
  table, and its port has that row's width (rules R35 and R87). Safe. -/
  | notThisBuild (fmt : Fmt)
  deriving DecidableEq, Repr

/-- A host that does nothing: no line to run, no image, nothing in memory. -/
def HostSide.quiet : HostSide :=
  { script := [], hold := 0, dests := [],
    image := { height := 0, width := 0, inBase := 0, outBase := 0, endian := .little }, mem := [] }

/-- The machine right after reset: Q is empty (rules R44 and R243). The spec gives the host no reset
value; log entries 1 and 12 name the model's choices. -/
def State.reset : State :=
  { build := Config.thisBuild, live := true, q := [], offered := false, schedule := [], draws := 0,
    outputs := [], host := HostSide.quiet }

end Sys2Proof.Machine
end

