-- ==== Sys2Proof/Machine/Flags.lean ====
section
/-!
DEFINITION. The status of the block. It has no flags and no condition codes (spec/10_state.md rule R32);
what it shows in a cycle are its output ports (rule R36), computed here from the state at the start of
the cycle and the input ports (rules R39 to R42; spec/70_reset_and_hazards.md rule R247).
-/

namespace Sys2Proof.Machine

/-- The free choices of this cycle: the schedule's next one or, past its end, the free values of Config. -/
def State.choice (s : State) : Choice :=
  match s.schedule with
  | c :: _ => c
  | [] =>
    { offer := Config.freeOffer s.draws (s.q.map (·.beat))
      readyHeld := Config.freeReady s.draws false
      readyTaken := Config.freeReady s.draws true }

/-- Q is not empty and its head has age >= LATENCY (rule R39 item 1). -/
def State.headOld (s : State) : Bool :=
  match s.q with
  | [] => false
  | e :: _ => s.build.latency ≤ e.age

/-- `out_valid` in a cycle with this `rst` (rule R39): only for an old enough head, again if it was
offered and not taken (item 3), else by free choice (item 4). It does not depend on `out_ready` (item 5). -/
def State.outValid (s : State) (rst : Bool) : Bool :=
  !rst && s.headOld && (s.offered || s.choice.offer)

/-- `out_data` while `out_valid` = 0: any value (rule R42). -/
def State.idleOut (s : State) : OutData :=
  match s.build.fmt with
  | .binary32 => .w128 ((Config.freeOutData s.draws).truncate 128)
  | .binary64 => .w256 (Config.freeOutData s.draws)

/-- The result of an entry: ENCODE of its beat (rule R39 item 2). -/
def Entry.result (build : Build) (e : Entry) : OutData := encodeBeat build e.beat

/-- `out_data` (rule R39 item 2, rule R42). -/
def State.outData (s : State) (rst : Bool) : OutData :=
  match s.outValid rst, s.q with
  | true, e :: _ => e.result s.build
  | _, _ => s.idleOut

/-- Q has room for a beat in this cycle (rule R40): it is not full, or it is full and its head is being
taken in this very cycle. -/
def State.hasRoom (s : State) (rst outReady : Bool) : Bool :=
  s.q.length < s.build.depth || (s.q.length == s.build.depth && s.outValid rst && outReady)

/-- The block's choice to be ready, which may depend on `out_ready` (rule R40). -/
def Choice.ready (c : Choice) (outReady : Bool) : Bool :=
  if outReady then c.readyTaken else c.readyHeld

/-- `in_ready` (rule R40). It depends on neither `in_valid` nor `in_data`. -/
def State.inReady (s : State) (rst outReady : Bool) : Bool :=
  !rst && s.hasRoom rst outReady && s.choice.ready outReady

/-- `busy` (rule R41). -/
def State.busy (s : State) (rst : Bool) : Bool := !rst && !s.q.isEmpty

/-- All output ports of a cycle with these input ports (rule R36). -/
def State.portsOut (s : State) (p : PortsIn) : PortsOut :=
  { inReady := s.inReady p.rst p.outReady
    outValid := s.outValid p.rst
    outData := s.outData p.rst
    busy := s.busy p.rst }

/-- An input transfer happens at the edge that ends the cycle (rules R15 and R38). -/
def State.accepts (s : State) (p : PortsIn) : Bool := p.inValid && s.inReady p.rst p.outReady

/-- An output transfer happens at the edge that ends the cycle (rules R15 and R38). -/
def State.delivers (s : State) (p : PortsIn) : Bool := s.outValid p.rst && p.outReady

end Sys2Proof.Machine
end

