-- ==== Sys2Proof/Machine/Ops.lean ====
section
/-!
DEFINITION. What a rising edge of the clock does to the block (spec/10_state.md rule R38;
spec/70_reset_and_hazards.md rule R240). There is no exception to take and none to return from
(spec/60_exceptions.md rules R220, R224 and R225), so there is no such operation.
-/

namespace Sys2Proof.Machine

/-- An entry one edge later (rule R38). -/
def Entry.older (e : Entry) : Entry := { e with age := e.age + 1 }

/-- Q' of rule R38: a delivery takes the head, every entry left ages, an accepted beat enters last
(the order of rule R223 item 2). -/
def nextQueue (q : List Entry) (deliver : Bool) (accepted : Option Instr) : List Entry :=
  let q1 := if deliver then q.tail else q
  let q2 := q1.map Entry.older
  match accepted with
  | some beat => q2 ++ [{ beat := beat, age := 1 }]
  | none => q2

/-- One cycle's free choices and its number are used up. -/
def State.spend (s : State) : State :=
  { s with schedule := s.schedule.tail, draws := s.draws + 1 }

/-- An edge with `rst` = 1: Q is emptied and no transfer happens (rule R240). Outputs delivered before
stay delivered (rule R241). One such edge is enough (rule R242). -/
def State.resetEdge (s : State) : State :=
  { s.spend with live := true, q := [], offered := false }

/-- The beat an edge with these ports accepts, if it accepts one; `in_data` is captured only then
(rule R38). -/
def State.accepted (s : State) (p : PortsIn) : Option Instr :=
  if s.accepts p then some (decode p.inData) else none

/-- The output beats an edge with these ports transfers: none or one (rules R38 and R68). -/
def State.delivered (s : State) (p : PortsIn) : List OutData :=
  if s.delivers p then [s.outData p.rst] else []

/-- An edge with `rst` = 0 (rule R38): the output transfer, then the input transfer. An offered head
that is not taken is remembered (rule R39 item 3). -/
def State.transferEdge (s : State) (p : PortsIn) : State :=
  { s.spend with
    q := nextQueue s.q (s.delivers p) (s.accepted p)
    offered := s.outValid p.rst && !p.outReady
    outputs := s.outputs ++ s.delivered p }

/-- The edge that ends a cycle with these input ports. Reset comes before everything (rule R223). -/
def State.edge (s : State) (p : PortsIn) : State :=
  if p.rst then s.resetEdge else s.transferEdge p

/-- A cycle with these input ports. Before the first reset edge only a reset has a meaning (rule R243). -/
def State.cycle (s : State) (p : PortsIn) : Host.Outcome State Fault Refusal :=
  if p.rst || s.live then .next (s.edge p) else .refused .beforeFirstReset

/-- `out_ready` as the host drives it in this cycle: 0 while a `HOLD` lasts, else 1 (rule R88). -/
def State.hostOutReady (s : State) : Bool :=
  match s.host.script with
  | .drive p :: _ => p.outReady
  | _ => s.host.hold == 0

/-- The input ports of a cycle in which the host offers this beat. -/
def State.beatPorts (s : State) (i : Instr) : PortsIn :=
  { rst := false, inValid := true, inData := encode i, outReady := s.hostOutReady }

/-- The cycle in which a beat stands on the input port, with `rst` = 0. The block captures it at the edge
if `in_ready` = 1 (rules R38 and R40) and never refuses it for its value (rule R232). A beat of the
other format does not fit the port (rule R87). -/
def State.offerBeat (s : State) (i : Instr) : Host.Outcome State Fault Refusal :=
  if i.fits s.build.fmt then s.cycle (s.beatPorts i) else .refused (.notThisBuild i.fmt)

end Sys2Proof.Machine
end

