-- ==== Sys2Proof/Machine/Encode.lean ====
section
/-!
DEFINITION. What the block does with an input beat: spec/40_encode.md rule R100, in the two formats of
spec/opcode_table.json. A beat is offered for one cycle; once accepted it stands in Q, and ENCODE of it
is what the block delivers for it (spec/10_state.md rules R37 to R39).
-/

namespace Sys2Proof.Machine

/-- ENCODE of a binary32 pixel: the beat stands on the input port in this cycle. -/
def execEncode32 (r g b : BitVec 32) (s : State) : Host.Outcome State Fault Refusal :=
  s.offerBeat (.encode32 r g b)

/-- ENCODE of a binary64 pixel: the beat stands on the input port in this cycle. -/
def execEncode64 (r g b : BitVec 64) (s : State) : Host.Outcome State Fault Refusal :=
  s.offerBeat (.encode64 r g b)

end Sys2Proof.Machine
end

