-- ==== Sys2Proof/Machine/Dispatch.lean ====
section
/-! DEFINITION. Which meaning each instruction has (spec/opcode_table.json). -/

namespace Sys2Proof.Machine

def exec (i : Instr) (s : State) : Host.Outcome State Fault Refusal :=
  match i with
  | .encode32 r g b => Sys2Proof.Machine.execEncode32 r g b s
  | .encode64 r g b => Sys2Proof.Machine.execEncode64 r g b s

end Sys2Proof.Machine
end

