-- ==== Sys2Proof/Machine/Memory.lean ====
section
/-!
DEFINITION. The host's memory. The block has no address space and touches no memory (spec/20_memory.md
rule R60); these are MemRead and MemWrite of the host-side contract (spec/00_scope.md rule R13,
spec/20_memory.md rules R61 and R66). A memory is a list of cells, addresses strictly rising, that lists
no byte equal to what an unlisted address reads as.
-/

namespace Sys2Proof.Machine

/-- What a byte of the host's memory that nothing has written reads as. DESIGN CHOICE, log entry 13. -/
def unlistedByte : BitVec 8 := 0

/-- The cells are in canonical form, all at address `lo` or above. -/
def cellsFrom (lo : Nat) : List Host.Cell → Bool
  | [] => true
  | (a, b) :: m => lo ≤ a && b != unlistedByte && cellsFrom (a + 1) m

/-- The canonical form of a memory, in which equal memories are equal lists. -/
def memWf (m : List Host.Cell) : Bool := cellsFrom 0 m

/-- The byte at an address. -/
def readByte : List Host.Cell → Nat → BitVec 8
  | [], _ => unlistedByte
  | (a, b) :: m, addr => if a = addr then b else readByte m addr

/-- A byte in front of cells that lie above it, unless it is what an unlisted address reads as. -/
def consCell (addr : Nat) (v : BitVec 8) (m : List Host.Cell) : List Host.Cell :=
  if v = unlistedByte then m else (addr, v) :: m

/-- One byte written, in canonical form. -/
def writeByte : List Host.Cell → Nat → BitVec 8 → List Host.Cell
  | [], addr, v => consCell addr v []
  | (a, b) :: m, addr, v =>
    if addr < a then consCell addr v ((a, b) :: m)
    else if addr = a then consCell addr v m
    else (a, b) :: writeByte m addr v

/-- The `n` bytes from an address on. -/
def readBytes (m : List Host.Cell) (addr : Nat) : Nat → List (BitVec 8)
  | 0 => []
  | n + 1 => readByte m addr :: readBytes m (addr + 1) n

/-- Bytes written from an address on. -/
def writeBytes (m : List Host.Cell) (addr : Nat) : List (BitVec 8) → List Host.Cell
  | [] => m
  | b :: bs => writeBytes (writeByte m addr b) (addr + 1) bs

/-- The number whose bytes these are, least significant first. -/
def numberOf : List (BitVec 8) → Nat
  | [] => 0
  | b :: bs => b.toNat + 256 * numberOf bs

/-- The `n` low bytes of a number, least significant first. -/
def bytesOf (v : Nat) : Nat → List (BitVec 8)
  | 0 => []
  | n + 1 => BitVec.ofNat 8 v :: bytesOf (v / 256) n

/-- Bytes listed least significant first, put in memory order, or back (rule R66). -/
def inOrder (e : Endian) (bs : List (BitVec 8)) : List (BitVec 8) :=
  match e with
  | .little => bs
  | .big => bs.reverse

/-- MemRead(addr, n) (rule R13), in the host's byte order. -/
def memRead (e : Endian) (m : List Host.Cell) (addr n : Nat) : Nat :=
  numberOf (inOrder e (readBytes m addr n))

/-- MemWrite(addr, n, v) (rule R13), in the host's byte order. -/
def memWrite (e : Endian) (m : List Host.Cell) (addr n v : Nat) : List Host.Cell :=
  writeBytes m addr (inOrder e (bytesOf v n))

/-- The byte address of element (y, x, ch) of a buffer with C channels (rule R61). -/
def elementAddr (img : Image) (f : Fmt) (base channels y x ch : Nat) : Nat :=
  base + ((y * img.width + x) * channels + ch) * f.bytes

/-- Channel ch of pixel (y, x) of the input buffer, which has three channels (rule R61). -/
def inElement (img : Image) (f : Fmt) (m : List Host.Cell) (y x ch : Nat) : Nat :=
  memRead img.endian m (elementAddr img f img.inBase 3 y x ch) f.bytes

/-- The input beat of pixel (y, x): the concatenation {b, g, r} (rule R61). -/
def readPixel (img : Image) (f : Fmt) (m : List Host.Cell) (y x : Nat) : InData :=
  match f with
  | .binary32 =>
    .w96 (BitVec.ofNat 32 (inElement img f m y x 2) ++
      (BitVec.ofNat 32 (inElement img f m y x 1) ++ BitVec.ofNat 32 (inElement img f m y x 0)))
  | .binary64 =>
    .w192 (BitVec.ofNat 64 (inElement img f m y x 2) ++
      (BitVec.ofNat 64 (inElement img f m y x 1) ++ BitVec.ofNat 64 (inElement img f m y x 0)))

/-- The fields of an output beat written from channel ch on (rule R61). -/
def storeFields (img : Image) (f : Fmt) (y x : Nat) :
    List Nat → Nat → List Host.Cell → List Host.Cell
  | [], _, m => m
  | v :: vs, ch, m =>
    storeFields img f y x vs (ch + 1)
      (memWrite img.endian m (elementAddr img f img.outBase 4 y x ch) f.bytes v)

/-- An output beat stored at pixel (y, x) of the output buffer, which has four channels R, G, B, M
(rule R61). -/
def storePixel (img : Image) (m : List Host.Cell) (out : OutData) (y x : Nat) : List Host.Cell :=
  storeFields img out.fmt y x (outFields out) 0 m

end Sys2Proof.Machine
end

