-- ==== Sys2Proof/Machine/Script.lean ====
section
/-!
DEFINITION. The host at the ports: the script semantics of spec/30_encoding.md rule R88 and the image
contract of spec/20_memory.md rules R61 and R70. The host is no part of the block; it is what the block's
rules call whatever drives the input stream and drains the output stream (spec/00_scope.md section 6).
-/

namespace Sys2Proof.Machine

/-- The lines that take no cycle are run off the front of a script: `HOLD`, a line of zero cycles, and
`DRAIN` once Q is empty. A pixel line reads its beat. What is left is the script, and the cycles of
`HOLD` to go. -/
def settleLines (img : Image) (f : Fmt) (m : List Host.Cell) (empty : Bool) :
    List Line → Nat → List Line × Nat
  | [], held => ([], held)
  | .hold n :: ls, held => settleLines img f m empty ls (max held n)
  | .idle 0 :: ls, held => settleLines img f m empty ls held
  | .reset 0 :: ls, held => settleLines img f m empty ls held
  | .drain :: ls, held =>
    if empty then settleLines img f m empty ls held else (.drain :: ls, held)
  | .pixel y x :: ls, held => (.send (readPixel img f m y x) (some (y, x)) :: ls, held)
  | l :: ls, held => (l :: ls, held)

/-- The state with the host's current line found: the line that fills this cycle stands first. -/
def State.settle (s : State) : State :=
  let r := settleLines s.host.image s.build.fmt s.host.mem s.q.isEmpty s.host.script s.host.hold
  { s with host := { s.host with script := r.1, hold := r.2 } }

/-- What a script drives on `in_data` while it offers no beat: any value (log entry 4). -/
def State.idleIn (s : State) : InData :=
  match s.build.fmt with
  | .binary32 => .w96 ((Config.freeInData s.draws).truncate 96)
  | .binary64 => .w192 (Config.freeInData s.draws)

/-- The input ports in the cycle that starts here, the current line standing first (rule R88). They do
not depend on `in_ready` (rule R231 item 3). -/
def State.hostPorts (s : State) : PortsIn :=
  match s.host.script with
  | .send beat _ :: _ =>
    { rst := false, inValid := true, inData := beat, outReady := s.hostOutReady }
  | .reset _ :: _ =>
    { rst := true, inValid := false, inData := s.idleIn, outReady := s.hostOutReady }
  | .drive p :: _ => p
  | _ => { rst := false, inValid := false, inData := s.idleIn, outReady := s.hostOutReady }

/-- The script after a cycle: an `ENCODE` line stays until its beat is accepted; `IDLE` and `RESET` count
down; a `DRAIN` stays (rule R88). -/
def nextScript (accepted : Bool) : List Line → List Line
  | .send beat dest :: ls => if accepted then ls else .send beat dest :: ls
  | .idle (n + 1) :: ls => .idle n :: ls
  | .reset (n + 1) :: ls => .reset n :: ls
  | .drive _ :: ls => ls
  | ls => ls

/-- Where the result of the beat offered by the current line is to be stored. -/
def currentDest : List Line → Option (Nat × Nat)
  | .send _ dest :: _ => dest
  | _ => none

/-- The destinations of the pixels in flight after a cycle, kept in step with Q (rules R63 and R241). -/
def State.nextDests (s : State) (p : PortsIn) : List (Option (Nat × Nat)) :=
  if p.rst then []
  else
    (if s.delivers p then s.host.dests.tail else s.host.dests) ++
      (if s.accepts p then [currentDest s.host.script] else [])

/-- The host's memory after a cycle: a delivered beat is stored at its pixel (rule R61). -/
def State.nextMem (s : State) (p : PortsIn) : List Host.Cell :=
  match s.delivered p, s.host.dests with
  | out :: _, some (y, x) :: _ => storePixel s.host.image s.host.mem out y x
  | _, _ => s.host.mem

/-- The host after a cycle of the block that started in `s` with these ports. -/
def State.nextHost (s : State) (p : PortsIn) : HostSide :=
  { script := nextScript (s.accepts p) s.host.script
    hold := s.host.hold - 1
    dests := s.nextDests p
    image := s.host.image
    mem := s.nextMem p }

/-- The state of the block after a cycle, with the host that comes after it. -/
def withHost (h : HostSide) :
    Host.Outcome State Fault Refusal → Host.Outcome State Fault Refusal
  | .next t => .next { t with host := h }
  | .fault r => .fault r
  | .refused r => .refused r

/-- The beat that stands on the input port in this cycle, read as an instruction: an ENCODE is offered
when `in_valid` = 1 outside a reset (rules R84 and R223). -/
def State.offeredBeat (s : State) : Option Instr :=
  if s.hostPorts.inValid && !s.hostPorts.rst then some (decode s.hostPorts.inData) else none

/-- Q can stay as it is when one more beat of this format is to enter: it has room and the block is built
for the format. -/
def State.roomFor (s : State) (f : Fmt) : Bool :=
  s.build.fmt == f && s.q.length < s.build.depth

/-- The script has run to its end: the end of the run (spec/70_reset_and_hazards.md rule R251). -/
def State.finished (s : State) : Bool := s.settle.host.script.isEmpty

/-- The lines that send every pixel of an image in the order given, which is the host's choice
(rule R70), and wait for the results. -/
def imageScript (order : List (Nat × Nat)) : List Line :=
  order.map (fun p => Line.pixel p.1 p.2) ++ [.drain]

/-- The pixels of an image in row-major order: increasing index p = y * width + x (rule R69). -/
def rowMajor (img : Image) : List (Nat × Nat) :=
  (List.range (img.height * img.width)).map fun p => (p / img.width, p % img.width)

/-- A channel literal of the program text (rule R88). -/
inductive ChanLit where
  | decimal (v : Rat)
  | hex (bits : Nat)
  | posInf
  | negInf
  | negZero
  | qnan
  | snan
  deriving DecidableEq, Repr

/-- The encoding with this sign, exponent field and fraction field (rule R82). -/
def ofFields (f : Fmt) (sign expo frac : Nat) : Chan f :=
  BitVec.ofNat f.width (sign * 2 ^ (f.expBits + f.fracBits) + expo * 2 ^ f.fracBits + frac)

/-- The encoding of RN of any rational, with the overflow of IEEE 754 roundTiesToEven (rule R12): a value
whose rounding passes the greatest finite one becomes the infinity of its sign. A zero result is +0. DEDUCED, log entry 19. -/
def encRounded (f : Fmt) (v : Rat) : Chan f :=
  if maxFinite f < rn f v then ofFields f 0 f.expMax 0
  else if rn f v < -maxFinite f then ofFields f 1 f.expMax 0
  else enc f (rn f v)

/-- What a channel literal denotes in FMT (rule R88). -/
def ChanLit.denote (f : Fmt) : ChanLit → Chan f
  | .decimal v => encRounded f v
  | .hex bits => BitVec.ofNat f.width bits
  | .posInf => ofFields f 0 f.expMax 0
  | .negInf => ofFields f 1 f.expMax 0
  | .negZero => ofFields f 1 0 0
  | .qnan => ofFields f 0 f.expMax (2 ^ (f.fracBits - 1))
  | .snan => ofFields f 0 f.expMax 1

/-- A line of a program (rule R88). -/
inductive ProgramLine where
  | encode (r g b : ChanLit)
  | idle (n : Nat)
  | hold (n : Nat)
  | reset (n : Nat)
  | drain
  deriving DecidableEq, Repr

/-- The beat of an `ENCODE` line (rules R80 and R88). -/
def beatOf (f : Fmt) (r g b : ChanLit) : InData :=
  match f with
  | .binary32 =>
    encode (.encode32 (r.denote .binary32) (g.denote .binary32) (b.denote .binary32))
  | .binary64 =>
    encode (.encode64 (r.denote .binary64) (g.denote .binary64) (b.denote .binary64))

/-- A program line as a line of the host's script. -/
def ProgramLine.assemble (f : Fmt) : ProgramLine → Line
  | .encode r g b => .send (beatOf f r g b) none
  | .idle n => .idle n
  | .hold n => .hold n
  | .reset n => .reset n
  | .drain => .drain

/-- The encoding of a program: the list of its input beats; directives have none (rule R89). -/
def scriptBeats : List Line → List InData
  | [] => []
  | .send beat _ :: ls => beat :: scriptBeats ls
  | _ :: ls => scriptBeats ls

/-- Choices that offer and accept whenever the rules allow it, for `n` cycles. -/
def eagerChoices (n : Nat) : List Choice :=
  List.replicate n { offer := true, readyHeld := true, readyTaken := true }

/-- A machine whose host is about to run a program, on a block that is eager for `cycles` cycles. -/
def State.load (s : State) (program : List ProgramLine) (cycles : Nat) : State :=
  { s with
    schedule := eagerChoices cycles
    host := { s.host with script := program.map (ProgramLine.assemble s.build.fmt) } }

end Sys2Proof.Machine
end

