-- ==== Sys2Proof/Machine/Step.lean ====
section
/-!
DEFINITION. One step is one clock cycle (spec/00_scope.md rule R15): the host's ports are found, a beat
that stands on the input port is run as its ENCODE, and the host goes on from what it saw.
-/

namespace Sys2Proof.Machine

/-- What the block does in the cycle that starts here, the host's current line standing first. -/
def State.blockCycle (s : State) : Host.Outcome State Fault Refusal :=
  match s.offeredBeat with
  | some i => exec i s
  | none => s.cycle s.hostPorts

/-- One clock cycle. -/
def step (s : State) : Host.Outcome State Fault Refusal :=
  withHost (s.settle.nextHost s.settle.hostPorts) s.settle.blockCycle

/-- s about to run this word: the build has its format, the block is out of reset, has room and
chooses to be ready, and the host's next line offers the beat. -/
def State.withFetchWord (s : State) (nbits w : Nat) : State :=
  let beat := tableBeat nbits w
  { s with
    build := { s.build with fmt := beat.fmt }
    live := true
    q := if s.roomFor beat.fmt then s.q else []
    offered := s.roomFor beat.fmt && s.offered
    schedule := { offer := true, readyHeld := true, readyTaken := true } :: s.schedule
    host := { s.host with
      script := .send beat none :: s.host.script
      dests := if s.roomFor beat.fmt then s.host.dests else [] } }

end Sys2Proof.Machine
end

