-- ==== Sys2Proof/Machine/Levels.lean ====
section
/-!
DEFINITION. The level table of spec/43_quantize.md rule R162, as the spec prints it. The datapath
computes RN(k/255) instead, which the rule allows; the table is what it must agree with.
-/

namespace Sys2Proof.Machine

/-- Levels 1 to 64 of rule R162, binary32. -/
def levelTable32Part1 : List Nat :=
  [
    0x3B808081, 0x3C008081, 0x3C40C0C1, 0x3C808081, 0x3CA0A0A1, 0x3CC0C0C1, 0x3CE0E0E1, 0x3D008081,
    0x3D109091, 0x3D20A0A1, 0x3D30B0B1, 0x3D40C0C1, 0x3D50D0D1, 0x3D60E0E1, 0x3D70F0F1, 0x3D808081,
    0x3D888889, 0x3D909091, 0x3D989899, 0x3DA0A0A1, 0x3DA8A8A9, 0x3DB0B0B1, 0x3DB8B8B9, 0x3DC0C0C1,
    0x3DC8C8C9, 0x3DD0D0D1, 0x3DD8D8D9, 0x3DE0E0E1, 0x3DE8E8E9, 0x3DF0F0F1, 0x3DF8F8F9, 0x3E008081,
    0x3E048485, 0x3E088889, 0x3E0C8C8D, 0x3E109091, 0x3E149495, 0x3E189899, 0x3E1C9C9D, 0x3E20A0A1,
    0x3E24A4A5, 0x3E28A8A9, 0x3E2CACAD, 0x3E30B0B1, 0x3E34B4B5, 0x3E38B8B9, 0x3E3CBCBD, 0x3E40C0C1,
    0x3E44C4C5, 0x3E48C8C9, 0x3E4CCCCD, 0x3E50D0D1, 0x3E54D4D5, 0x3E58D8D9, 0x3E5CDCDD, 0x3E60E0E1,
    0x3E64E4E5, 0x3E68E8E9, 0x3E6CECED, 0x3E70F0F1, 0x3E74F4F5, 0x3E78F8F9, 0x3E7CFCFD, 0x3E808081 ]

/-- Levels 65 to 128 of rule R162, binary32. -/
def levelTable32Part2 : List Nat :=
  [
    0x3E828283, 0x3E848485, 0x3E868687, 0x3E888889, 0x3E8A8A8B, 0x3E8C8C8D, 0x3E8E8E8F, 0x3E909091,
    0x3E929293, 0x3E949495, 0x3E969697, 0x3E989899, 0x3E9A9A9B, 0x3E9C9C9D, 0x3E9E9E9F, 0x3EA0A0A1,
    0x3EA2A2A3, 0x3EA4A4A5, 0x3EA6A6A7, 0x3EA8A8A9, 0x3EAAAAAB, 0x3EACACAD, 0x3EAEAEAF, 0x3EB0B0B1,
    0x3EB2B2B3, 0x3EB4B4B5, 0x3EB6B6B7, 0x3EB8B8B9, 0x3EBABABB, 0x3EBCBCBD, 0x3EBEBEBF, 0x3EC0C0C1,
    0x3EC2C2C3, 0x3EC4C4C5, 0x3EC6C6C7, 0x3EC8C8C9, 0x3ECACACB, 0x3ECCCCCD, 0x3ECECECF, 0x3ED0D0D1,
    0x3ED2D2D3, 0x3ED4D4D5, 0x3ED6D6D7, 0x3ED8D8D9, 0x3EDADADB, 0x3EDCDCDD, 0x3EDEDEDF, 0x3EE0E0E1,
    0x3EE2E2E3, 0x3EE4E4E5, 0x3EE6E6E7, 0x3EE8E8E9, 0x3EEAEAEB, 0x3EECECED, 0x3EEEEEEF, 0x3EF0F0F1,
    0x3EF2F2F3, 0x3EF4F4F5, 0x3EF6F6F7, 0x3EF8F8F9, 0x3EFAFAFB, 0x3EFCFCFD, 0x3EFEFEFF, 0x3F008081 ]

/-- Levels 129 to 192 of rule R162, binary32. -/
def levelTable32Part3 : List Nat :=
  [
    0x3F018182, 0x3F028283, 0x3F038384, 0x3F048485, 0x3F058586, 0x3F068687, 0x3F078788, 0x3F088889,
    0x3F09898A, 0x3F0A8A8B, 0x3F0B8B8C, 0x3F0C8C8D, 0x3F0D8D8E, 0x3F0E8E8F, 0x3F0F8F90, 0x3F109091,
    0x3F119192, 0x3F129293, 0x3F139394, 0x3F149495, 0x3F159596, 0x3F169697, 0x3F179798, 0x3F189899,
    0x3F19999A, 0x3F1A9A9B, 0x3F1B9B9C, 0x3F1C9C9D, 0x3F1D9D9E, 0x3F1E9E9F, 0x3F1F9FA0, 0x3F20A0A1,
    0x3F21A1A2, 0x3F22A2A3, 0x3F23A3A4, 0x3F24A4A5, 0x3F25A5A6, 0x3F26A6A7, 0x3F27A7A8, 0x3F28A8A9,
    0x3F29A9AA, 0x3F2AAAAB, 0x3F2BABAC, 0x3F2CACAD, 0x3F2DADAE, 0x3F2EAEAF, 0x3F2FAFB0, 0x3F30B0B1,
    0x3F31B1B2, 0x3F32B2B3, 0x3F33B3B4, 0x3F34B4B5, 0x3F35B5B6, 0x3F36B6B7, 0x3F37B7B8, 0x3F38B8B9,
    0x3F39B9BA, 0x3F3ABABB, 0x3F3BBBBC, 0x3F3CBCBD, 0x3F3DBDBE, 0x3F3EBEBF, 0x3F3FBFC0, 0x3F40C0C1 ]

/-- Levels 193 to 255 of rule R162, binary32. -/
def levelTable32Part4 : List Nat :=
  [
    0x3F41C1C2, 0x3F42C2C3, 0x3F43C3C4, 0x3F44C4C5, 0x3F45C5C6, 0x3F46C6C7, 0x3F47C7C8, 0x3F48C8C9,
    0x3F49C9CA, 0x3F4ACACB, 0x3F4BCBCC, 0x3F4CCCCD, 0x3F4DCDCE, 0x3F4ECECF, 0x3F4FCFD0, 0x3F50D0D1,
    0x3F51D1D2, 0x3F52D2D3, 0x3F53D3D4, 0x3F54D4D5, 0x3F55D5D6, 0x3F56D6D7, 0x3F57D7D8, 0x3F58D8D9,
    0x3F59D9DA, 0x3F5ADADB, 0x3F5BDBDC, 0x3F5CDCDD, 0x3F5DDDDE, 0x3F5EDEDF, 0x3F5FDFE0, 0x3F60E0E1,
    0x3F61E1E2, 0x3F62E2E3, 0x3F63E3E4, 0x3F64E4E5, 0x3F65E5E6, 0x3F66E6E7, 0x3F67E7E8, 0x3F68E8E9,
    0x3F69E9EA, 0x3F6AEAEB, 0x3F6BEBEC, 0x3F6CECED, 0x3F6DEDEE, 0x3F6EEEEF, 0x3F6FEFF0, 0x3F70F0F1,
    0x3F71F1F2, 0x3F72F2F3, 0x3F73F3F4, 0x3F74F4F5, 0x3F75F5F6, 0x3F76F6F7, 0x3F77F7F8, 0x3F78F8F9,
    0x3F79F9FA, 0x3F7AFAFB, 0x3F7BFBFC, 0x3F7CFCFD, 0x3F7DFDFE, 0x3F7EFEFF, 0x3F800000 ]

/-- The levels m_1 to m_255 of rule R162, binary32. -/
def levelTable32 : List Nat :=
  levelTable32Part1 ++ levelTable32Part2 ++ levelTable32Part3 ++ levelTable32Part4

/-- Levels 1 to 64 of rule R162, binary64. -/
def levelTable64Part1 : List Nat :=
  [
    0x3F70101010101010, 0x3F80101010101010, 0x3F88181818181818, 0x3F90101010101010,
    0x3F94141414141414, 0x3F98181818181818, 0x3F9C1C1C1C1C1C1C, 0x3FA0101010101010,
    0x3FA2121212121212, 0x3FA4141414141414, 0x3FA6161616161616, 0x3FA8181818181818,
    0x3FAA1A1A1A1A1A1A, 0x3FAC1C1C1C1C1C1C, 0x3FAE1E1E1E1E1E1E, 0x3FB0101010101010,
    0x3FB1111111111111, 0x3FB2121212121212, 0x3FB3131313131313, 0x3FB4141414141414,
    0x3FB5151515151515, 0x3FB6161616161616, 0x3FB7171717171717, 0x3FB8181818181818,
    0x3FB9191919191919, 0x3FBA1A1A1A1A1A1A, 0x3FBB1B1B1B1B1B1B, 0x3FBC1C1C1C1C1C1C,
    0x3FBD1D1D1D1D1D1D, 0x3FBE1E1E1E1E1E1E, 0x3FBF1F1F1F1F1F1F, 0x3FC0101010101010,
    0x3FC0909090909091, 0x3FC1111111111111, 0x3FC1919191919192, 0x3FC2121212121212,
    0x3FC2929292929293, 0x3FC3131313131313, 0x3FC3939393939394, 0x3FC4141414141414,
    0x3FC4949494949495, 0x3FC5151515151515, 0x3FC5959595959596, 0x3FC6161616161616,
    0x3FC6969696969697, 0x3FC7171717171717, 0x3FC7979797979798, 0x3FC8181818181818,
    0x3FC8989898989899, 0x3FC9191919191919, 0x3FC999999999999A, 0x3FCA1A1A1A1A1A1A,
    0x3FCA9A9A9A9A9A9B, 0x3FCB1B1B1B1B1B1B, 0x3FCB9B9B9B9B9B9C, 0x3FCC1C1C1C1C1C1C,
    0x3FCC9C9C9C9C9C9D, 0x3FCD1D1D1D1D1D1D, 0x3FCD9D9D9D9D9D9E, 0x3FCE1E1E1E1E1E1E,
    0x3FCE9E9E9E9E9E9F, 0x3FCF1F1F1F1F1F1F, 0x3FCF9F9F9F9F9FA0, 0x3FD0101010101010 ]

/-- Levels 65 to 128 of rule R162, binary64. -/
def levelTable64Part2 : List Nat :=
  [
    0x3FD0505050505050, 0x3FD0909090909091, 0x3FD0D0D0D0D0D0D1, 0x3FD1111111111111,
    0x3FD1515151515151, 0x3FD1919191919192, 0x3FD1D1D1D1D1D1D2, 0x3FD2121212121212,
    0x3FD2525252525252, 0x3FD2929292929293, 0x3FD2D2D2D2D2D2D3, 0x3FD3131313131313,
    0x3FD3535353535353, 0x3FD3939393939394, 0x3FD3D3D3D3D3D3D4, 0x3FD4141414141414,
    0x3FD4545454545454, 0x3FD4949494949495, 0x3FD4D4D4D4D4D4D5, 0x3FD5151515151515,
    0x3FD5555555555555, 0x3FD5959595959596, 0x3FD5D5D5D5D5D5D6, 0x3FD6161616161616,
    0x3FD6565656565656, 0x3FD6969696969697, 0x3FD6D6D6D6D6D6D7, 0x3FD7171717171717,
    0x3FD7575757575757, 0x3FD7979797979798, 0x3FD7D7D7D7D7D7D8, 0x3FD8181818181818,
    0x3FD8585858585858, 0x3FD8989898989899, 0x3FD8D8D8D8D8D8D9, 0x3FD9191919191919,
    0x3FD9595959595959, 0x3FD999999999999A, 0x3FD9D9D9D9D9D9DA, 0x3FDA1A1A1A1A1A1A,
    0x3FDA5A5A5A5A5A5A, 0x3FDA9A9A9A9A9A9B, 0x3FDADADADADADADB, 0x3FDB1B1B1B1B1B1B,
    0x3FDB5B5B5B5B5B5B, 0x3FDB9B9B9B9B9B9C, 0x3FDBDBDBDBDBDBDC, 0x3FDC1C1C1C1C1C1C,
    0x3FDC5C5C5C5C5C5C, 0x3FDC9C9C9C9C9C9D, 0x3FDCDCDCDCDCDCDD, 0x3FDD1D1D1D1D1D1D,
    0x3FDD5D5D5D5D5D5D, 0x3FDD9D9D9D9D9D9E, 0x3FDDDDDDDDDDDDDE, 0x3FDE1E1E1E1E1E1E,
    0x3FDE5E5E5E5E5E5E, 0x3FDE9E9E9E9E9E9F, 0x3FDEDEDEDEDEDEDF, 0x3FDF1F1F1F1F1F1F,
    0x3FDF5F5F5F5F5F5F, 0x3FDF9F9F9F9F9FA0, 0x3FDFDFDFDFDFDFE0, 0x3FE0101010101010 ]

/-- Levels 129 to 192 of rule R162, binary64. -/
def levelTable64Part3 : List Nat :=
  [
    0x3FE0303030303030, 0x3FE0505050505050, 0x3FE0707070707070, 0x3FE0909090909091,
    0x3FE0B0B0B0B0B0B1, 0x3FE0D0D0D0D0D0D1, 0x3FE0F0F0F0F0F0F1, 0x3FE1111111111111,
    0x3FE1313131313131, 0x3FE1515151515151, 0x3FE1717171717171, 0x3FE1919191919192,
    0x3FE1B1B1B1B1B1B2, 0x3FE1D1D1D1D1D1D2, 0x3FE1F1F1F1F1F1F2, 0x3FE2121212121212,
    0x3FE2323232323232, 0x3FE2525252525252, 0x3FE2727272727272, 0x3FE2929292929293,
    0x3FE2B2B2B2B2B2B3, 0x3FE2D2D2D2D2D2D3, 0x3FE2F2F2F2F2F2F3, 0x3FE3131313131313,
    0x3FE3333333333333, 0x3FE3535353535353, 0x3FE3737373737373, 0x3FE3939393939394,
    0x3FE3B3B3B3B3B3B4, 0x3FE3D3D3D3D3D3D4, 0x3FE3F3F3F3F3F3F4, 0x3FE4141414141414,
    0x3FE4343434343434, 0x3FE4545454545454, 0x3FE4747474747474, 0x3FE4949494949495,
    0x3FE4B4B4B4B4B4B5, 0x3FE4D4D4D4D4D4D5, 0x3FE4F4F4F4F4F4F5, 0x3FE5151515151515,
    0x3FE5353535353535, 0x3FE5555555555555, 0x3FE5757575757575, 0x3FE5959595959596,
    0x3FE5B5B5B5B5B5B6, 0x3FE5D5D5D5D5D5D6, 0x3FE5F5F5F5F5F5F6, 0x3FE6161616161616,
    0x3FE6363636363636, 0x3FE6565656565656, 0x3FE6767676767676, 0x3FE6969696969697,
    0x3FE6B6B6B6B6B6B7, 0x3FE6D6D6D6D6D6D7, 0x3FE6F6F6F6F6F6F7, 0x3FE7171717171717,
    0x3FE7373737373737, 0x3FE7575757575757, 0x3FE7777777777777, 0x3FE7979797979798,
    0x3FE7B7B7B7B7B7B8, 0x3FE7D7D7D7D7D7D8, 0x3FE7F7F7F7F7F7F8, 0x3FE8181818181818 ]

/-- Levels 193 to 255 of rule R162, binary64. -/
def levelTable64Part4 : List Nat :=
  [
    0x3FE8383838383838, 0x3FE8585858585858, 0x3FE8787878787878, 0x3FE8989898989899,
    0x3FE8B8B8B8B8B8B9, 0x3FE8D8D8D8D8D8D9, 0x3FE8F8F8F8F8F8F9, 0x3FE9191919191919,
    0x3FE9393939393939, 0x3FE9595959595959, 0x3FE9797979797979, 0x3FE999999999999A,
    0x3FE9B9B9B9B9B9BA, 0x3FE9D9D9D9D9D9DA, 0x3FE9F9F9F9F9F9FA, 0x3FEA1A1A1A1A1A1A,
    0x3FEA3A3A3A3A3A3A, 0x3FEA5A5A5A5A5A5A, 0x3FEA7A7A7A7A7A7A, 0x3FEA9A9A9A9A9A9B,
    0x3FEABABABABABABB, 0x3FEADADADADADADB, 0x3FEAFAFAFAFAFAFB, 0x3FEB1B1B1B1B1B1B,
    0x3FEB3B3B3B3B3B3B, 0x3FEB5B5B5B5B5B5B, 0x3FEB7B7B7B7B7B7B, 0x3FEB9B9B9B9B9B9C,
    0x3FEBBBBBBBBBBBBC, 0x3FEBDBDBDBDBDBDC, 0x3FEBFBFBFBFBFBFC, 0x3FEC1C1C1C1C1C1C,
    0x3FEC3C3C3C3C3C3C, 0x3FEC5C5C5C5C5C5C, 0x3FEC7C7C7C7C7C7C, 0x3FEC9C9C9C9C9C9D,
    0x3FECBCBCBCBCBCBD, 0x3FECDCDCDCDCDCDD, 0x3FECFCFCFCFCFCFD, 0x3FED1D1D1D1D1D1D,
    0x3FED3D3D3D3D3D3D, 0x3FED5D5D5D5D5D5D, 0x3FED7D7D7D7D7D7D, 0x3FED9D9D9D9D9D9E,
    0x3FEDBDBDBDBDBDBE, 0x3FEDDDDDDDDDDDDE, 0x3FEDFDFDFDFDFDFE, 0x3FEE1E1E1E1E1E1E,
    0x3FEE3E3E3E3E3E3E, 0x3FEE5E5E5E5E5E5E, 0x3FEE7E7E7E7E7E7E, 0x3FEE9E9E9E9E9E9F,
    0x3FEEBEBEBEBEBEBF, 0x3FEEDEDEDEDEDEDF, 0x3FEEFEFEFEFEFEFF, 0x3FEF1F1F1F1F1F1F,
    0x3FEF3F3F3F3F3F3F, 0x3FEF5F5F5F5F5F5F, 0x3FEF7F7F7F7F7F7F, 0x3FEF9F9F9F9F9FA0,
    0x3FEFBFBFBFBFBFC0, 0x3FEFDFDFDFDFDFE0, 0x3FF0000000000000 ]

/-- The levels m_1 to m_255 of rule R162, binary64. -/
def levelTable64 : List Nat :=
  levelTable64Part1 ++ levelTable64Part2 ++ levelTable64Part3 ++ levelTable64Part4

/-- The encodings of the levels as the datapath computes them, m_1 first. -/
def computedLevels (f : Fmt) : List Nat :=
  (List.range 255).map fun k => (enc f (level f (k + 1))).toNat

/-- How many levels lie above the exact k/255 (rule R162, the columns "vs k/255"). -/
def levelsAbove (f : Fmt) : Nat :=
  ((List.range 255).filter fun k => ((k + 1 : Nat) : Rat) / 255 < level f (k + 1)).length

/-- How many levels lie below the exact k/255 (rule R162). -/
def levelsBelow (f : Fmt) : Nat :=
  ((List.range 255).filter fun k => level f (k + 1) < ((k + 1 : Nat) : Rat) / 255).length

end Sys2Proof.Machine
end

