-- ==== Sys2Proof/Machine/Reference.lean ====
section
/-!
DEFINITION. The reference microarchitecture of spec/10_state.md section 5: five stages, one unit a
stage, and a stall that holds every stage while the last one holds an offered beat that is not taken.
It is informative and no part of State (rule R34); it stands here as a second machine, to be compared
with the block that the rules describe, at DEPTH = LATENCY = 5.
-/

namespace Sys2Proof.Machine

/-- The pipeline registers, a stage each; an absent value is a stage that is not valid (section 5). -/
structure RefPipe where
  /-- S1: c. -/
  s1 : Option Rgb
  /-- S2: c and m_raw. -/
  s2 : Option (Rgb × Rat)
  /-- S3: c, k and m. -/
  s3 : Option (Rgb × Nat × Rat)
  /-- S4: c, m and the reciprocal operand of m. -/
  s4 : Option (Rgb × Rat × Rat)
  /-- S5: rgb and m, the output register. -/
  s5 : Option Rgbm
  deriving DecidableEq, Repr

/-- The pipeline with no stage valid. -/
def RefPipe.empty : RefPipe := { s1 := none, s2 := none, s3 := none, s4 := none, s5 := none }

/-- Stage S1 of a beat (rule R120). -/
def refS1 : Instr → Rgb
  | .encode32 r g b => normPixel .binary32 r g b
  | .encode64 r g b => normPixel .binary64 r g b

/-- The peak in the format of the build, with its EPSILON (rule R140). -/
def Build.peakOf (build : Build) (c : Rgb) : Rat :=
  match build.fmt with
  | .binary32 => peak .binary32 build.eps32 c
  | .binary64 => peak .binary64 build.eps64 c

/-- Stage S2 from S1 (rule R140). -/
def refS2 (build : Build) (c : Rgb) : Rgb × Rat := (c, Build.peakOf build c)

/-- Stage S3 from S2 (rule R160). -/
def refS3 (build : Build) (x : Rgb × Rat) : Rgb × Nat × Rat := (x.1, quant build.fmt x.2)

/-- Stage S4 from S3 (rule R180). -/
def refS4 (x : Rgb × Nat × Rat) : Rgb × Rat × Rat := (x.1, x.2.2, recip x.2.2)

/-- Stage S5 from S4 (rules R200, R201 and R203). -/
def refS5 (build : Build) (x : Rgb × Rat × Rat) : Rgbm :=
  { rgb := clampPixel (quotients build.fmt x.1 x.2.2), m := x.2.1 }

/-- The output register packed in the format of the build (rule R203). -/
def packOf (build : Build) (p : Rgbm) : OutData :=
  match build.fmt with
  | .binary32 => .w128 (pack32 p)
  | .binary64 => .w256 (pack64 p)

/-- `out_valid`: the last stage holds a beat. -/
def RefPipe.outValid (r : RefPipe) (rst : Bool) : Bool := !rst && r.s5.isSome

/-- `out_data` while `out_valid` = 1. -/
def RefPipe.outData (r : RefPipe) (build : Build) : Option OutData := r.s5.map (packOf build)

/-- The global stall: the last stage holds a beat that is not taken. -/
def RefPipe.stalled (r : RefPipe) (outReady : Bool) : Bool := r.s5.isSome && !outReady

/-- `in_ready`: every stage moves. -/
def RefPipe.inReady (r : RefPipe) (rst outReady : Bool) : Bool := !rst && !r.stalled outReady

/-- `busy`: some stage is valid (rule R41). -/
def RefPipe.busy (r : RefPipe) (rst : Bool) : Bool :=
  !rst && (r.s1.isSome || r.s2.isSome || r.s3.isSome || r.s4.isSome || r.s5.isSome)

/-- One rising edge of the pipeline. -/
def RefPipe.edge (r : RefPipe) (build : Build) (p : PortsIn) : RefPipe :=
  if p.rst then RefPipe.empty
  else if r.stalled p.outReady then r
  else
    { s1 := if p.inValid then some (refS1 (decode p.inData)) else none
      s2 := r.s1.map (refS2 build)
      s3 := r.s2.map (refS3 build)
      s4 := r.s3.map refS4
      s5 := r.s4.map (refS5 build) }

/-- The pipeline whose stages hold these beats, S1 first. -/
def RefPipe.ofBeats (build : Build) (b1 b2 b3 b4 b5 : Option Instr) : RefPipe :=
  { s1 := b1.map refS1
    s2 := b2.map (refS2 build ∘ refS1)
    s3 := b3.map (refS3 build ∘ refS2 build ∘ refS1)
    s4 := b4.map (refS4 ∘ refS3 build ∘ refS2 build ∘ refS1)
    s5 := b5.map (refS5 build ∘ refS4 ∘ refS3 build ∘ refS2 build ∘ refS1) }

end Sys2Proof.Machine
end

