-- ==== Sys2Proof/Safety.lean ====
section
/-!
DEFINITION. The terms claims are stated in: the invariants of the machine, runs and their fairness
(spec/70_reset_and_hazards.md rule R249), what an output beat must look like (spec/30_encoding.md rule
R86), and how the reference microarchitecture corresponds to the block (spec/10_state.md section 5).
-/

namespace Sys2Proof.Machine

/-- The invariant of the block: its build keeps its bounds; Q holds at most DEPTH entries (rule R38), all
in the build's format, the older the more edges counted, at most one accepted at an edge; and only an
old enough head counts as offered (rule R39). -/
abbrev State.BlockInv (s : State) : Prop :=
  s.build.wf = true ∧ s.q.length ≤ s.build.depth ∧
    (∀ e ∈ s.q, e.beat.fits s.build.fmt = true ∧ 1 ≤ e.age) ∧
    s.q.Pairwise (fun older newer => newer.age < older.age) ∧
    (s.offered = true → s.headOld = true)

/-- The invariant of the host beside the block: a destination for each pixel in flight, output beats of
the build's width, and a memory in canonical form. -/
abbrev State.HostInv (s : State) : Prop :=
  s.host.dests.length = s.q.length ∧ (∀ o ∈ s.outputs, o.fmt = s.build.fmt) ∧
    memWf s.host.mem = true

/-- The input ports in the cycle that starts here. -/
def State.now (s : State) : PortsIn := s.settle.hostPorts

/-- The output ports in the cycle that starts here. -/
def State.seen (s : State) : PortsOut := s.settle.portsOut s.now

/-- `t` can come after `s` while the host is given these further lines: it is the state after one step, with
the lines put behind the host's script and any free choices of the block still to be made. -/
def State.StepsToWith (more : List Line) (s t : State) : Prop :=
  ∃ u, step s = .next u ∧
    t = { u with
      schedule := t.schedule, host := { u.host with script := u.host.script ++ more } }

/-- `t` can come after `s`, whatever the host does next. -/
def State.StepsTo (s t : State) : Prop := ∃ more, s.StepsToWith more t

/-- A run: a state for each cycle, each coming after the one before, under any free choices of the block and
any host. The host's lines may be given to it cycle by cycle, so it may go on for ever: with an endless
stream of beats, or with `out_ready` = 0 in every cycle (rule R249). -/
def IsRun (run : Nat → State) : Prop := ∀ n, (run n).StepsTo (run (n + 1))

/-- A run of the program that stands in the host's script: no line is added (rules R88 and R251). -/
def IsProgramRun (run : Nat → State) : Prop := ∀ n, (run n).StepsToWith [] (run (n + 1))

/-- `rst` = 0 in every cycle from `n` on. -/
def NoResetFrom (run : Nat → State) (n : Nat) : Prop := ∀ m, n ≤ m → (run m).now.rst = false

/-- `out_ready` = 1 in infinitely many cycles from `n` on. -/
def DrainsFrom (run : Nat → State) (n : Nat) : Prop :=
  ∀ k, n ≤ k → ∃ m, k ≤ m ∧ (run m).now.outReady = true

/-- The liveness of the block's free choices (rule R249, its three items). -/
def Fair (run : Nat → State) : Prop :=
  ∀ n, NoResetFrom run n →
    ((run n).q ≠ [] → ∃ m, n ≤ m ∧ (run m).seen.outValid = true) ∧
    (DrainsFrom run n → ∀ k, n ≤ k → ∃ m, k ≤ m ∧ (run m).seen.inReady = true) ∧
    ((∀ m, n ≤ m → (run m).q = []) → ∃ m, n ≤ m ∧ (run m).seen.inReady = true)

/-- The beats accepted in the `k` cycles from `n` on, in order. -/
def acceptedIn (run : Nat → State) (n k : Nat) : List Instr :=
  (List.range k).flatMap fun i => ((run (n + i)).settle.accepted (run (n + i)).now).toList

/-- A line of a program of rule R88 whose beats have this format. -/
def Line.isPlain (f : Fmt) : Line → Bool
  | .send beat none => beat.fmt == f
  | .send _ (some _) => false
  | .pixel _ _ => false
  | .drive _ => false
  | _ => true

/-- The line is a `RESET`. -/
def Line.isReset : Line → Bool
  | .reset _ => true
  | _ => false

/-- The encoding has sign bit 0 and stands for a value in [0, 1] (rules R86 and R103). -/
def InUnit (f : Fmt) (e : Chan f) : Prop :=
  signBit f e = false ∧ ∃ v, val f e = .real v ∧ 0 ≤ v ∧ v ≤ 1

/-- The encoding is one of the 255 levels (rule R162). -/
def IsLevel (f : Fmt) (e : Chan f) : Prop := ∃ k, 1 ≤ k ∧ k ≤ 255 ∧ val f e = .real (level f k)

/-- The encoding classes of an output beat (rule R86). -/
def OutputOk : OutData → Prop
  | .w128 bits =>
    (∀ k, k < 4 → InUnit .binary32 (fieldAt 32 k bits)) ∧ IsLevel .binary32 (fieldAt 32 3 bits)
  | .w256 bits =>
    (∀ k, k < 4 → InUnit .binary64 (fieldAt 64 k bits)) ∧ IsLevel .binary64 (fieldAt 64 3 bits)

/-- A channel at or above RANGE: +infinity or a finite value of at least 6 (rule R123). -/
def Pinned (f : Fmt) (e : Chan f) : Prop :=
  val f e = .inf false ∨ ∃ v, val f e = .real v ∧ Config.range ≤ v

/-- A finite channel in [0, RANGE] (rule R104). -/
def InRange (f : Fmt) (e : Chan f) : Prop := ∃ v, val f e = .real v ∧ 0 ≤ v ∧ v ≤ Config.range

/-- The channel col' of rule R108: the encoding of RN(c * 6) for the normalized c of a channel. -/
def rescaled (f : Fmt) (e : Chan f) : Chan f := enc f (rn f (norm f e * Config.range))

/-- EPSILON of a build in a format is in (0, m_1] (rule R8). -/
def EpsilonOk (f : Fmt) (eps : Chan f) : Prop := 0 < realOf f eps ∧ realOf f eps ≤ level f 1

/-- The pipeline and the block hold the same pixels: Q is what the stages hold, the last stage first, an
entry in stage j has seen at least j edges, and a head that was offered stands in the last stage. -/
def RefMatches (r : RefPipe) (s : State) : Prop :=
  (∀ e ∈ s.q, e.beat.fits s.build.fmt = true) ∧
  ∃ e1 e2 e3 e4 e5 : Option Entry,
    r = RefPipe.ofBeats s.build (e1.map Entry.beat) (e2.map Entry.beat) (e3.map Entry.beat)
      (e4.map Entry.beat) (e5.map Entry.beat) ∧
    s.q = e5.toList ++ (e4.toList ++ (e3.toList ++ (e2.toList ++ e1.toList))) ∧
    (∀ e ∈ e1.toList, 1 ≤ e.age) ∧ (∀ e ∈ e2.toList, 2 ≤ e.age) ∧
    (∀ e ∈ e3.toList, 3 ≤ e.age) ∧ (∀ e ∈ e4.toList, 4 ≤ e.age) ∧
    (∀ e ∈ e5.toList, 5 ≤ e.age) ∧ (s.offered = true → e5.isSome = true)

/-- The block with this choice made for the present cycle. -/
def State.choosing (s : State) (c : Choice) : State := { s with schedule := c :: s.schedule }

end Sys2Proof.Machine
end

