-- ==== Sys2Proof/Certificates/Slice0/Obligations.lean ====
section
/-!
DEFINITION. What is claimed of the block, rule by rule of spec/. A claim about a cycle speaks of every
state, with the free choices of the block (spec/10_state.md rules R39 and R40) part of the state.
-/

open Sys2Proof Sys2Proof.Machine

/-! ### Beats as instructions -/

/-- Rules R80, R84 and R87: every word of the port is an ENCODE, and no bit of it is lost or added. -/
def Obligations.DecodeEncodeAgree : Prop :=
  (∀ i : Instr, decode (encode i) = i) ∧ (∀ d : InData, encode (decode d) = d) ∧
    (∀ d : InData, (decode d).fmt = d.fmt)

/-- Rules R80 and R84, on the numbers the opcode table's rows stand for: the three fields are the three
W-bit digits of the beat, for every beat. -/
def Obligations.EveryBeatIsAnEncode : Prop :=
  (∀ w, w < 2 ^ 96 → decodeTableWord 96 w = some (.encode32 (BitVec.ofNat 32 w)
      (BitVec.ofNat 32 (w / 2 ^ 32)) (BitVec.ofNat 32 (w / 2 ^ 64)))) ∧
    (∀ w, w < 2 ^ 192 → decodeTableWord 192 w = some (.encode64 (BitVec.ofNat 64 w)
      (BitVec.ofNat 64 (w / 2 ^ 64)) (BitVec.ofNat 64 (w / 2 ^ 128))))

/-- Rule R80's own example and spec/95_test_vectors.md E6, in both formats. -/
def Obligations.SpecBeatsDecode : Prop :=
  decode (.w96 0x000000000000000040400000) = .encode32 0x40400000 0 0 ∧
    decode (.w96 0x40400000400000003F800000) = .encode32 0x3F800000 0x40000000 0x40400000 ∧
    decode (.w192 0x400800000000000040000000000000003FF0000000000000) =
      .encode64 0x3FF0000000000000 0x4000000000000000 0x4008000000000000

/-- A cycle in which a beat stands on the input port outside a reset is exec of the ENCODE the beat
decodes to, in the state with the host's current line found; what the step adds is the host's own
bookkeeping. -/
def Obligations.StepRunsTheOfferedBeat : Prop :=
  ∀ s : State, s.settle.hostPorts.inValid = true → s.settle.hostPorts.rst = false →
    step s = withHost (s.settle.nextHost s.settle.hostPorts)
      (exec (decode s.settle.hostPorts.inData) s.settle)

/-- The step after `withFetchWord` runs exactly the instruction decoded from the word. -/
def Obligations.FetchWordRunsTheWord : Prop :=
  ∀ (s : State) (nbits w : Nat) (i : Instr), decodeTableWord nbits w = some i →
    step (s.withFetchWord nbits w) =
      withHost ((s.withFetchWord nbits w).nextHost ((s.withFetchWord nbits w).beatPorts i))
        (exec i (s.withFetchWord nbits w))

/-! ### Reset -/

/-- Rules R240 and R44: in a cycle with `rst` = 1 `in_ready`, `out_valid` and `busy` are 0, its edge empties
Q and transfers nothing, and in the first cycle after it `out_valid` and `busy` are 0. -/
def Obligations.ResetStateAndPorts : Prop :=
  State.reset.q = [] ∧
  ∀ (s : State) (p : PortsIn), p.rst = true →
    (s.portsOut p).inReady = false ∧ (s.portsOut p).outValid = false ∧ (s.portsOut p).busy = false ∧
      ∃ t, s.cycle p = .next t ∧ t.q = [] ∧ t.outputs = s.outputs ∧
        ∀ p' : PortsIn, (t.portsOut p').outValid = false ∧ (t.portsOut p').busy = false

/-- Rule R242: one edge with `rst` = 1, in any state, leaves the block in its reset state, with the build,
the host and the outputs delivered so far untouched; a second such edge has no further effect. -/
def Obligations.ResetEdgeEmptiesTheQueue : Prop :=
  ∀ (s : State) (p : PortsIn), p.rst = true →
    ∃ t, s.cycle p = .next t ∧ t.live = true ∧ t.q = [] ∧ t.offered = false ∧
      t.outputs = s.outputs ∧ t.build = s.build ∧ t.host = s.host ∧
      ∀ p' : PortsIn, p'.rst = true →
        t.cycle p' = .next { t with schedule := t.schedule.tail, draws := t.draws + 1 }

/-- Rule R243 and U4, as log entry 5 reads them: before the first edge with `rst` = 1 a cycle without
reset has no meaning, whatever stands on the ports. -/
def Obligations.NothingRunsBeforeTheFirstReset : Prop :=
  ∀ s : State, s.live = false →
    (∀ p : PortsIn, p.rst = false → s.cycle p = .refused .beforeFirstReset) ∧
      ∀ i : Instr, i.fits s.build.fmt = true → exec i s = .refused .beforeFirstReset

/-! ### A clock edge -/

/-- Rule R38: Q' at an edge with `rst` = 0 and at one with `rst` = 1, and |Q'| <= DEPTH. -/
def Obligations.QueueUpdateAtAnEdge : Prop :=
  ∀ (s : State) (p : PortsIn),
    (s.live = true → p.rst = false →
      ∃ t, s.cycle p = .next t ∧
        t.q =
          (if (s.portsOut p).outValid && p.outReady then s.q.tail else s.q).map
              (fun e => { beat := e.beat, age := e.age + 1 }) ++
            (if p.inValid && (s.portsOut p).inReady then
              [{ beat := decode p.inData, age := 1 }] else []) ∧
        (s.q.length ≤ s.build.depth → t.q.length ≤ s.build.depth)) ∧
    (p.rst = true → ∃ t, s.cycle p = .next t ∧ t.q = [] ∧ t.outputs = s.outputs)

/-- Rules R38 and R39 item 2: a transfer on the output stream takes the head of Q away and hands over
ENCODE of its beat, and nothing else is ever handed over. -/
def Obligations.DeliveryHandsOverEncodeOfTheHead : Prop :=
  ∀ (s t : State) (p : PortsIn), s.cycle p = .next t →
    ((s.portsOut p).outValid && p.outReady) = true ∧
        (∃ e rest, s.q = e :: rest ∧ t.outputs = s.outputs ++ [encodeBeat s.build e.beat] ∧
          ((s.portsOut p).outData = encodeBeat s.build e.beat)) ∨
      ((s.portsOut p).outValid && p.outReady) = false ∧ t.outputs = s.outputs

/-- Rule R39, its five items: only an old enough head is offered, and it is offered with ENCODE of its
beat; an offered beat that is not taken is offered again in the next cycle, unchanged, whatever the
block's free choices there are; else the offer is free; and it does not depend on `out_ready`. -/
def Obligations.OutputOfferFollowsItsRule : Prop :=
  (∀ (s : State) (p : PortsIn), (s.portsOut p).outValid = true →
    p.rst = false ∧ ∃ e rest, s.q = e :: rest ∧ s.build.latency ≤ e.age ∧
      (s.portsOut p).outData = encodeBeat s.build e.beat) ∧
  (∀ s t : State, s.StepsTo t → s.seen.outValid = true → s.now.outReady = false →
    t.now.rst = false → t.seen.outValid = true ∧ t.seen.outData = s.seen.outData) ∧
  (∀ (s : State) (p : PortsIn), p.rst = false → s.headOld = true → s.offered = false →
    ∀ v : Bool, ∃ c : Choice, ((s.choosing c).portsOut p).outValid = v) ∧
  ∀ (s : State) (p : PortsIn) (v : Bool),
    (s.portsOut { p with outReady := v }).outValid = (s.portsOut p).outValid ∧
      (s.portsOut { p with outReady := v }).outData = (s.portsOut p).outData

/-- Rule R40: `in_ready` is 1 only where Q has room or its head is taken in the same cycle; there it is
free, whatever the offer is; and the data of the beats in Q reach it through nothing but `out_valid`. -/
def Obligations.InReadyKeepsItsLimit : Prop :=
  (∀ (s : State) (p : PortsIn), (s.portsOut p).inReady = true →
    p.rst = false ∧ (s.q.length < s.build.depth ∨
      (s.q.length = s.build.depth ∧ (s.portsOut p).outValid = true ∧ p.outReady = true))) ∧
  (∀ (s : State) (p : PortsIn), p.rst = false →
    (s.q.length < s.build.depth ∨
      (s.q.length = s.build.depth ∧ (s.portsOut p).outValid = true ∧ p.outReady = true)) →
    ∀ v : Bool, ∃ c : Choice,
      ((s.choosing c).portsOut p).outValid = (s.portsOut p).outValid ∧
        ((s.choosing c).portsOut p).inReady = v) ∧
  ∀ (s s' : State) (p p' : PortsIn), s.build = s'.build → s.schedule = s'.schedule →
    s.draws = s'.draws → s.q.length = s'.q.length →
    (s.portsOut p).outValid = (s'.portsOut p').outValid →
    p.rst = p'.rst → p.outReady = p'.outReady → (s.portsOut p).inReady = (s'.portsOut p').inReady

/-- Rule R247: which output may depend on which input in the same cycle. -/
def Obligations.PortsIgnoreWhatTheyMust : Prop :=
  ∀ (s : State) (p p' : PortsIn), p.rst = p'.rst →
    (s.portsOut p).outValid = (s.portsOut p').outValid ∧
    (s.portsOut p).outData = (s.portsOut p').outData ∧
    (s.portsOut p).busy = (s.portsOut p').busy ∧
    (p.outReady = p'.outReady → (s.portsOut p).inReady = (s.portsOut p').inReady)

/-- Rule R41. -/
def Obligations.BusyExactlyWhenInFlight : Prop :=
  ∀ (s : State) (p : PortsIn), (s.portsOut p).busy = true ↔ p.rst = false ∧ s.q ≠ []

/-! ### ENCODE on the input port -/

/-- Rules R38 and R40, the binary32 row: offered in a cycle with `in_ready` = 1 the beat enters Q last,
with age 1, and its result is the ENCODE of its three channels. -/
def Obligations.Encode32Accepted : Prop :=
  ∀ (s : State) (r g b : BitVec 32), s.live = true → s.build.fmt = .binary32 →
    s.inReady false s.hostOutReady = true →
    ∃ t, exec (.encode32 r g b) s = .next t ∧
      t.q = (if s.outValid false && s.hostOutReady then s.q.tail else s.q).map Entry.older ++
        [{ beat := .encode32 r g b, age := 1 }] ∧
      (t.q.getLast?.map (Entry.result t.build)) =
        some (.w128 (pack32 (encodeValues .binary32 s.build.eps32 r g b)))

/-- Rules R38 and R40, the binary64 row. -/
def Obligations.Encode64Accepted : Prop :=
  ∀ (s : State) (r g b : BitVec 64), s.live = true → s.build.fmt = .binary64 →
    s.inReady false s.hostOutReady = true →
    ∃ t, exec (.encode64 r g b) s = .next t ∧
      t.q = (if s.outValid false && s.hostOutReady then s.q.tail else s.q).map Entry.older ++
        [{ beat := .encode64 r g b, age := 1 }] ∧
      (t.q.getLast?.map (Entry.result t.build)) =
        some (.w256 (pack64 (encodeValues .binary64 s.build.eps64 r g b)))

/-- Rules R38 and R40: a beat offered while `in_ready` = 0 waits, and nothing of it enters Q. -/
def Obligations.EncodeWaitsWhileNotReady : Prop :=
  ∀ (s : State) (i : Instr), s.live = true → i.fits s.build.fmt = true →
    s.inReady false s.hostOutReady = false →
    ∃ t, exec i s = .next t ∧
      t.q = (if s.outValid false && s.hostOutReady then s.q.tail else s.q).map Entry.older

/-- Rule R87, as log entry 6 reads it: a beat of the other format is no beat of this build. -/
def Obligations.BeatOfTheOtherFormatIsRefused : Prop :=
  ∀ (s : State) (i : Instr), i.fmt ≠ s.build.fmt → exec i s = .refused (.notThisBuild i.fmt)

/-- The frame of ENCODE, in both formats: the entries already in Q keep their beats and their order, the
outputs already delivered stand, and the build, the host and every byte of its memory are untouched. -/
def Obligations.EncodeLeavesTheRestUnchanged : Prop :=
  ∀ (s t : State) (i : Instr), exec i s = .next t →
    t.build = s.build ∧ t.live = s.live ∧ t.host = s.host ∧
      (∀ a, readByte t.host.mem a = readByte s.host.mem a) ∧
      t.schedule = s.schedule.tail ∧ t.draws = s.draws + 1 ∧
      s.outputs <+: t.outputs ∧
      (if s.outValid false && s.hostOutReady then s.q.tail else s.q).map Entry.beat <+:
        t.q.map Entry.beat

/-! ### Invariants -/

/-- The invariants hold in the reset state. -/
def Obligations.ResetMeetsTheInvariants : Prop :=
  State.reset.BlockInv ∧ State.reset.HostInv

/-- ENCODE keeps the invariant of the block. -/
def Obligations.EncodeKeepsTheBlockInvariant : Prop :=
  ∀ (s t : State) (i : Instr), s.BlockInv → exec i s = .next t → t.BlockInv

/-- Every step keeps the invariants: at most DEPTH pixels in flight (rule R38), each older than the next,
all in the build's format, and a destination for each. -/
def Obligations.StepKeepsTheInvariants : Prop :=
  ∀ s t : State, s.BlockInv → s.HostInv → step s = .next t → t.BlockInv ∧ t.HostInv

/-! ### Streams -/

/-- As the spec derives in rule R63: while no reset comes, what has been delivered and what is still in Q is, in order, ENCODE
of what was there before and of every beat accepted since. -/
def Obligations.StreamKeepsOrder : Prop :=
  ∀ (run : Nat → State) (n k : Nat), IsRun run → (∀ i, i < k → (run (n + i)).now.rst = false) →
    (run (n + k)).outputs ++ (run (n + k)).q.map (Entry.result (run n).build) =
      (run n).outputs ++ ((run n).q.map (Entry.result (run n).build) ++
        (acceptedIn run n k).map (encodeBeat (run n).build))

/-- Rule R241: after a reset the output stream is ENCODE of the first i pixels sent before it, for some i,
followed by ENCODE of those sent after it, in order; and the reset does not reach the host's buffers. -/
def Obligations.ResetDiscardsWhatIsInFlight : Prop :=
  ∀ (run : Nat → State) (n k : Nat), IsRun run → (run 0).q = [] → (run 0).outputs = [] →
    (∀ i, i < n → (run i).now.rst = false) → (run n).now.rst = true →
    (∀ i, i < k → (run (n + 1 + i)).now.rst = false) →
    (run (n + 1)).host.mem = (run n).host.mem ∧
    ∃ i, i ≤ (acceptedIn run 0 n).length ∧
      (run n).outputs = ((acceptedIn run 0 n).take i).map (encodeBeat (run 0).build) ∧
      (run (n + 1 + k)).outputs ++ (run (n + 1 + k)).q.map (Entry.result (run 0).build) =
        ((acceptedIn run 0 n).take i ++ acceptedIn run (n + 1) k).map (encodeBeat (run 0).build)

/-- Rules R248 and R10: a pixel accepted at edge n is offered no earlier than cycle n + LATENCY. In a run
without reset the beat offered in cycle m is that pixel's if all before it have been delivered. -/
def Obligations.NoResultBeforeLatency : Prop :=
  ∀ (run : Nat → State) (n m : Nat), IsRun run → n ≤ m →
    (∀ i, n ≤ i → i < m → (run i).now.rst = false) →
    (run n).settle.accepts (run n).now = true → (run m).seen.outValid = true →
    (run m).outputs.length = (run n).outputs.length + (run n).q.length →
    n + (run n).build.latency ≤ m

/-- Rule R249 item 2, derived from its item 1: in a fair run whose host keeps taking, every entry of Q is
delivered. -/
def Obligations.FairRunDeliversEveryEntry : Prop :=
  ∀ (run : Nat → State) (n : Nat), IsRun run → Fair run → NoResetFrom run n → DrainsFrom run n →
    ∃ m, n ≤ m ∧
      (run n).outputs ++ (run n).q.map (Entry.result (run n).build) <+: (run m).outputs

/-- As the spec derives in rule R251: a program whose last line is DRAIN and that has no RESET after its first ENCODE comes to
its end in every fair run, with ENCODE of every ENCODE line, in program order, as its output list. -/
def Obligations.DrainingProgramOutputsItsEncodes : Prop :=
  ∀ (run : Nat → State) (before after : List Line), IsProgramRun run → Fair run →
    (run 0).build.wf = true → (run 0).live = true → (run 0).q = [] → (run 0).outputs = [] →
    (run 0).host.script = before ++ (after ++ [.drain]) →
    (∀ l ∈ before ++ after, l.isPlain (run 0).build.fmt = true) →
    scriptBeats before = [] → (∀ l ∈ after, l.isReset = false) →
    ∃ n, (run n).finished = true ∧ (run n).q = [] ∧
      (run n).outputs = (scriptBeats after).map fun d => encodeBeat (run 0).build (decode d)

/-- Rule R249, which blocks meet it. A block that offers and accepts whenever it may does, with every host:
the fairness that other claims assume is what a plain realization has. And a fair block may hold
`in_ready` = 0 for ever while Q is not empty and `out_ready` stays 0. -/
def Obligations.EagerBlockIsFair : Prop :=
  (∀ run : Nat → State, IsRun run → (run 0).BlockInv →
    (∀ n, (run n).choice = { offer := true, readyHeld := true, readyTaken := true }) → Fair run) ∧
  ∃ run : Nat → State, IsRun run ∧ (run 0).BlockInv ∧ Fair run ∧ NoResetFrom run 0 ∧
    ∀ n, (run n).q ≠ [] ∧ (run n).q.length < (run n).build.depth ∧
      (run n).now.inValid = true ∧ (run n).now.outReady = false ∧ (run n).seen.inReady = false

/-- spec/10_state.md section 5: in every cycle, on any ports, the five-stage pipeline shows the ports the
rules allow the block at DEPTH = LATENCY = 5 under some free choice, and the two stay matched. -/
def Obligations.ReferencePipelineRefinesTheBlock : Prop :=
  RefMatches RefPipe.empty State.reset ∧
  ∀ (r : RefPipe) (s : State) (p : PortsIn), s.build.depth = 5 → s.build.latency = 5 →
    p.inData.fmt = s.build.fmt → RefMatches r s →
    ∃ c : Choice,
      ((s.choosing c).portsOut p).outValid = r.outValid p.rst ∧
      ((s.choosing c).portsOut p).inReady = r.inReady p.rst p.outReady ∧
      ((s.choosing c).portsOut p).busy = r.busy p.rst ∧
      (r.outValid p.rst = true →
        r.outData s.build = some ((s.choosing c).portsOut p).outData) ∧
      RefMatches (r.edge s.build p) ((s.choosing c).edge p)

/-! ### The host -/

/-- Rule R88: an ENCODE line drives its beat until it is accepted, and the next line starts after the
accepting edge. Rule R61, its send half: a pixel line sends the three elements of pixel (y, x) of the input
buffer as one beat, in the same way; that they are read in the first cycle of the line is log entry 14. -/
def Obligations.EncodeLineHoldsUntilAccepted : Prop :=
  (∀ (s t : State) (beat : InData) (dest : Option (Nat × Nat)) (rest : List Line),
    s.host.script = .send beat dest :: rest → step s = .next t →
    s.now.inValid = true ∧ s.now.rst = false ∧ s.now.inData = beat ∧
      (s.now.outReady = true ↔ s.host.hold = 0) ∧
      t.host.script = (if s.seen.inReady then rest else .send beat dest :: rest) ∧
      t.host.dests =
        (if s.seen.outValid && s.now.outReady then s.host.dests.tail else s.host.dests) ++
          (if s.seen.inReady then [dest] else [])) ∧
  ∀ (s t : State) (y x : Nat) (rest : List Line) (element : Nat → Nat),
    s.host.script = .pixel y x :: rest → step s = .next t →
    (∀ ch, element ch = memRead s.host.image.endian s.host.mem
      (elementAddr s.host.image s.build.fmt s.host.image.inBase 3 y x ch) s.build.fmt.bytes) →
    s.now.inValid = true ∧ s.now.rst = false ∧
      (s.now.outReady = true ↔ s.host.hold = 0) ∧
      s.now.inData = readPixel s.host.image s.build.fmt s.host.mem y x ∧
      (s.build.fmt = .binary32 → decode s.now.inData = .encode32 (BitVec.ofNat 32 (element 0))
        (BitVec.ofNat 32 (element 1)) (BitVec.ofNat 32 (element 2))) ∧
      (s.build.fmt = .binary64 → decode s.now.inData = .encode64 (BitVec.ofNat 64 (element 0))
        (BitVec.ofNat 64 (element 1)) (BitVec.ofNat 64 (element 2))) ∧
      t.host.script =
        (if s.seen.inReady then rest else .send s.now.inData (some (y, x)) :: rest) ∧
      t.host.dests =
        (if s.seen.outValid && s.now.outReady then s.host.dests.tail else s.host.dests) ++
          (if s.seen.inReady then [some (y, x)] else [])

/-- Rule R88: what the directives drive, and how the script goes on. `out_ready` is 0 exactly while a
HOLD lasts, and every cycle takes one off it; HOLD itself, and a DRAIN of an empty block, take no cycle. -/
def Obligations.DirectivesDriveThePorts : Prop :=
  ∀ (s t : State) (rest : List Line) (n : Nat), step s = .next t →
    (s.host.script = .idle (n + 1) :: rest → s.now.inValid = false ∧ s.now.rst = false ∧
      (s.now.outReady = true ↔ s.host.hold = 0) ∧
      t.host.script = .idle n :: rest ∧ t.host.hold = s.host.hold - 1) ∧
    (s.host.script = .reset (n + 1) :: rest → s.now.inValid = false ∧ s.now.rst = true ∧
      (s.now.outReady = true ↔ s.host.hold = 0) ∧
      t.host.script = .reset n :: rest ∧ t.host.hold = s.host.hold - 1) ∧
    (s.host.script = .drain :: rest → s.q ≠ [] → s.now.inValid = false ∧ s.now.rst = false ∧
      (s.now.outReady = true ↔ s.host.hold = 0) ∧
      t.host.script = .drain :: rest ∧ t.host.hold = s.host.hold - 1) ∧
    (s.host.script = .drain :: rest → s.q = [] →
      s.settle = { s with host := { s.host with script := rest } }.settle) ∧
    (s.host.script = .hold n :: rest →
      s.settle = { s with host :=
        { s.host with script := rest, hold := max s.host.hold n } }.settle)

/-- Rule R88: what a channel literal denotes, in both formats. A hex pattern is the exact encoding. A decimal
is RN of it: a value up to the greatest finite one; beyond it that one or, from half a unit on, the infinity
of its sign, as log entry 19 reads RN. The others are fixed encodings. -/
def Obligations.ChannelLiterals : Prop :=
  (∀ (f : Fmt) (e : Chan f), (ChanLit.hex e.toNat).denote f = e) ∧
  (∀ (f : Fmt) (v half : Rat), half = pow2 ((f.expMax : Int) - 1 - f.bias - f.fracBits) / 2 →
    (|v| ≤ maxFinite f → val f ((ChanLit.decimal v).denote f) = .real (rn f v)) ∧
    (maxFinite f < v → v < maxFinite f + half →
      val f ((ChanLit.decimal v).denote f) = .real (maxFinite f)) ∧
    (v < -maxFinite f → -(maxFinite f + half) < v →
      val f ((ChanLit.decimal v).denote f) = .real (-maxFinite f)) ∧
    (maxFinite f + half ≤ v → (ChanLit.decimal v).denote f = ChanLit.posInf.denote f) ∧
    (v ≤ -(maxFinite f + half) → (ChanLit.decimal v).denote f = ChanLit.negInf.denote f)) ∧
  ChanLit.qnan.denote .binary32 = 0x7FC00000 ∧ ChanLit.snan.denote .binary32 = 0x7F800001 ∧
    ChanLit.posInf.denote .binary32 = 0x7F800000 ∧ ChanLit.negInf.denote .binary32 = 0xFF800000 ∧
    ChanLit.negZero.denote .binary32 = 0x80000000 ∧
    ChanLit.qnan.denote .binary64 = 0x7FF8000000000000 ∧
    ChanLit.snan.denote .binary64 = 0x7FF0000000000001 ∧
    ChanLit.posInf.denote .binary64 = 0x7FF0000000000000 ∧
    ChanLit.negInf.denote .binary64 = 0xFFF0000000000000 ∧
    ChanLit.negZero.denote .binary64 = 0x8000000000000000

/-- Rule R61: a stored output beat reads back, element by element, at the addresses of the layout. -/
def Obligations.StoredPixelReadsBack : Prop :=
  ∀ (img : Image) (m : List Host.Cell) (out : OutData) (y x ch : Nat), memWf m = true → ch < 4 →
    some (memRead img.endian (storePixel img m out y x)
        (elementAddr img out.fmt img.outBase 4 y x ch) out.fmt.bytes) = (outFields out)[ch]?

/-- As the spec derives in rule R69: with the output over the input at the same base, storing the result of a pixel leaves the
input of every pixel of a smaller index as it was; the result of pixel 0 already overwrites pixel 1. -/
def Obligations.InPlaceOrderOfPixels : Prop :=
  (∀ (img : Image) (m : List Host.Cell) (out : OutData) (y x y' x' : Nat),
    img.outBase = img.inBase → y' * img.width + x' < y * img.width + x →
    readPixel img out.fmt (storePixel img m out y x) y' x' = readPixel img out.fmt m y' x') ∧
  ∃ (img : Image) (m : List Host.Cell) (out : OutData), img.outBase = img.inBase ∧
    readPixel img out.fmt (storePixel img m out 0 0) 0 1 ≠ readPixel img out.fmt m 0 1

/-- Rule R61, its store half: a step that delivers a result with destination (y, x) stores it there, and
writes nothing else: four elements from the address of that pixel's R on, every other byte as before. Any
other step leaves the host's memory alone. That the host stores at the very edge that transfers the result
is the model's choice (log entry 14). -/
def Obligations.StepStoresOnlyTheDeliveredPixel : Prop :=
  ∀ s t : State, step s = .next t →
    match s.settle.delivered s.now, s.host.dests with
    | out :: _, some (y, x) :: _ =>
      t.host.mem = storePixel s.host.image s.host.mem out y x ∧
      ∀ a, (a < elementAddr s.host.image out.fmt s.host.image.outBase 4 y x 0 ∨
          elementAddr s.host.image out.fmt s.host.image.outBase 4 y x 0 + 4 * out.fmt.bytes ≤ a) →
        readByte t.host.mem a = readByte s.host.mem a
    | _, _ => t.host.mem = s.host.mem

/-! ### Numbers -/

/-- Rules R12 and R82: RN(v) is an FMT value, none is nearer to v, and of two equally near ones it is the
one whose least significant significand bit is 0. -/
def Obligations.RoundingIsNearestTiesToEven : Prop :=
  ∀ (f : Fmt) (v : Rat), |v| ≤ maxFinite f →
    ∃ e : Chan f, val f e = .real (rn f v) ∧
      ∀ (e' : Chan f) (x : Rat), val f e' = .real x →
        |v - rn f v| ≤ |v - x| ∧ (x ≠ rn f v → |v - x| = |v - rn f v| → e.toNat % 2 = 0)

/-- Rules R13 and R82: enc gives back every finite encoding but -0, and RN leaves every FMT value alone. -/
def Obligations.EncodingsRoundTrip : Prop :=
  ∀ (f : Fmt) (e : Chan f) (v : Rat), val f e = .real v →
    rn f v = v ∧ (signBit f e = false ∨ v ≠ 0 → enc f v = e)

/-- Rule R143, marked there as general knowledge: non-negative finite encodings are ordered as their values are. -/
def Obligations.EncodingsOrderAsValues : Prop :=
  ∀ (f : Fmt) (e e' : Chan f) (v v' : Rat), val f e = .real v → val f e' = .real v' →
    signBit f e = false → signBit f e' = false → (v ≤ v' ↔ e.toNat ≤ e'.toNat)

/-- Rules R120 to R124: NORM on every class of encoding, by its own steps and by the value of the
channel. -/
def Obligations.NormalizationOfEveryClass : Prop :=
  ∀ (f : Fmt) (e : Chan f),
    (val f e = .nan → norm f e = 0) ∧
    (val f e = .inf true → norm f e = 0) ∧
    (val f e = .inf false → norm f e = 1) ∧
    ∀ v, val f e = .real v →
      (rn f (v / 6) ≤ 0 → norm f e = 0) ∧ (1 < rn f (v / 6) → norm f e = 1) ∧
        (0 < rn f (v / 6) → rn f (v / 6) ≤ 1 → norm f e = rn f (v / 6)) ∧
        (v ≤ 0 → norm f e = 0) ∧ (6 ≤ v → norm f e = 1) ∧
        (0 < v → v < 6 → norm f e = rn f (v / 6))

/-- Rule R126: no flush to zero. A positive channel whose sixth is below the least normal value gives
RN of it, a subnormal or +0, within half a unit of the subnormals; and the rule's examples. -/
def Obligations.UnderflowIsGradual : Prop :=
  (∀ (f : Fmt) (e : Chan f) (v : Rat), val f e = .real v → 0 < v →
    v / 6 < pow2 (f.minExp + f.fracBits) →
    norm f e = rn f (v / 6) ∧ |norm f e - v / 6| ≤ pow2 f.minExp / 2 ∧
      ∃ c : Chan f, signBit f c = false ∧ expField f c = 0 ∧ val f c = .real (norm f e)) ∧
  enc .binary32 (norm .binary32 0x00800000) = 0x00155555 ∧
    enc .binary32 (norm .binary32 0x00000005) = 0x00000001 ∧
    enc .binary32 (norm .binary32 0x00000001) = 0

/-- As the spec derives in rule R127: the result of NORM is +0 or an FMT value in (0, 1]. -/
def Obligations.NormalizedChannelIsInUnit : Prop :=
  ∀ (f : Fmt) (e : Chan f), 0 ≤ norm f e ∧ norm f e ≤ 1 ∧
    ∃ c : Chan f, signBit f c = false ∧ val f c = .real (norm f e)

/-- Rule R140: m_raw is the maximum floored at EPSILON and capped at 1, one of its operands, in
[EPSILON, 1]. As the spec derives in rules R141 and R144, the cap never acts on normalized channels, and
channels below EPSILON give EPSILON. -/
def Obligations.PeakIsTheFlooredMaximum : Prop :=
  (∀ eps a b c : Rat, max3 eps a b c = min (max eps (max a (max b c))) 1) ∧
  ∀ eps a b c : Rat, eps ≤ 1 → a ≤ 1 → b ≤ 1 → c ≤ 1 →
    max3 eps a b c = max eps (max a (max b c)) ∧
      (max3 eps a b c = eps ∨ max3 eps a b c = a ∨ max3 eps a b c = b ∨ max3 eps a b c = c) ∧
      eps ≤ max3 eps a b c ∧ max3 eps a b c ≤ 1 ∧
      (a < eps → b < eps → c < eps → max3 eps a b c = eps)

/-- As the spec derives in rule R161: t is an FMT value in (0, 255], and k = ceil(t) is in 1..255. -/
def Obligations.QuantizerCodeIsOneTo255 : Prop :=
  ∀ (f : Fmt) (e : Chan f) (x : Rat), val f e = .real x → 0 < x → x ≤ 1 →
    (∃ c : Chan f, val f c = .real (scaledPeak f x)) ∧
      0 < scaledPeak f x ∧ scaledPeak f x ≤ 255 ∧
      1 ≤ (quant f x).1 ∧ (quant f x).1 ≤ 255 ∧
      scaledPeak f x ≤ (quant f x).1 ∧ ((quant f x).1 : Rat) < scaledPeak f x + 1

/-- As the spec derives in rule R164: every peak up to m_1 takes the least level. -/
def Obligations.SmallPeaksTakeTheLeastLevel : Prop :=
  ∀ (f : Fmt) (e : Chan f) (x : Rat), val f e = .real x → 0 < x → x ≤ level f 1 →
    0 < scaledPeak f x ∧ scaledPeak f x ≤ 1 ∧ quant f x = (1, level f 1)

/-- As the spec derives in rule R162: the levels of the table, and how many lie above and below k/255. -/
def Obligations.LevelTableIsComputed : Prop :=
  computedLevels .binary32 = levelTable32 ∧ computedLevels .binary64 = levelTable64 ∧
    levelsAbove .binary32 = 254 ∧ levelsBelow .binary32 = 0 ∧
    levelsAbove .binary64 = 111 ∧ levelsBelow .binary64 = 143

/-- As the spec derives in rule R163: in binary32, QUANT gives the least level at or above the peak, for every peak. -/
def Obligations.Binary32QuantizerIsAComparator : Prop :=
  ∀ (e : BitVec 32) (x : Rat), val .binary32 e = .real x → 0 < x → x ≤ 1 →
    1 ≤ (quant .binary32 x).1 ∧ (quant .binary32 x).1 ≤ 255 ∧
      (quant .binary32 x).2 = level .binary32 (quant .binary32 x).1 ∧
      x ≤ (quant .binary32 x).2 ∧
      ∀ j, 1 ≤ j → j < (quant .binary32 x).1 → level .binary32 j < x

/-- As the spec derives in rule R165: in binary64 the same holds for every peak but one, which keeps k = 251 although it lies
one ulp above m_251. -/
def Obligations.Binary64QuantizerHasOneException : Prop :=
  (∀ (e : BitVec 64) (x : Rat), val .binary64 e = .real x → 0 < x → x ≤ 1 →
    e ≠ 0x3FEF7F7F7F7F7F80 →
    x ≤ (quant .binary64 x).2 ∧
      ∀ j, 1 ≤ j → j < (quant .binary64 x).1 → level .binary64 j < x) ∧
  enc .binary64 (level .binary64 251) = 0x3FEF7F7F7F7F7F7F ∧
  scaledPeak .binary64 (realOf .binary64 0x3FEF7F7F7F7F7F80) = 251 ∧
  (quant .binary64 (realOf .binary64 0x3FEF7F7F7F7F7F80)).1 = 251 ∧
  (quant .binary64 (realOf .binary64 0x3FEF7F7F7F7F7F80)).2 <
    realOf .binary64 0x3FEF7F7F7F7F7F80 ∧
  (quant .binary64 (realOf .binary64 0x3FEF7F7F7F7F7F81)).1 = 252

/-- As the spec derives in rule R181: m is one of the levels and at least m_1, so the divisor is never 0. -/
def Obligations.DivisorIsALevel : Prop :=
  ∀ (f : Fmt) (eps r g b : Chan f), EpsilonOk f eps →
    (∃ k, 1 ≤ k ∧ k ≤ 255 ∧ (encodeValues f eps r g b).m = level f k) ∧
      0 < level f 1 ∧ level f 1 ≤ (encodeValues f eps r g b).m

/-- The examples of rules R182 (derived there by evaluation) and R124 where one rounding and two give different bits. -/
def Obligations.QuotientsAreRoundedOnce : Prop :=
  enc .binary32 (scale .binary32 (realOf .binary32 0x3DCCCCCD)
      (recip (realOf .binary32 0x3E088889))) = 0x3F400000 ∧
    enc .binary32 (rn .binary32 (realOf .binary32 0x3DCCCCCD *
      rn .binary32 (1 / realOf .binary32 0x3E088889))) = 0x3F3FFFFF ∧
    enc .binary32 (scale .binary32 (realOf .binary32 0x3CE0E0E1)
      (recip (realOf .binary32 0x3CE0E0E1))) = 0x3F800000 ∧
    enc .binary32 (rn .binary32 (realOf .binary32 0x3CE0E0E1 *
      rn .binary32 (1 / realOf .binary32 0x3CE0E0E1))) = 0x3F7FFFFF ∧
    enc .binary32 (norm .binary32 0x40A00000) = 0x3F555555 ∧
    enc .binary32 (rn .binary32 (5 * rn .binary32 (1 / 6))) = 0x3F555556

/-! ### ENCODE -/

/-- Rule R100, written out in one piece with clamp, max, min and ceil of the reals: the fields of the
input beat, the values of the five steps, and the fields of the output beat. -/
def Obligations.EncodeIsTheFiveSteps : Prop :=
  (∀ (f : Fmt) (eps r g b : Chan f), EpsilonOk f eps →
    ∀ (cr cg cb mRaw m : Rat) (k : Nat),
      cr = norm f r → cg = norm f g → cb = norm f b →
      mRaw = min (max (realOf f eps) (max cr (max cg cb))) 1 →
      (k : Int) = ⌈rn f (mRaw * 255)⌉ → m = rn f ((k : Rat) / 255) →
      encodeValues f eps r g b =
        { rgb := { r := max 0 (min (rn f (cr / m)) 1), g := max 0 (min (rn f (cg / m)) 1),
                   b := max 0 (min (rn f (cb / m)) 1) }, m := m }) ∧
  (∀ (build : Build) (beat : BitVec 96) (v : Rgbm),
    v = encodeValues .binary32 build.eps32
      (beat.extractLsb' 0 32) (beat.extractLsb' 32 32) (beat.extractLsb' 64 32) →
    encodeBeat build (decode (.w96 beat)) =
      .w128 (enc .binary32 v.m ++ (enc .binary32 v.rgb.b ++
        (enc .binary32 v.rgb.g ++ enc .binary32 v.rgb.r)))) ∧
  ∀ (build : Build) (beat : BitVec 192) (v : Rgbm),
    v = encodeValues .binary64 build.eps64
      (beat.extractLsb' 0 64) (beat.extractLsb' 64 64) (beat.extractLsb' 128 64) →
    encodeBeat build (decode (.w192 beat)) =
      .w256 (enc .binary64 v.m ++ (enc .binary64 v.rgb.b ++
        (enc .binary64 v.rgb.g ++ enc .binary64 v.rgb.r)))

/-- Rules R81 and R203: the fields of the output beat, low to high, are enc of rgb.r, rgb.g, rgb.b and m;
each stands for its value exactly; and m is the level QUANT gave. -/
def Obligations.OutputFieldsHoldTheValues : Prop :=
  (∀ (build : Build) (r g b : BitVec 32), build.epsilonOk = true →
    ∃ (v : Rgbm) (out : BitVec 128), v = encodeValues .binary32 build.eps32 r g b ∧
      encodeBeat build (.encode32 r g b) = .w128 out ∧
      v.m = (quant .binary32 (peak .binary32 build.eps32 (normPixel .binary32 r g b))).2 ∧
      out.extractLsb' 0 32 = enc .binary32 v.rgb.r ∧
      out.extractLsb' 32 32 = enc .binary32 v.rgb.g ∧
      out.extractLsb' 64 32 = enc .binary32 v.rgb.b ∧
      out.extractLsb' 96 32 = enc .binary32 v.m ∧
      val .binary32 (enc .binary32 v.rgb.r) = .real v.rgb.r ∧
      val .binary32 (enc .binary32 v.rgb.g) = .real v.rgb.g ∧
      val .binary32 (enc .binary32 v.rgb.b) = .real v.rgb.b ∧
      val .binary32 (enc .binary32 v.m) = .real v.m) ∧
  ∀ (build : Build) (r g b : BitVec 64), build.epsilonOk = true →
    ∃ (v : Rgbm) (out : BitVec 256), v = encodeValues .binary64 build.eps64 r g b ∧
      encodeBeat build (.encode64 r g b) = .w256 out ∧
      v.m = (quant .binary64 (peak .binary64 build.eps64 (normPixel .binary64 r g b))).2 ∧
      out.extractLsb' 0 64 = enc .binary64 v.rgb.r ∧
      out.extractLsb' 64 64 = enc .binary64 v.rgb.g ∧
      out.extractLsb' 128 64 = enc .binary64 v.rgb.b ∧
      out.extractLsb' 192 64 = enc .binary64 v.m ∧
      val .binary64 (enc .binary64 v.rgb.r) = .real v.rgb.r ∧
      val .binary64 (enc .binary64 v.rgb.g) = .real v.rgb.g ∧
      val .binary64 (enc .binary64 v.rgb.b) = .real v.rgb.b ∧
      val .binary64 (enc .binary64 v.m) = .real v.m

/-- As the spec derives in rules R86, R103 and R107: every field of every output beat has sign bit 0 and lies in [0, 1], and M
is one of the 255 levels. -/
def Obligations.EveryOutputFieldIsInUnit : Prop :=
  ∀ (build : Build) (i : Instr), build.wf = true → OutputOk (encodeBeat build i)

/-- As the spec derives in rule R105: raising channels that are at or above RANGE does not change the output beat. -/
def Obligations.ChannelsAboveRangeArePinned : Prop :=
  (∀ (build : Build) (r g b r' g' b' : BitVec 32),
    (r' = r ∨ Pinned .binary32 r ∧ Pinned .binary32 r') →
    (g' = g ∨ Pinned .binary32 g ∧ Pinned .binary32 g') →
    (b' = b ∨ Pinned .binary32 b ∧ Pinned .binary32 b') →
    encodeBeat build (.encode32 r' g' b') = encodeBeat build (.encode32 r g b)) ∧
  (∀ (build : Build) (r g b r' g' b' : BitVec 64),
    (r' = r ∨ Pinned .binary64 r ∧ Pinned .binary64 r') →
    (g' = g ∨ Pinned .binary64 g ∧ Pinned .binary64 g') →
    (b' = b ∨ Pinned .binary64 b ∧ Pinned .binary64 b') →
    encodeBeat build (.encode64 r' g' b') = encodeBeat build (.encode64 r g b))

/-- As the spec derives in rule R106: a pixel whose channels all normalize to 0 gives rgb = (+0, +0, +0) and m = m_1. -/
def Obligations.BlackPixelGivesTheLeastLevel : Prop :=
  (∀ (build : Build) (r g b : BitVec 32), build.wf = true →
    norm .binary32 r = 0 → norm .binary32 g = 0 → norm .binary32 b = 0 →
    encodeBeat build (.encode32 r g b) = .w128 0x3B808081000000000000000000000000) ∧
  (∀ (build : Build) (r g b : BitVec 64), build.wf = true →
    norm .binary64 r = 0 → norm .binary64 g = 0 → norm .binary64 b = 0 →
    encodeBeat build (.encode64 r g b) =
      .w256 0x3F70101010101010000000000000000000000000000000000000000000000000)

/-- As the spec derives in rule R202, binary32: no quotient exceeds 1, so the output clamp never changes a value. -/
def Obligations.ClampNeverActsInBinary32 : Prop :=
  ∀ eps r g b : BitVec 32, EpsilonOk .binary32 eps →
    let d := encodeQuotients .binary32 eps r g b
    d.r ≤ 1 ∧ d.g ≤ 1 ∧ d.b ≤ 1 ∧ clampPixel d = d

/-- As the spec derives in rule R202, binary64: a quotient exceeds 1 exactly for a channel that normalizes to the one value of
rule R165 while it is the peak, and then it is 1 + 2^-52, which the clamp brings back to 1. -/
def Obligations.ClampActsForOneBinary64Peak : Prop :=
  ∀ eps r g b e : BitVec 64, EpsilonOk .binary64 eps → (e = r ∨ e = g ∨ e = b) →
    let mRaw := peak .binary64 eps (normPixel .binary64 r g b)
    let d := scale .binary64 (norm .binary64 e) (recip (quant .binary64 mRaw).2)
    (1 < d ↔ norm .binary64 e = realOf .binary64 0x3FEF7F7F7F7F7F80 ∧
      mRaw = realOf .binary64 0x3FEF7F7F7F7F7F80) ∧
    (1 < d → d = 1 + 1 / 2 ^ 52 ∧ oclamp d = 1)

/-- As the spec derives in rules R102 and R142: EPSILON within its range, DEPTH and LATENCY do not change any output beat. -/
def Obligations.EpsilonIsNotObservable : Prop :=
  ∀ (b b' : Build) (i : Instr), b.epsilonOk = true → b'.epsilonOk = true →
    encodeBeat b i = encodeBeat b' i

/-- As the spec derives in rule R104: the reconstruction bound for pixels in [0, RANGE], in both formats. -/
def Obligations.ReconstructionIsWithinBound : Prop :=
  ∀ (f : Fmt) (eps r g b : Chan f), EpsilonOk f eps → InRange f r → InRange f g → InRange f b →
    let v := encodeValues f eps r g b
    let bound : Rat := match f with | .binary32 => 1 / 2 ^ 23 | .binary64 => 1 / 2 ^ 52
    bound ≤ 1 / 255 ∧ |realOf f r / 6 - v.rgb.r * v.m| < bound ∧
      |realOf f g / 6 - v.rgb.g * v.m| < bound ∧ |realOf f b / 6 - v.rgb.b * v.m| < bound

/-- As the spec derives in rule R108: a pixel in [0, RANGE] and the pixel RN(c * 6) of its normalized c decode to within 2/255
of each other, channel by channel. -/
def Obligations.RescaledPixelDecodesClose : Prop :=
  ∀ (f : Fmt) (eps r g b : Chan f), EpsilonOk f eps → InRange f r → InRange f g → InRange f b →
    let v := encodeValues f eps r g b
    let v' := encodeValues f eps (rescaled f r) (rescaled f g) (rescaled f b)
    |v.rgb.r * v.m - v'.rgb.r * v'.m| ≤ 2 / 255 ∧ |v.rgb.g * v.m - v'.rgb.g * v'.m| ≤ 2 / 255 ∧
      |v.rgb.b * v.m - v'.rgb.b * v'.m| ≤ 2 / 255

/-- spec/95_test_vectors.md section 1: the source's four scenarios, in both formats. -/
def Obligations.SourceScenarios : Prop :=
  encodeBeat Config.thisBuild (.encode32 0x40C00000 0x40C00000 0x40C00000) =
      .w128 0x3F8000003F8000003F8000003F800000 ∧
    encodeBeat Config.thisBuild (.encode32 0x40400000 0 0) =
      .w128 0x3F00808100000000000000003F7EFFFF ∧
    encodeBeat Config.thisBuild (.encode32 0 0 0) = .w128 0x3B808081000000000000000000000000 ∧
    encodeBeat Config.thisBuild (.encode32 0x41400000 0 0) =
      .w128 0x3F80000000000000000000003F800000 ∧
    encodeBeat Config.thisBuild
        (.encode64 0x4018000000000000 0x4018000000000000 0x4018000000000000) =
      .w256 0x3FF00000000000003FF00000000000003FF00000000000003FF0000000000000 ∧
    encodeBeat Config.thisBuild (.encode64 0x4008000000000000 0 0) =
      .w256 0x3FE0101010101010000000000000000000000000000000003FEFE00000000000 ∧
    encodeBeat Config.thisBuild (.encode64 0 0 0) =
      .w256 0x3F70101010101010000000000000000000000000000000000000000000000000 ∧
    encodeBeat Config.thisBuild (.encode64 0x4028000000000000 0 0) =
      .w256 0x3FF0000000000000000000000000000000000000000000003FF0000000000000
end

