-- ==== Sys2Proof/Laws/Float.lean ====
section
/-!
SUPPORT. The numbers of the block: 2^e, the integer logarithm, the nearest integer, and what RN and NORM
do in general.
-/

namespace Sys2Proof.Laws

open Sys2Proof Sys2Proof.Machine

theorem pow2_eq_zpow (e : Int) : pow2 e = (2 : ℚ) ^ e := by
  cases e with
  | ofNat n => simp [pow2]
  | negSucc n => simp [pow2, Rat.mkRat_eq_div, zpow_negSucc]

theorem pow2_pos (e : Int) : 0 < pow2 e := by
  rw [pow2_eq_zpow]; positivity

theorem pow2_add (a b : Int) : pow2 (a + b) = pow2 a * pow2 b := by
  simp only [pow2_eq_zpow, zpow_add₀ (by norm_num : (2 : ℚ) ≠ 0)]

theorem pow2_le {a b : Int} : pow2 a ≤ pow2 b ↔ a ≤ b := by
  simp only [pow2_eq_zpow]; exact zpow_le_zpow_iff_right₀ (by norm_num)

theorem pow2_lt {a b : Int} : pow2 a < pow2 b ↔ a < b := by
  simp only [pow2_eq_zpow]; exact zpow_lt_zpow_iff_right₀ (by norm_num)

/-- The integer logarithm: 2^e is the greatest power of 2 up to |v|. -/
theorem ilog2_spec {v : Rat} (hv : v ≠ 0) : pow2 (ilog2 v) ≤ |v| ∧ |v| < pow2 (ilog2 v + 1) := by
  have hn : v.num.natAbs ≠ 0 := by simpa using hv
  have hd : v.den ≠ 0 := v.den_nz
  have hnum : pow2 (Nat.log2 v.num.natAbs) ≤ (v.num.natAbs : ℚ) ∧
      (v.num.natAbs : ℚ) < pow2 (Nat.log2 v.num.natAbs + 1) := by
    constructor
    · have := Nat.log2_self_le hn
      rw [pow2_eq_zpow]; exact_mod_cast this
    · have := @Nat.lt_log2_self v.num.natAbs
      rw [pow2_eq_zpow]; exact_mod_cast this
  have hden : pow2 (Nat.log2 v.den) ≤ (v.den : ℚ) ∧ (v.den : ℚ) < pow2 (Nat.log2 v.den + 1) := by
    constructor
    · have := Nat.log2_self_le hd
      rw [pow2_eq_zpow]; exact_mod_cast this
    · have := @Nat.lt_log2_self v.den
      rw [pow2_eq_zpow]; exact_mod_cast this
  have habs : |v| * v.den = (v.num.natAbs : ℚ) := by
    have h1 : |v| = (v.num.natAbs : ℚ) / v.den := by
      conv_lhs => rw [← Rat.num_div_den v, abs_div, Nat.abs_cast]
      simp [Nat.cast_natAbs]
    have h2 : (v.den : ℚ) ≠ 0 := by exact_mod_cast hd
    rw [h1, div_mul_cancel₀ _ h2]
  have hdp : (0 : ℚ) < v.den := by exact_mod_cast Nat.pos_of_ne_zero hd
  set a : Int := (Nat.log2 v.num.natAbs : Int) with ha
  set b : Int := (Nat.log2 v.den : Int) with hb
  have hlow : pow2 (a - b - 1) ≤ |v| := by
    by_contra hlt
    have h2 : pow2 (a - b - 1) * v.den < pow2 a := by
      calc pow2 (a - b - 1) * v.den < pow2 (a - b - 1) * pow2 (b + 1) :=
            mul_lt_mul_of_pos_left hden.2 (pow2_pos _)
        _ = pow2 a := by rw [← pow2_add]; congr 1; ring
    have h3 : |v| * v.den < pow2 (a - b - 1) * v.den :=
      mul_lt_mul_of_pos_right (not_le.1 hlt) hdp
    linarith [hnum.1]
  have hhigh : |v| < pow2 (a - b + 1) := by
    by_contra hge
    have h2 : pow2 (a + 1) ≤ pow2 (a - b + 1) * v.den := by
      calc pow2 (a + 1) = pow2 (a - b + 1) * pow2 b := by rw [← pow2_add]; congr 1; ring
        _ ≤ pow2 (a - b + 1) * v.den := mul_le_mul_of_nonneg_left hden.1 (pow2_pos _).le
    have h3 : pow2 (a - b + 1) * v.den ≤ |v| * v.den :=
      mul_le_mul_of_nonneg_right (not_lt.1 hge) hdp.le
    linarith [hnum.2]
  unfold ilog2
  simp only [← ha, ← hb]
  split
  · next h => exact ⟨h, hhigh⟩
  · next h => exact ⟨hlow, by simpa using not_le.1 h⟩

/-- The nearest integer is at most 1/2 away. -/
theorem roundEven_error (q : Rat) : |q - roundEven q| ≤ 1 / 2 := by
  have h1 : (q.floor : ℚ) ≤ q := Int.floor_le q
  have h2 : q < q.floor + 1 := Int.lt_floor_add_one q
  unfold roundEven
  split_ifs <;> push_cast <;> rw [abs_le] <;> constructor <;> linarith

/-- An integer is its own nearest integer. -/
theorem roundEven_int (n : Int) : roundEven n = n := by
  have : (n : ℚ).floor = n := Rat.floor_intCast n
  simp [roundEven, this]

/-- The nearest integer is monotone. -/
theorem roundEven_mono {p q : Rat} (h : p ≤ q) : roundEven p ≤ roundEven q := by
  have hf : p.floor ≤ q.floor := Int.floor_mono h
  have h2 : p < p.floor + 1 := Int.lt_floor_add_one p
  have h3 : (q.floor : ℚ) ≤ q := Int.floor_le q
  rcases hf.eq_or_lt with hf | hf
  · unfold roundEven
    rw [hf]
    split_ifs <;> first | omega | linarith
  · have hp : roundEven p ≤ p.floor + 1 := by unfold roundEven; split_ifs <;> omega
    have hq : q.floor ≤ roundEven q := by unfold roundEven; split_ifs <;> omega
    omega

/-- RN is off by at most half a unit in the last place. -/
theorem rn_error (f : Fmt) (v : Rat) : |v - rn f v| ≤ pow2 (ulpExp f v) / 2 := by
  have hp := pow2_pos (ulpExp f v)
  have h : v - rn f v =
      (v / pow2 (ulpExp f v) - roundEven (v / pow2 (ulpExp f v))) * pow2 (ulpExp f v) := by
    unfold rn; field_simp
  rw [h, abs_mul, abs_of_pos hp]
  have := mul_le_mul_of_nonneg_right (roundEven_error (v / pow2 (ulpExp f v))) hp.le
  linarith

/-- A whole number of its own last-place units is left alone. -/
theorem rn_of_units {f : Fmt} {v : Rat} (n : Int) (h : v = n * pow2 (ulpExp f v)) : rn f v = v := by
  have hp := (pow2_pos (ulpExp f v)).ne'
  have : v / pow2 (ulpExp f v) = n := by rw [div_eq_iff hp]; exact h
  rw [rn, this, roundEven_int]; exact h.symm

@[simp] theorem rn_zero (f : Fmt) : rn f 0 = 0 := by
  have : roundEven 0 = 0 := by simpa using roundEven_int 0
  simp [rn, this]

/-- RN keeps the side of 0. -/
theorem rn_nonneg (f : Fmt) {v : Rat} (h : 0 ≤ v) : 0 ≤ rn f v := by
  have hp := pow2_pos (ulpExp f v)
  have hq : 0 ≤ v / pow2 (ulpExp f v) := div_nonneg h hp.le
  have h0 : roundEven 0 = 0 := by simpa using roundEven_int 0
  have := roundEven_mono hq
  rw [h0] at this
  exact mul_nonneg (by exact_mod_cast this) hp.le

theorem rn_nonpos (f : Fmt) {v : Rat} (h : v ≤ 0) : rn f v ≤ 0 := by
  have hp := pow2_pos (ulpExp f v)
  have hq : v / pow2 (ulpExp f v) ≤ 0 := div_nonpos_of_nonpos_of_nonneg h hp.le
  have h0 : roundEven 0 = 0 := by simpa using roundEven_int 0
  have := roundEven_mono hq
  rw [h0] at this
  exact mul_nonpos_of_nonpos_of_nonneg (by exact_mod_cast this) hp.le

/-- The unit in the last place grows with the value. -/
theorem ulpExp_mono (f : Fmt) {u v : Rat} (hu : 0 < u) (h : u ≤ v) : ulpExp f u ≤ ulpExp f v := by
  have h1 := (ilog2_spec hu.ne').1
  have h2 := (ilog2_spec (hu.trans_le h).ne').2
  rw [abs_of_pos hu] at h1
  rw [abs_of_pos (hu.trans_le h)] at h2
  have : ilog2 u < ilog2 v + 1 := pow2_lt.1 (h1.trans_lt (h.trans_lt h2))
  unfold ulpExp
  omega

/-- RN does not reach past the next power of 2 above a value. -/
theorem rn_le_pow2 (f : Fmt) {v : Rat} {e : Int} (he : ulpExp f v ≤ e)
    (h : v ≤ pow2 e) : rn f v ≤ pow2 e := by
  have hp := pow2_pos (ulpExp f v)
  obtain ⟨n, hn⟩ := Int.eq_ofNat_of_zero_le (sub_nonneg.2 he)
  have hsplit : pow2 e = ((2 ^ n : Int) : ℚ) * pow2 (ulpExp f v) := by
    have : e = (e - ulpExp f v) + ulpExp f v := by ring
    rw [this, pow2_add, hn]; simp [pow2]
  have hq : v / pow2 (ulpExp f v) ≤ ((2 ^ n : Int) : ℚ) := by
    rw [div_le_iff₀ hp, ← hsplit]; exact h
  have := roundEven_mono hq
  rw [roundEven_int] at this
  rw [rn, hsplit]
  exact mul_le_mul_of_nonneg_right (by exact_mod_cast this) hp.le

/-- RN does not fall below a power of 2 at or below a value. -/
theorem le_rn_pow2 (f : Fmt) {v : Rat} {e : Int} (he : ulpExp f v ≤ e)
    (h : pow2 e ≤ v) : pow2 e ≤ rn f v := by
  have hp := pow2_pos (ulpExp f v)
  obtain ⟨n, hn⟩ := Int.eq_ofNat_of_zero_le (sub_nonneg.2 he)
  have hsplit : pow2 e = ((2 ^ n : Int) : ℚ) * pow2 (ulpExp f v) := by
    have : e = (e - ulpExp f v) + ulpExp f v := by ring
    rw [this, pow2_add, hn]; simp [pow2]
  have hq : ((2 ^ n : Int) : ℚ) ≤ v / pow2 (ulpExp f v) := by
    rw [le_div_iff₀ hp, ← hsplit]; exact h
  have := roundEven_mono hq
  rw [roundEven_int] at this
  rw [rn, hsplit]
  exact mul_le_mul_of_nonneg_right (by exact_mod_cast this) hp.le

/-- RN is monotone on the values of this block, which are not negative. -/
theorem rn_mono (f : Fmt) {u v : Rat} (hu : 0 ≤ u) (h : u ≤ v) : rn f u ≤ rn f v := by
  rcases hu.eq_or_lt with rfl | hu
  · rw [rn_zero]; exact rn_nonneg f h
  have hv := hu.trans_le h
  rcases (ulpExp_mono f hu h).eq_or_lt with he | he
  · have hp := pow2_pos (ulpExp f u)
    unfold rn
    rw [← he]
    refine mul_le_mul_of_nonneg_right ?_ hp.le
    exact_mod_cast roundEven_mono (div_le_div_of_nonneg_right h hp.le)
  · have hmin : f.minExp ≤ ulpExp f u := le_max_left _ _
    have hlog : ulpExp f v = ilog2 v - f.fracBits := by
      unfold ulpExp at he hmin ⊢; omega
    have hu2 := (ilog2_spec hu.ne').2
    rw [abs_of_pos hu] at hu2
    have hv1 := (ilog2_spec hv.ne').1
    rw [abs_of_pos hv] at hv1
    have hlt : ilog2 u < ilog2 v := by
      have : ilog2 u - f.fracBits ≤ ulpExp f u := le_max_right _ _
      omega
    have hle : u ≤ pow2 (ilog2 v) := hu2.le.trans (pow2_le.2 (by omega))
    exact (rn_le_pow2 f (by omega) hle).trans (le_rn_pow2 f (by omega) hv1)

/-! ### Units of the datapath -/

theorem maxOf_eq_max (a b : Rat) : maxOf a b = max a b := by
  unfold maxOf; split
  · next h => exact (max_eq_right h).symm
  · next h => exact (max_eq_left (le_of_not_ge h)).symm

theorem oclamp_nonneg (d : Rat) : 0 ≤ oclamp d := by
  unfold oclamp; split_ifs <;> linarith

theorem oclamp_le_one (d : Rat) : oclamp d ≤ 1 := by
  unfold oclamp; split_ifs <;> linarith

theorem recip_eq (m : Rat) : recip m = m⁻¹ := one_div m

/-- SCALE is one rounding of the exact quotient (rule R200). -/
theorem scale_recip (f : Fmt) (c m : Rat) : scale f c (recip m) = rn f (c / m) := by
  rw [scale, recip_eq, div_eq_mul_inv]

end Sys2Proof.Laws
end

