-- ==== Sys2Proof/Laws/Memory.lean ====
section
/-!
SUPPORT. Every operation on the host's memory keeps its canonical form, and a byte read after a byte
written.
-/

namespace Sys2Proof.Laws

open Sys2Proof.Machine

/-- Cells that lie above a bound lie above a smaller one. -/
theorem cellsFrom_mono {lo lo' : Nat} (h : lo ≤ lo') {m : List Host.Cell}
    (hm : cellsFrom lo' m = true) : cellsFrom lo m = true := by
  cases m with
  | nil => rfl
  | cons c m =>
    simp only [cellsFrom, Bool.and_eq_true, decide_eq_true_eq] at hm ⊢
    exact ⟨⟨h.trans hm.1.1, hm.1.2⟩, hm.2⟩

theorem cellsFrom_consCell {lo addr : Nat} {v : BitVec 8} {m : List Host.Cell} (h : lo ≤ addr)
    (hm : cellsFrom (addr + 1) m = true) : cellsFrom lo (consCell addr v m) = true := by
  unfold consCell
  split
  · exact cellsFrom_mono (by omega) hm
  · next hv => simp [cellsFrom, h, hv, hm]

theorem cellsFrom_writeByte {lo addr : Nat} {v : BitVec 8} {m : List Host.Cell} (h : lo ≤ addr)
    (hm : cellsFrom lo m = true) : cellsFrom lo (writeByte m addr v) = true := by
  induction m generalizing lo with
  | nil => exact cellsFrom_consCell h rfl
  | cons c m ih =>
    obtain ⟨a, b⟩ := c
    simp only [cellsFrom, Bool.and_eq_true, decide_eq_true_eq, bne_iff_ne, ne_eq] at hm
    obtain ⟨⟨hlo, hb⟩, hm⟩ := hm
    simp only [writeByte]
    split
    · next hlt => exact cellsFrom_consCell h (by simp [cellsFrom, hb, hm]; omega)
    split
    · next heq => exact cellsFrom_consCell h (heq ▸ hm)
    · next h1 h2 =>
      simp only [cellsFrom, Bool.and_eq_true, decide_eq_true_eq, bne_iff_ne, ne_eq]
      exact ⟨⟨hlo, hb⟩, ih (by omega) hm⟩

/-- Writing a byte keeps the canonical form. -/
theorem memWf_writeByte {m : List Host.Cell} (h : memWf m = true) (addr : Nat) (v : BitVec 8) :
    memWf (writeByte m addr v) = true :=
  cellsFrom_writeByte (Nat.zero_le _) h

/-- Writing bytes keeps the canonical form. -/
theorem memWf_writeBytes {m : List Host.Cell} (h : memWf m = true) (addr : Nat)
    (bs : List (BitVec 8)) : memWf (writeBytes m addr bs) = true := by
  induction bs generalizing m addr with
  | nil => exact h
  | cons b bs ih => exact ih (memWf_writeByte h addr b) (addr + 1)

/-- MemWrite keeps the canonical form. -/
theorem memWf_memWrite {m : List Host.Cell} (h : memWf m = true) (e : Endian) (addr n v : Nat) :
    memWf (memWrite e m addr n v) = true :=
  memWf_writeBytes h _ _

theorem memWf_storeFields {m : List Host.Cell} (h : memWf m = true) (img : Image) (f : Fmt)
    (y x ch : Nat) (vs : List Nat) : memWf (storeFields img f y x vs ch m) = true := by
  induction vs generalizing m ch with
  | nil => exact h
  | cons v vs ih => exact ih (memWf_memWrite h _ _ _ _) (ch + 1)

/-- Storing an output beat keeps the canonical form. -/
theorem memWf_storePixel {m : List Host.Cell} (h : memWf m = true) (img : Image) (out : OutData)
    (y x : Nat) : memWf (storePixel img m out y x) = true :=
  memWf_storeFields h _ _ _ _ _ _

theorem readByte_consCell (addr : Nat) (v : BitVec 8) (m : List Host.Cell) (a : Nat)
    (h : a = addr → v = unlistedByte → readByte m a = unlistedByte) :
    readByte (consCell addr v m) a = if a = addr then v else readByte m a := by
  by_cases hv : v = unlistedByte
  · rw [consCell, if_pos hv]
    split
    · next ha => rw [h ha hv, hv]
    · rfl
  · rw [consCell, if_neg hv, readByte]
    exact if_congr eq_comm rfl rfl

/-- A byte below every cell is unlisted. -/
theorem readByte_below {lo a : Nat} {m : List Host.Cell} (hm : cellsFrom lo m = true)
    (h : a < lo) : readByte m a = unlistedByte := by
  induction m generalizing lo with
  | nil => rfl
  | cons c m ih =>
    obtain ⟨a', b⟩ := c
    simp only [cellsFrom, Bool.and_eq_true, decide_eq_true_eq] at hm
    rw [readByte, if_neg (by omega)]
    exact ih hm.2 (by omega)

theorem readByte_writeByte_from {lo : Nat} {m : List Host.Cell} (hm : cellsFrom lo m = true)
    (addr : Nat) (v : BitVec 8) (a : Nat) :
    readByte (writeByte m addr v) a = if a = addr then v else readByte m a := by
  induction m generalizing lo with
  | nil => exact readByte_consCell _ _ _ _ fun _ _ => rfl
  | cons c m ih =>
    obtain ⟨a', b⟩ := c
    have hm0 := hm
    simp only [cellsFrom, Bool.and_eq_true, decide_eq_true_eq] at hm
    simp only [writeByte]
    split
    · next hlt =>
      refine readByte_consCell _ _ _ _ fun ha _ => ?_
      rw [readByte, if_neg (by omega)]
      exact readByte_below hm.2 (by omega)
    split
    · next heq =>
      subst heq
      rw [readByte_consCell _ _ _ _ fun ha _ => readByte_below hm.2 (by omega)]
      by_cases ha : a = addr
      · rw [if_pos ha, if_pos ha]
      · rw [if_neg ha, if_neg ha, readByte, if_neg (Ne.symm ha)]
    · next h1 h2 =>
      rw [readByte, ih hm.2, readByte]
      by_cases ha : a = a'
      · rw [if_pos ha.symm, if_neg (by omega), if_pos ha.symm]
      · rw [if_neg (Ne.symm ha), if_neg (Ne.symm ha)]

/-- A byte read after a byte written, in a memory in canonical form. -/
theorem readByte_writeByte {m : List Host.Cell} (h : memWf m = true) (addr : Nat) (v : BitVec 8)
    (a : Nat) : readByte (writeByte m addr v) a = if a = addr then v else readByte m a :=
  readByte_writeByte_from h addr v a

/-- Another byte reads as before, in any memory. -/
theorem readByte_writeByte_ne {addr a : Nat} (h : a ≠ addr) (m : List Host.Cell) (v : BitVec 8) :
    readByte (writeByte m addr v) a = readByte m a := by
  have cons : ∀ m', readByte (consCell addr v m') a = readByte m' a := by
    intro m'
    unfold consCell
    split
    · rfl
    · rw [readByte, if_neg (Ne.symm h)]
  induction m with
  | nil => exact cons []
  | cons c m ih =>
    obtain ⟨a', b⟩ := c
    simp only [writeByte]
    split
    · exact cons _
    split
    · next heq => rw [cons, readByte, if_neg (by omega)]
    · rw [readByte, readByte, ih]

end Sys2Proof.Laws
end

