-- ==== Sys2Proof/Laws/State.lean ====
section
/-!
SUPPORT. What each update of the state does to each field, true by rfl, and the values of the reset state.
-/

namespace Sys2Proof.Laws

open Sys2Proof.Machine

@[simp] theorem older_beat (e : Entry) : e.older.beat = e.beat := rfl
@[simp] theorem older_age (e : Entry) : e.older.age = e.age + 1 := rfl

@[simp] theorem spend_build (s : State) : s.spend.build = s.build := rfl
@[simp] theorem spend_live (s : State) : s.spend.live = s.live := rfl
@[simp] theorem spend_q (s : State) : s.spend.q = s.q := rfl
@[simp] theorem spend_offered (s : State) : s.spend.offered = s.offered := rfl
@[simp] theorem spend_schedule (s : State) : s.spend.schedule = s.schedule.tail := rfl
@[simp] theorem spend_draws (s : State) : s.spend.draws = s.draws + 1 := rfl
@[simp] theorem spend_outputs (s : State) : s.spend.outputs = s.outputs := rfl
@[simp] theorem spend_host (s : State) : s.spend.host = s.host := rfl

@[simp] theorem resetEdge_build (s : State) : s.resetEdge.build = s.build := rfl
@[simp] theorem resetEdge_live (s : State) : s.resetEdge.live = true := rfl
@[simp] theorem resetEdge_q (s : State) : s.resetEdge.q = [] := rfl
@[simp] theorem resetEdge_offered (s : State) : s.resetEdge.offered = false := rfl
@[simp] theorem resetEdge_schedule (s : State) : s.resetEdge.schedule = s.schedule.tail := rfl
@[simp] theorem resetEdge_draws (s : State) : s.resetEdge.draws = s.draws + 1 := rfl
@[simp] theorem resetEdge_outputs (s : State) : s.resetEdge.outputs = s.outputs := rfl
@[simp] theorem resetEdge_host (s : State) : s.resetEdge.host = s.host := rfl

@[simp] theorem transferEdge_build (s : State) (p : PortsIn) :
    (s.transferEdge p).build = s.build := rfl
@[simp] theorem transferEdge_live (s : State) (p : PortsIn) :
    (s.transferEdge p).live = s.live := rfl
@[simp] theorem transferEdge_q (s : State) (p : PortsIn) :
    (s.transferEdge p).q = nextQueue s.q (s.delivers p) (s.accepted p) := rfl
@[simp] theorem transferEdge_offered (s : State) (p : PortsIn) :
    (s.transferEdge p).offered = (s.outValid p.rst && !p.outReady) := rfl
@[simp] theorem transferEdge_schedule (s : State) (p : PortsIn) :
    (s.transferEdge p).schedule = s.schedule.tail := rfl
@[simp] theorem transferEdge_draws (s : State) (p : PortsIn) :
    (s.transferEdge p).draws = s.draws + 1 := rfl
@[simp] theorem transferEdge_outputs (s : State) (p : PortsIn) :
    (s.transferEdge p).outputs = s.outputs ++ s.delivered p := rfl
@[simp] theorem transferEdge_host (s : State) (p : PortsIn) :
    (s.transferEdge p).host = s.host := rfl

@[simp] theorem settle_build (s : State) : s.settle.build = s.build := rfl
@[simp] theorem settle_live (s : State) : s.settle.live = s.live := rfl
@[simp] theorem settle_q (s : State) : s.settle.q = s.q := rfl
@[simp] theorem settle_offered (s : State) : s.settle.offered = s.offered := rfl
@[simp] theorem settle_schedule (s : State) : s.settle.schedule = s.schedule := rfl
@[simp] theorem settle_draws (s : State) : s.settle.draws = s.draws := rfl
@[simp] theorem settle_outputs (s : State) : s.settle.outputs = s.outputs := rfl
@[simp] theorem settle_image (s : State) : s.settle.host.image = s.host.image := rfl
@[simp] theorem settle_mem (s : State) : s.settle.host.mem = s.host.mem := rfl
@[simp] theorem settle_dests (s : State) : s.settle.host.dests = s.host.dests := rfl

@[simp] theorem nextHost_script (s : State) (p : PortsIn) :
    (s.nextHost p).script = nextScript (s.accepts p) s.host.script := rfl
@[simp] theorem nextHost_hold (s : State) (p : PortsIn) :
    (s.nextHost p).hold = s.host.hold - 1 := rfl
@[simp] theorem nextHost_dests (s : State) (p : PortsIn) :
    (s.nextHost p).dests = s.nextDests p := rfl
@[simp] theorem nextHost_image (s : State) (p : PortsIn) :
    (s.nextHost p).image = s.host.image := rfl
@[simp] theorem nextHost_mem (s : State) (p : PortsIn) :
    (s.nextHost p).mem = s.nextMem p := rfl

@[simp] theorem load_build (s : State) (ls : List ProgramLine) (n : Nat) :
    (s.load ls n).build = s.build := rfl
@[simp] theorem load_live (s : State) (ls : List ProgramLine) (n : Nat) :
    (s.load ls n).live = s.live := rfl
@[simp] theorem load_q (s : State) (ls : List ProgramLine) (n : Nat) :
    (s.load ls n).q = s.q := rfl
@[simp] theorem load_outputs (s : State) (ls : List ProgramLine) (n : Nat) :
    (s.load ls n).outputs = s.outputs := rfl
@[simp] theorem load_script (s : State) (ls : List ProgramLine) (n : Nat) :
    (s.load ls n).host.script = ls.map (ProgramLine.assemble s.build.fmt) := rfl
@[simp] theorem load_schedule (s : State) (ls : List ProgramLine) (n : Nat) :
    (s.load ls n).schedule = eagerChoices n := rfl

@[simp] theorem withFetchWord_live (s : State) (nbits w : Nat) :
    (s.withFetchWord nbits w).live = true := rfl
@[simp] theorem withFetchWord_fmt (s : State) (nbits w : Nat) :
    (s.withFetchWord nbits w).build.fmt = (tableBeat nbits w).fmt := rfl
@[simp] theorem withFetchWord_script (s : State) (nbits w : Nat) :
    (s.withFetchWord nbits w).host.script = .send (tableBeat nbits w) none :: s.host.script := rfl
@[simp] theorem withFetchWord_outputs (s : State) (nbits w : Nat) :
    (s.withFetchWord nbits w).outputs = s.outputs := rfl
@[simp] theorem withFetchWord_mem (s : State) (nbits w : Nat) :
    (s.withFetchWord nbits w).host.mem = s.host.mem := rfl

@[simp] theorem reset_build : State.reset.build = Config.thisBuild := rfl
@[simp] theorem reset_live : State.reset.live = true := rfl
@[simp] theorem reset_q : State.reset.q = [] := rfl
@[simp] theorem reset_offered : State.reset.offered = false := rfl
@[simp] theorem reset_schedule : State.reset.schedule = [] := rfl
@[simp] theorem reset_outputs : State.reset.outputs = [] := rfl
@[simp] theorem reset_host : State.reset.host = HostSide.quiet := rfl

end Sys2Proof.Laws
end

