-- ==== Sys2Proof/Laws/Ops.lean ====
section
/-!
SUPPORT. What each shared operation can do, said once: a cycle, a beat on the input port, exec, a step,
the ports and the queue.
-/

namespace Sys2Proof.Laws

open Sys2Proof.Machine

/-! ### The ports -/

/-- `out_valid` means an old enough head, offered again or by choice. -/
theorem outValid_iff (s : State) (rst : Bool) : s.outValid rst = true ↔
    rst = false ∧ s.headOld = true ∧ (s.offered = true ∨ s.choice.offer = true) := by
  simp [State.outValid, and_assoc]

/-- An old head is there. -/
theorem headOld_iff (s : State) : s.headOld = true ↔
    ∃ e rest, s.q = e :: rest ∧ s.build.latency ≤ e.age := by
  unfold State.headOld
  cases h : s.q <;> simp

/-- While `out_valid` = 1, `out_data` is the result of the head. -/
theorem outData_of_valid {s : State} {rst : Bool} (h : s.outValid rst = true) :
    ∃ e rest, s.q = e :: rest ∧ s.build.latency ≤ e.age ∧
      s.outData rst = encodeBeat s.build e.beat := by
  obtain ⟨-, hold, -⟩ := (outValid_iff s rst).1 h
  obtain ⟨e, rest, hq, ha⟩ := (headOld_iff s).1 hold
  exact ⟨e, rest, hq, ha, by simp [State.outData, h, hq, Entry.result]⟩

/-- What one edge hands over: the result of the head, or nothing. -/
theorem delivered_cases (s : State) (p : PortsIn) :
    (s.delivers p = true ∧ ∃ e rest, s.q = e :: rest ∧ s.build.latency ≤ e.age ∧
        s.delivered p = [encodeBeat s.build e.beat]) ∨
      (s.delivers p = false ∧ s.delivered p = []) := by
  by_cases h : s.delivers p = true
  · have hv : s.outValid p.rst = true := by
      simp only [State.delivers, Bool.and_eq_true] at h; exact h.1
    obtain ⟨e, rest, hq, ha, hd⟩ := outData_of_valid hv
    exact .inl ⟨h, e, rest, hq, ha, by simp [State.delivered, h, hd]⟩
  · exact .inr ⟨by simpa using h, by simp [State.delivered, h]⟩

/-- An accepted beat is the decoded beat on the port, and there was room for it. -/
theorem accepted_cases (s : State) (p : PortsIn) :
    (s.accepts p = true ∧ p.inValid = true ∧ s.inReady p.rst p.outReady = true ∧
        s.accepted p = some (decode p.inData)) ∨
      (s.accepts p = false ∧ s.accepted p = none) := by
  by_cases h : s.accepts p = true
  · have h' := h
    simp only [State.accepts, Bool.and_eq_true] at h'
    exact .inl ⟨h, h'.1, h'.2, by simp [State.accepted, h]⟩
  · exact .inr ⟨by simpa using h, by simp [State.accepted, h]⟩

/-- `in_ready` needs room. -/
theorem inReady_room {s : State} {rst o : Bool} (h : s.inReady rst o = true) :
    rst = false ∧ (s.q.length < s.build.depth ∨
      (s.q.length = s.build.depth ∧ s.outValid rst = true ∧ o = true)) := by
  simp only [State.inReady, State.hasRoom, Bool.and_eq_true, Bool.or_eq_true, decide_eq_true_eq,
    beq_iff_eq, Bool.not_eq_true'] at h
  exact ⟨h.1.1, h.1.2.imp_right fun ⟨⟨h1, h2⟩, h3⟩ => ⟨h1, h2, h3⟩⟩

/-! ### The queue -/

/-- A member of Q' is an older entry of Q or the accepted beat at age 1. -/
theorem mem_nextQueue {q : List Entry} {d : Bool} {a : Option Instr} {x : Entry}
    (h : x ∈ nextQueue q d a) :
    (∃ e ∈ q, x = e.older) ∨ (∃ b, a = some b ∧ x = { beat := b, age := 1 }) := by
  have key : ∀ y, y ∈ (if d then q.tail else q).map Entry.older → ∃ e ∈ q, y = e.older := by
    intro y hy
    obtain ⟨e, he, rfl⟩ := List.mem_map.1 hy
    refine ⟨e, ?_, rfl⟩
    split at he
    · exact List.mem_of_mem_tail he
    · exact he
  cases a with
  | none => exact .inl (key x h)
  | some b =>
    rcases List.mem_append.1 h with h | h
    · exact .inl (key x h)
    · exact .inr ⟨b, rfl, by simpa using h⟩

/-- How long Q' is. -/
theorem length_nextQueue (q : List Entry) (d : Bool) (a : Option Instr) :
    (nextQueue q d a).length = (if d then q.length - 1 else q.length) + a.toList.length := by
  cases a <;> cases d <;> simp [nextQueue]

/-! ### A cycle, exec and a step -/

/-- What a cycle can answer. -/
theorem cycle_next {s t : State} {p : PortsIn} (h : s.cycle p = .next t) :
    (p.rst = true ∧ t = s.resetEdge) ∨
      (p.rst = false ∧ s.live = true ∧ t = s.transferEdge p) := by
  unfold State.cycle at h
  split at h
  · next hc =>
    cases h
    cases hr : p.rst
    · exact .inr ⟨rfl, by simpa [hr] using hc, by simp [State.edge, hr]⟩
    · exact .inl ⟨rfl, by simp [State.edge, hr]⟩
  · cases h

/-- A reset cycle always answers. -/
theorem cycle_reset (s : State) {p : PortsIn} (h : p.rst = true) :
    s.cycle p = .next s.resetEdge := by
  simp [State.cycle, State.edge, h]

/-- A cycle without reset answers once the block is live. -/
theorem cycle_live {s : State} {p : PortsIn} (h : p.rst = false) (hl : s.live = true) :
    s.cycle p = .next (s.transferEdge p) := by
  simp [State.cycle, State.edge, h, hl]

/-- What a beat on the input port can answer. -/
theorem offerBeat_next {s t : State} {i : Instr} (h : s.offerBeat i = .next t) :
    i.fits s.build.fmt = true ∧ s.live = true ∧ t = s.transferEdge (s.beatPorts i) := by
  unfold State.offerBeat at h
  split at h
  · next hf =>
    rcases cycle_next h with ⟨hr, -⟩ | ⟨-, hl, ht⟩
    · simp [State.beatPorts] at hr
    · exact ⟨hf, hl, ht⟩
  · cases h

/-- Both instructions are one beat on the input port. -/
theorem exec_eq (i : Instr) (s : State) : exec i s = s.offerBeat i := by
  cases i <;> rfl

/-- What exec can answer. -/
theorem exec_next {s t : State} {i : Instr} (h : exec i s = .next t) :
    i.fits s.build.fmt = true ∧ s.live = true ∧ t = s.transferEdge (s.beatPorts i) :=
  offerBeat_next (exec_eq i s ▸ h)

/-- exec answers once the block is live and the beat fits. -/
theorem exec_live {s : State} {i : Instr} (hf : i.fits s.build.fmt = true) (hl : s.live = true) :
    exec i s = .next (s.transferEdge (s.beatPorts i)) := by
  rw [exec_eq, State.offerBeat, if_pos hf]
  exact cycle_live rfl hl

/-- What a step can answer: the block's next state with the host's next state. -/
theorem step_next {s t : State} (h : step s = .next t) :
    ∃ u, s.settle.blockCycle = .next u ∧
      t = { u with host := s.settle.nextHost s.settle.hostPorts } := by
  unfold step at h
  cases hb : s.settle.blockCycle with
  | next u => rw [hb] at h; cases h; exact ⟨u, rfl, rfl⟩
  | fault r => cases r
  | refused r => rw [hb] at h; cases h

/-- What a state that comes after another has from the step: all but the free choices and the script. -/
theorem stepsTo_step {s t : State} (h : s.StepsTo t) :
    ∃ u, step s = .next u ∧ t.build = u.build ∧ t.live = u.live ∧ t.q = u.q ∧
      t.offered = u.offered ∧ t.draws = u.draws ∧ t.outputs = u.outputs ∧
      t.host.hold = u.host.hold ∧ t.host.dests = u.host.dests ∧ t.host.image = u.host.image ∧
      t.host.mem = u.host.mem ∧ ∃ more, t.host.script = u.host.script ++ more := by
  obtain ⟨more, u, hu, ht⟩ := h
  rw [ht]
  exact ⟨u, hu, rfl, rfl, rfl, rfl, rfl, rfl, rfl, rfl, rfl, rfl, more, rfl⟩

/-- A run of a program is a run. -/
theorem isRun_of_program {run : Nat → State} (h : IsProgramRun run) : IsRun run :=
  fun n => ⟨[], h n⟩

end Sys2Proof.Laws
end

