-- ==== Sys2Proof/Laws/PerInstr.lean ====
section
/-!
SUPPORT. Statements made of every instruction, one lemma a constructor. Family Format: the beat of an
instruction has the width of the instruction's own format, which is the one build it fits.
-/

namespace Sys2Proof.Laws.Format

open Sys2Proof

/-- The beat's word has the instruction's format, and a build fits the instruction exactly when it has
that format. -/
def Statement (i : Instr) : Prop :=
  (encode i).fmt = i.fmt ∧ ∀ f, i.fits f = true ↔ f = i.fmt

theorem encode32 (r g b : BitVec 32) : Statement (.encode32 r g b) :=
  ⟨rfl, fun f => by cases f <;> simp [Instr.fits, Instr.fmt]⟩

theorem encode64 (r g b : BitVec 64) : Statement (.encode64 r g b) :=
  ⟨rfl, fun f => by cases f <;> simp [Instr.fits, Instr.fmt]⟩

end Sys2Proof.Laws.Format
end

