-- ==== Sys2Proof/Tests/Slice0.lean ====
section
/-!
SUPPORT. Small tests: ill-formed terms refused, words of the spec decoded, values of
spec/95_test_vectors.md, one cycle of the block, and for each claim with premises a case that meets them.
-/

namespace Sys2Proof.Tests

open Sys2Proof Sys2Proof.Machine

/-! ### Well-formedness: one ill-formed term for each check -/

theorem test_fits_refuses_other_format :
    (Instr.encode64 0 0 0).fits .binary32 = false ∧ (Instr.encode32 0 0 0).fits .binary64 = false ∧
      (Instr.encode32 0 0 0).fits .binary32 = true := by decide

theorem test_build_refuses_no_depth : { Config.thisBuild with depth := 0 }.wf = false := by decide

theorem test_build_refuses_no_latency : { Config.thisBuild with latency := 0 }.wf = false := by
  decide

theorem test_build_refuses_zero_epsilon :
    { Config.thisBuild with eps32 := 0 }.wf = false ∧
      { Config.thisBuild with eps64 := 0 }.wf = false := by decide

/-- m_1 itself is allowed, one ulp above is not (rule R8). -/
theorem test_build_refuses_large_epsilon :
    { Config.thisBuild with eps32 := 0x3B808082 }.wf = false ∧
      { Config.thisBuild with eps64 := 0x3F70101010101011 }.wf = false ∧
      { Config.thisBuild with eps32 := 0x3B808081, eps64 := 0x3F70101010101010 }.wf = true := by
  decide

/-! ### Decoding, words written out from spec/30_encoding.md and spec/95_test_vectors.md -/

/-- Vector E8: qnan in R, 3.0 in G, -0 in B; and a beat with one bit set at each field's edge. -/
theorem test_decode_encode32 :
    decode (.w96 0x80000000404000007FC00000) = .encode32 0x7FC00000 0x40400000 0x80000000 ∧
      decode (.w96 0x000000010000000180000000) = .encode32 0x80000000 1 1 := by decide

/-- Vector E13 in binary64. -/
theorem test_decode_encode64 :
    decode (.w192 0x3FC00000000000003FD00000000000003FE0000000000000) =
      .encode64 0x3FE0000000000000 0x3FD0000000000000 0x3FC0000000000000 := by decide

theorem test_encode_packs_blue_high :
    encode (.encode32 1 2 3) = .w96 0x000000030000000200000001 := by decide

theorem test_table_word_lengths :
    decodeTableWord 96 0x40400000 = some (.encode32 0x40400000 0 0) ∧
      decodeTableWord 8 0xFF = some (.encode32 0xFF 0 0) ∧
      decodeTableWord 192 (2 ^ 128) = some (.encode64 0 0 1) ∧
      decodeTableWord 193 0 = none := by decide

theorem test_beat_of_wrong_length_is_rejected :
    beatOfWord 95 0 = .error (.beatLength 95) ∧ beatOfWord 97 0 = .error (.beatLength 97) := by
  decide

/-! ### Numbers, spec/95_test_vectors.md sections 2.1 to 2.6 -/

/-- Section 2.1: subnormals kept, -minsub and minsub to +0, a NaN payload, both infinities. -/
theorem test_norm_binary32 :
    enc .binary32 (norm .binary32 0x00800000) = 0x00155555 ∧
      enc .binary32 (norm .binary32 0x00000005) = 0x00000001 ∧
      enc .binary32 (norm .binary32 0x00000001) = 0 ∧
      enc .binary32 (norm .binary32 0x80000001) = 0 ∧
      enc .binary32 (norm .binary32 0x7FA5A5A5) = 0 ∧
      enc .binary32 (norm .binary32 0x7F800000) = 0x3F800000 ∧
      enc .binary32 (norm .binary32 0xFF800000) = 0 ∧
      enc .binary32 (norm .binary32 0x40BFFFFF) = 0x3F7FFFFF ∧
      enc .binary32 (norm .binary32 0x7F7FFFFF) = 0x3F800000 := by decide +kernel

theorem test_norm_binary64 :
    enc .binary64 (norm .binary64 0x0010000000000000) = 0x0002AAAAAAAAAAAB ∧
      enc .binary64 (norm .binary64 0x4014000000000000) = 0x3FEAAAAAAAAAAAAB ∧
      enc .binary64 (norm .binary64 0x7FF5A5A5A5A5A5A5) = 0 := by decide +kernel

/-- Section 2.2: equal channels one ulp below EPSILON take the floor. -/
theorem test_peak_floor :
    enc .binary32 (max3 (realOf .binary32 0x358637BD) (realOf .binary32 0x358637BC)
      (realOf .binary32 0x358637BC) 0) = 0x358637BD := by decide +kernel

/-- Section 2.3 and rule R167: RN(1/6) steps up to 43, and one ulp above m_1 to 2. -/
theorem test_quant_steps_up :
    enc .binary32 (scaledPeak .binary32 (realOf .binary32 0x3E2AAAAB)) = 0x422A0000 ∧
      (quant .binary32 (realOf .binary32 0x3E2AAAAB)).1 = 43 ∧
      (quant .binary32 (realOf .binary32 0x3B808081)).1 = 1 ∧
      (quant .binary32 (realOf .binary32 0x3B808082)).1 = 2 ∧
      enc .binary64 (quant .binary64 (realOf .binary64 0x3FE0101010101011)).2 =
        0x3FE0303030303030 := by decide +kernel

/-- Section 2.4: the least subnormal over m_1 is not flushed; k = 86 in binary64. -/
theorem test_scale :
    enc .binary32 (scale .binary32 (realOf .binary32 1) (recip (realOf .binary32 0x3B808081))) =
        0x000000FF ∧
      enc .binary64 (scale .binary64 (realOf .binary64 0x3FD5555555555555)
        (recip (realOf .binary64 0x3FD5959595959596))) = 0x3FEFA0BE82FA0BE7 := by decide +kernel

/-- Section 2.5: OCLAMP of a quotient above 1. -/
theorem test_oclamp :
    oclamp (realOf .binary32 0x437EFFFF) = 1 ∧
      oclamp (realOf .binary64 0x3FEFFFFFFFFFFFFF) = realOf .binary64 0x3FEFFFFFFFFFFFFF := by
  decide +kernel

/-- Vectors E11 and E12 in binary32. -/
theorem test_encode32_vectors :
    encodeBeat Config.thisBuild (.encode32 0x3A83126F 0x3A03126F 0) =
        .w128 0x3B808081000000003CAE147B3D2E147B ∧
      encodeBeat Config.thisBuild (.encode32 0x40BFF7CF 0x40C000D2 0x40000000) =
        .w128 0x3F8000003EAAAAAB3F8000003F7FF514 := by decide +kernel

/-- Vectors E14 and E11 in binary64: the one peak for which the output clamp acts, and a small pixel. -/
theorem test_encode64_vectors :
    encodeBeat Config.thisBuild (.encode64 0x40179F9F9F9F9FA0 0 0) =
        .w256 0x3FEF7F7F7F7F7F7F000000000000000000000000000000003FF0000000000000 ∧
      encodeBeat Config.thisBuild (.encode64 0x3F50624DD2F1A9FC 0x3F40624DD2F1A9FC 0) =
        .w256 0x3F7010101010101000000000000000003F95C28F5C28F5C23FA5C28F5C28F5C2 := by
  decide +kernel

/-! ### One cycle of the block -/

/-- A choice that offers and accepts whenever the rules allow it. -/
def eager : Choice := { offer := true, readyHeld := true, readyTaken := true }

/-- A block just reset, eager for one cycle. -/
def fresh : State := { State.reset with schedule := [eager] }

/-- The binary64 build of it. -/
def fresh64 : State := { fresh with build := { Config.thisBuild with fmt := .binary64 } }

/-- The beat of vector E2. -/
def beatE2 : Instr := .encode32 0x40400000 0 0

/-- A full block whose head is old enough, after five edges with one acceptance each. -/
def full : State :=
  { fresh with q := [⟨beatE2, 5⟩, ⟨beatE2, 4⟩, ⟨beatE2, 3⟩, ⟨beatE2, 2⟩, ⟨beatE2, 1⟩] }

/-- The ports of a cycle in which a beat stands on the input port. -/
def offering (outReady : Bool) : PortsIn :=
  { rst := false, inValid := true, inData := encode beatE2, outReady := outReady }

/-- The ports of a cycle with `rst` = 1 in which a beat is offered too. -/
def resetting : PortsIn := { offering true with rst := true }

/-- What a cycle leaves in Q. -/
def queueAfter : Host.Outcome State Fault Refusal → Option (List Entry)
  | .next t => some t.q
  | .fault r => nomatch r
  | .refused _ => none

/-- Rules R38 and R40: a full block takes a beat in the very cycle its head is taken. -/
theorem test_full_block_swaps :
    queueAfter (full.cycle (offering true)) =
      some [⟨beatE2, 5⟩, ⟨beatE2, 4⟩, ⟨beatE2, 3⟩, ⟨beatE2, 2⟩, ⟨beatE2, 1⟩] := by decide

/-- Rules R38 and R40: held, it takes nothing and every entry ages. -/
theorem test_full_block_holds :
    queueAfter (full.cycle (offering false)) =
      some [⟨beatE2, 6⟩, ⟨beatE2, 5⟩, ⟨beatE2, 4⟩, ⟨beatE2, 3⟩, ⟨beatE2, 2⟩] := by decide

/-- Rules R223 and R240: a reset comes before both transfers. -/
theorem test_reset_wins : queueAfter (full.cycle resetting) = some [] := by decide

/-- The first step after reset runs the word it is given, in both rows. -/
theorem test_first_step_runs_the_word :
    queueAfter (step (State.reset.withFetchWord 96 0x40400000)) = some [⟨beatE2, 1⟩] ∧
      queueAfter (step (State.reset.withFetchWord 192 (2 ^ 128))) =
        some [⟨.encode64 0 0 1, 1⟩] ∧
      queueAfter (step (full.withFetchWord 96 0x40400000)) = some [⟨beatE2, 1⟩] := by decide

/-- Rule R88: HOLD takes no cycle, and lowers `out_ready` from the next line's first cycle on. -/
theorem test_hold_takes_no_cycle :
    ({ fresh with host := { HostSide.quiet with script := [.hold 8, .idle 1] } } : State).now.outReady
      = false := by decide

/-- Program P1 of spec/95_test_vectors.md: the bytes at 0x1000 to 0x1003 are 00 00 40 40. -/
theorem test_memory_byte_order :
    readBytes (memWrite .little [] 0x1000 4 0x40400000) 0x1000 4 = [0, 0, 0x40, 0x40] ∧
      readBytes (memWrite .big [] 0x1000 4 0x40400000) 0x1000 4 = [0x40, 0x40, 0, 0] ∧
      memWrite .little [] 0x1000 4 0x40400000 = [(0x1002, 0x40), (0x1003, 0x40)] := by decide

/-- Program P1: element (1, 0, 0) of the input lies at 0x1018, and (1, 1, 3) of the output at 0x203C. -/
theorem test_element_addresses :
    let img : Image :=
      { height := 2, width := 2, inBase := 0x1000, outBase := 0x2000, endian := .little }
    elementAddr img .binary32 img.inBase 3 1 0 0 = 0x1018 ∧
      elementAddr img .binary32 img.outBase 4 1 1 3 = 0x203C := by decide

theorem test_reset_memory_is_canonical : memWf State.reset.host.mem = true := by decide

/-! ### Cases that meet the premises of the claims -/

theorem witness_EveryBeatIsAnEncode : (2 ^ 96 - 1 : Nat) < 2 ^ 96 ∧ (2 ^ 192 - 1 : Nat) < 2 ^ 192 := by
  decide

theorem witness_StepRunsTheOfferedBeat :
    (fresh.withFetchWord 96 0x40400000).settle.hostPorts.inValid = true ∧
      (fresh.withFetchWord 96 0x40400000).settle.hostPorts.rst = false := by decide

theorem witness_FetchWordRunsTheWord : decodeTableWord 96 0x40400000 = some beatE2 := by decide

theorem witness_ResetStateAndPorts : resetting.rst = true := by decide

theorem witness_ResetEdgeEmptiesTheQueue : resetting.rst = true ∧ full.q ≠ [] := by decide

theorem witness_NothingRunsBeforeTheFirstReset :
    ({ full with live := false } : State).live = false ∧ (offering true).rst = false ∧
      beatE2.fits full.build.fmt = true := by decide

theorem witness_QueueUpdateAtAnEdge : full.live = true ∧ (offering true).rst = false ∧
    full.q.length ≤ full.build.depth ∧ resetting.rst = true := by decide

theorem witness_DeliveryHandsOverEncodeOfTheHead :
    (∃ t, full.cycle (offering true) = .next t) ∧
      ((full.portsOut (offering true)).outValid && (offering true).outReady) = true ∧
      (∃ t, full.cycle (offering false) = .next t) ∧
      ((full.portsOut (offering false)).outValid && (offering false).outReady) = false :=
  ⟨⟨_, rfl⟩, by decide, ⟨_, rfl⟩, by decide⟩

/-- A full block in a cycle in which the host holds its output. -/
def held : State := { full with host := { HostSide.quiet with hold := 2 } }

/-- A state that comes after it. -/
def heldNext : State :=
  { held.transferEdge held.settle.hostPorts with host := held.settle.nextHost held.settle.hostPorts }

theorem witness_OutputOfferFollowsItsRule :
    full.outValid false = true ∧
      (held.StepsTo heldNext ∧ held.seen.outValid = true ∧ held.now.outReady = false ∧
        heldNext.now.rst = false) ∧
      full.headOld = true ∧ full.offered = false :=
  ⟨by decide, ⟨⟨[], heldNext, rfl, rfl⟩, by decide, by decide, by decide⟩, by decide, by decide⟩

/-- A full block whose pixels differ from those of `full`. -/
def fullOfBlack : State :=
  { full with q := full.q.map fun e => { e with beat := .encode32 0 0 0 } }

/-- Room in an empty block, and in a full one whose head is taken; two blocks that differ in their data. -/
theorem witness_InReadyKeepsItsLimit :
    fresh.inReady false false = true ∧ full.inReady false true = true ∧
      fresh.q.length < fresh.build.depth ∧
      (full.q.length = full.build.depth ∧ (full.portsOut (offering true)).outValid = true) ∧
      full.build = fullOfBlack.build ∧ full.schedule = fullOfBlack.schedule ∧
      full.draws = fullOfBlack.draws ∧ full.q.length = fullOfBlack.q.length ∧
      full.q ≠ fullOfBlack.q ∧ full.outValid false = fullOfBlack.outValid false := by decide

theorem witness_PortsIgnoreWhatTheyMust :
    (offering true).rst = (offering false).rst ∧
      (offering true).outReady = { offering true with inValid := false }.outReady := by decide

theorem witness_Encode32Accepted : fresh.live = true ∧ fresh.build.fmt = .binary32 ∧
    fresh.inReady false fresh.hostOutReady = true ∧
    full.inReady false full.hostOutReady = true := by decide

theorem witness_Encode64Accepted : fresh64.live = true ∧ fresh64.build.fmt = .binary64 ∧
    fresh64.inReady false fresh64.hostOutReady = true := by decide

theorem witness_EncodeWaitsWhileNotReady : held.live = true ∧ beatE2.fits held.build.fmt = true ∧
    held.inReady false held.hostOutReady = false := by decide

theorem witness_BeatOfTheOtherFormatIsRefused :
    beatE2.fmt ≠ fresh64.build.fmt ∧ (Instr.encode64 0 0 0).fmt ≠ fresh.build.fmt := by decide

theorem witness_EncodeLeavesTheRestUnchanged :
    (∃ t, exec beatE2 full = .next t) ∧ ∃ t, exec (.encode64 0 0 0) fresh64 = .next t :=
  ⟨⟨_, rfl⟩, ⟨_, rfl⟩⟩

theorem witness_EncodeKeepsTheBlockInvariant : full.BlockInv ∧ ∃ t, exec beatE2 full = .next t :=
  ⟨by decide, ⟨_, rfl⟩⟩

/-- A full block with a destination for each pixel. -/
def tracked : State :=
  { full with host := { HostSide.quiet with
      script := [.send (encode beatE2) none], dests := [some (0, 0), none, none, none, none] } }

theorem witness_StepKeepsTheInvariants :
    tracked.BlockInv ∧ tracked.HostInv ∧ ∃ t, step tracked = .next t :=
  ⟨by decide, by decide, ⟨_, rfl⟩⟩

/-! A run: one beat accepted, delivered in the next cycle, and quiet from then on. -/

/-- The start: LATENCY = 1, and a program of one ENCODE and a DRAIN. -/
def start : State :=
  { fresh with
    build := { Config.thisBuild with latency := 1 }
    host := { HostSide.quiet with script := [.send (encode beatE2) none, .drain] } }

/-- After the accepting edge. -/
def inFlight : State :=
  { start with
    q := [⟨beatE2, 1⟩], draws := 1,
    host := { HostSide.quiet with script := [.drain], dests := [none] } }

/-- After the delivering edge. -/
def doneAt (n : Nat) (ls : List Line) : State :=
  { start with
    q := [], draws := n, outputs := [encodeBeat start.build beatE2],
    host := { HostSide.quiet with script := ls } }

/-- The run. -/
def oneBeat : Nat → State
  | 0 => start
  | 1 => inFlight
  | 2 => doneAt 2 [.drain]
  | n + 3 => doneAt (n + 3) []

theorem oneBeat_isProgramRun : IsProgramRun oneBeat := by
  intro n
  match n with
  | 0 => exact ⟨{ inFlight with schedule := [] }, rfl, rfl⟩
  | 1 => exact ⟨{ doneAt 2 [.drain] with schedule := [] }, rfl, rfl⟩
  | 2 => exact ⟨{ doneAt 3 [] with schedule := [] }, rfl, rfl⟩
  | n + 3 => exact ⟨{ doneAt (n + 4) [] with schedule := [] }, rfl, rfl⟩

theorem oneBeat_isRun : IsRun oneBeat := Laws.isRun_of_program oneBeat_isProgramRun

theorem oneBeat_noReset (n : Nat) : (oneBeat n).now.rst = false := by
  match n with
  | 0 => rfl
  | 1 => rfl
  | 2 => rfl
  | n + 3 => rfl

theorem oneBeat_outReady (n : Nat) : (oneBeat n).now.outReady = true := by
  match n with
  | 0 => rfl
  | 1 => rfl
  | 2 => rfl
  | n + 3 => rfl

theorem oneBeat_inReady (n : Nat) : (oneBeat n).seen.inReady = true := by
  match n with
  | 0 => rfl
  | 1 => rfl
  | 2 => rfl
  | n + 3 => rfl

theorem oneBeat_fair : Fair oneBeat := by
  intro n _
  refine ⟨fun hq => ?_, fun _ k _ => ⟨k, le_rfl, oneBeat_inReady k⟩,
    fun _ => ⟨n, le_rfl, oneBeat_inReady n⟩⟩
  match n with
  | 0 => exact absurd rfl hq
  | 1 => exact ⟨1, le_rfl, rfl⟩
  | 2 => exact absurd rfl hq
  | n + 3 => exact absurd rfl hq

theorem witness_StreamKeepsOrder :
    IsRun oneBeat ∧ ∀ i, i < 3 → (oneBeat (0 + i)).now.rst = false :=
  ⟨oneBeat_isRun, fun _ _ => oneBeat_noReset _⟩

/-- LATENCY = 1: accepted at edge 0, offered in cycle 1. -/
theorem witness_NoResultBeforeLatency : IsRun oneBeat ∧ 0 ≤ 1 ∧
    (∀ i, 0 ≤ i → i < 1 → (oneBeat i).now.rst = false) ∧
    (oneBeat 0).settle.accepts (oneBeat 0).now = true ∧ (oneBeat 1).seen.outValid = true ∧
    (oneBeat 1).outputs.length = (oneBeat 0).outputs.length + (oneBeat 0).q.length :=
  ⟨oneBeat_isRun, by decide, fun _ _ _ => oneBeat_noReset _, rfl, rfl, rfl⟩

/-- After a reset at cycle 1 of a run like `oneBeat`. -/
def emptied (n : Nat) (ls : List Line) : State :=
  { start with q := [], draws := n, host := { HostSide.quiet with script := ls } }

/-- A run in which a reset at cycle 1 discards the one pixel in flight. -/
def discarding : Nat → State
  | 0 => { start with host := { HostSide.quiet with script := [.send (encode beatE2) none, .reset 1] } }
  | 1 => { inFlight with host := { HostSide.quiet with script := [.reset 1], dests := [none] } }
  | 2 => emptied 2 [.reset 0]
  | n + 3 => emptied (n + 3) []

theorem discarding_isRun : IsRun discarding := by
  refine Laws.isRun_of_program fun n => ?_
  match n with
  | 0 =>
    exact ⟨{ inFlight with
      schedule := [], host := { HostSide.quiet with script := [.reset 1], dests := [none] } }, rfl, rfl⟩
  | 1 => exact ⟨{ emptied 2 [.reset 0] with schedule := [] }, rfl, rfl⟩
  | 2 => exact ⟨{ emptied 3 [] with schedule := [] }, rfl, rfl⟩
  | n + 3 => exact ⟨{ emptied (n + 4) [] with schedule := [] }, rfl, rfl⟩

theorem witness_ResetDiscardsWhatIsInFlight : IsRun discarding ∧ (discarding 0).q = [] ∧
    (discarding 0).outputs = [] ∧ (∀ i, i < 1 → (discarding i).now.rst = false) ∧
    (discarding 1).now.rst = true ∧ (discarding 1).q ≠ [] ∧
    (∀ i, i < 1 → (discarding (1 + 1 + i)).now.rst = false) := by
  refine ⟨discarding_isRun, rfl, rfl, fun i hi => ?_, rfl, by decide, fun i hi => ?_⟩
  · obtain rfl : i = 0 := by omega
    rfl
  · obtain rfl : i = 0 := by omega
    rfl

theorem witness_FairRunDeliversEveryEntry :
    IsRun oneBeat ∧ Fair oneBeat ∧ NoResetFrom oneBeat 1 ∧ DrainsFrom oneBeat 1 ∧
      (oneBeat 1).q ≠ [] :=
  ⟨oneBeat_isRun, oneBeat_fair, fun _ _ => oneBeat_noReset _,
    fun k _ => ⟨k, le_rfl, oneBeat_outReady k⟩, by decide⟩

theorem witness_DrainingProgramOutputsItsEncodes :
    IsProgramRun oneBeat ∧ Fair oneBeat ∧ (oneBeat 0).build.wf = true ∧ (oneBeat 0).live = true ∧
      (oneBeat 0).q = [] ∧ (oneBeat 0).outputs = [] ∧
      (oneBeat 0).host.script = [] ++ ([.send (encode beatE2) none] ++ [.drain]) ∧
      (∀ l ∈ ([] ++ [.send (encode beatE2) none] : List Line),
        l.isPlain (oneBeat 0).build.fmt = true) ∧
      scriptBeats [] = [] ∧
      (∀ l ∈ ([.send (encode beatE2) none] : List Line), l.isReset = false) :=
  ⟨oneBeat_isProgramRun, oneBeat_fair, by decide, rfl, rfl, rfl, rfl, by decide, rfl, by decide⟩

theorem witness_EagerBlockIsFair : IsRun oneBeat ∧ (oneBeat 0).BlockInv ∧
    ∀ n, (oneBeat n).choice = { offer := true, readyHeld := true, readyTaken := true } := by
  refine ⟨oneBeat_isRun, by decide, fun n => ?_⟩
  match n with
  | 0 => rfl
  | 1 => rfl
  | 2 => rfl
  | n + 3 => rfl

/-! Hosts that never end (rule R249): one that never takes an output, and one with an endless stream. -/

/-- Cycle n of a block that offers its one pixel and is not ready, whose host offers another for ever and
takes nothing. -/
def withheld (n : Nat) : State :=
  { start with
    schedule := [{ offer := true, readyHeld := false, readyTaken := true }]
    q := [⟨beatE2, n + 1⟩], offered := n != 0, draws := n
    host := { HostSide.quiet with script := [.drive (offering false)], dests := [none] } }

/-- The host is given its line cycle by cycle, and the block never accepts. -/
theorem test_never_taking_host_has_a_run : IsRun withheld := by
  intro n
  match n with
  | 0 =>
    exact ⟨[.drive (offering false)], { withheld 1 with
      schedule := [], host := { HostSide.quiet with dests := [none] } }, rfl, rfl⟩
  | n + 1 =>
    refine ⟨[.drive (offering false)], { withheld (n + 2) with
      schedule := [], host := { HostSide.quiet with dests := [none] } }, ?_, rfl⟩
    simp [step, State.blockCycle, State.offeredBeat, withheld, State.settle, settleLines]
    rfl

/-- Cycle n of a block that takes a beat and hands one over in every cycle from the second on. -/
def endless (n : Nat) : State :=
  { start with
    q := if n = 0 then [] else [⟨beatE2, 1⟩], draws := n
    outputs := List.replicate (n - 1) (encodeBeat start.build beatE2)
    host := { HostSide.quiet with
      script := [.drive (offering true)], dests := if n = 0 then [] else [none] } }

theorem test_endless_stream_has_a_run : IsRun endless := by
  intro n
  match n with
  | 0 =>
    exact ⟨[.drive (offering true)], { endless 1 with
      schedule := [], host := { HostSide.quiet with dests := [none] } }, rfl, rfl⟩
  | n + 1 =>
    refine ⟨[.drive (offering true)], { endless (n + 2) with
      schedule := []
      outputs := (endless (n + 1)).outputs ++ [encodeBeat start.build beatE2]
      host := { HostSide.quiet with dests := [none] } }, rfl, ?_⟩
    exact congrArg (fun l => { endless (n + 2) with outputs := l }) List.replicate_succ'

theorem witness_ReferencePipelineRefinesTheBlock :
    full.build.depth = 5 ∧ full.build.latency = 5 ∧ (offering true).inData.fmt = full.build.fmt ∧
      RefMatches (RefPipe.ofBeats full.build (some beatE2) (some beatE2) (some beatE2) (some beatE2)
        (some beatE2)) full :=
  ⟨rfl, rfl, rfl, by decide, some ⟨beatE2, 1⟩, some ⟨beatE2, 2⟩, some ⟨beatE2, 3⟩, some ⟨beatE2, 4⟩,
    some ⟨beatE2, 5⟩, rfl, rfl, by decide, by decide, by decide, by decide, by decide, by decide⟩

/-- A fresh block whose host is about to send pixel (0, 1) of an image. -/
def sending : State :=
  { fresh with host :=
    { HostSide.quiet with
      script := [.pixel 0 1], mem := [(28, 5)]
      image := { height := 1, width := 2, inBase := 16, outBase := 64, endian := .little } } }

theorem witness_EncodeLineHoldsUntilAccepted :
    tracked.host.script = [.send (encode beatE2) none] ∧ (∃ t, step tracked = .next t) ∧
      tracked.seen.inReady = true ∧
      { tracked with host := { tracked.host with hold := 1 } }.seen.inReady = false ∧
      sending.host.script = [.pixel 0 1] ∧ (∃ t, step sending = .next t) :=
  ⟨rfl, ⟨_, rfl⟩, by decide, by decide, rfl, ⟨_, rfl⟩⟩

/-- Rule R61: R of pixel (0, 1) lies at 16 + (1 * 3 + 0) * 4 = 28. -/
theorem test_pixel_line_sends_its_elements : sending.now.inData = .w96 5 := by decide

/-- A fresh block whose host runs these lines. -/
def running (ls : List Line) : State := { fresh with host := { HostSide.quiet with script := ls } }

theorem witness_DirectivesDriveThePorts :
    (∃ t, step (running [.idle 1]) = .next t) ∧ (∃ t, step (running [.reset 1]) = .next t) ∧
      (∃ t, step { full with host := { HostSide.quiet with script := [.drain] } } = .next t) ∧
      (∃ t, step (running [.drain]) = .next t) ∧ ∃ t, step (running [.hold 1]) = .next t :=
  ⟨⟨_, rfl⟩, ⟨_, rfl⟩, ⟨_, rfl⟩, ⟨_, rfl⟩, ⟨_, rfl⟩⟩

/-- The bounds of the range and a value in each of its parts; half a unit of binary32 is 2^103. -/
theorem witness_ChannelLiterals : |maxFinite .binary32| ≤ maxFinite .binary32 ∧
    pow2 ((Fmt.binary32.expMax : Int) - 1 - Fmt.binary32.bias - Fmt.binary32.fracBits) / 2 = 2 ^ 103 ∧
    maxFinite .binary32 < maxFinite .binary32 + 1 ∧
    maxFinite .binary32 + 1 < maxFinite .binary32 + 2 ^ 103 ∧
    maxFinite .binary32 + 2 ^ 103 ≤ 4 * 10 ^ 38 := by decide +kernel

/-- Rule R12, IEEE 754 roundTiesToEven: above the greatest finite value, on both sides of the tie, and a
negative literal that rounds to a zero, which is +0. -/
theorem test_decimal_overflow :
    (ChanLit.decimal (4 * 10 ^ 38)).denote .binary32 = 0x7F800000 ∧
      (ChanLit.decimal (-(10 ^ 39))).denote .binary32 = 0xFF800000 ∧
      (ChanLit.decimal (2 ^ 128 - 2 ^ 103)).denote .binary32 = 0x7F800000 ∧
      (ChanLit.decimal (2 ^ 128 - 2 ^ 103 - 1)).denote .binary32 = 0x7F7FFFFF ∧
      (ChanLit.decimal (10 ^ 309)).denote .binary64 = 0x7FF0000000000000 ∧
      (ChanLit.decimal (-(1 / 10 ^ 60))).denote .binary32 = 0 := by decide +kernel

theorem witness_StoredPixelReadsBack : memWf [(3, 1)] = true ∧ 0 < 4 ∧ 3 < 4 := by decide

theorem witness_InPlaceOrderOfPixels :
    let img : Image := { height := 2, width := 2, inBase := 16, outBase := 16, endian := .big }
    img.outBase = img.inBase ∧ 0 * img.width + 1 < 1 * img.width + 0 := by decide

theorem witness_StepStoresOnlyTheDeliveredPixel :
    (∃ t, step tracked = .next t) ∧ tracked.delivers tracked.now = true ∧
      tracked.host.dests.head? = some (some (0, 0)) :=
  ⟨⟨_, rfl⟩, by decide, by decide⟩

theorem witness_RoundingIsNearestTiesToEven :
    |maxFinite .binary32| ≤ maxFinite .binary32 ∧ |(-1 / 3 : Rat)| ≤ maxFinite .binary64 := by
  decide +kernel

theorem witness_EncodingsRoundTrip :
    val .binary32 0x80000001 = .real (-(pow2 (-149))) ∧ signBit .binary32 0x80000001 = true ∧
      val .binary32 0 = .real 0 ∧ signBit .binary32 0 = false ∧
      val .binary64 0x3FF0000000000000 = .real 1 := by decide +kernel

theorem witness_EncodingsOrderAsValues :
    val .binary32 0x3F800000 = .real 1 ∧ val .binary32 0x40000000 = .real 2 ∧
      signBit .binary32 0x3F800000 = false ∧ signBit .binary32 0x40000000 = false := by
  decide +kernel

/-- Each class, and the values where the classes of finite ones meet: -0, 6.0 and one ulp below it. -/
theorem witness_NormalizationOfEveryClass :
    val .binary32 0x7FA5A5A5 = .nan ∧ val .binary32 0xFF800000 = .inf true ∧
      val .binary32 0x7F800000 = .inf false ∧ val .binary32 0x80000000 = .real 0 ∧
      val .binary32 0x40C00000 = .real 6 ∧
      (0 < realOf .binary32 0x40BFFFFF ∧ realOf .binary32 0x40BFFFFF < 6) ∧
      val .binary64 0x4018000000000000 = .real 6 := by decide +kernel

/-- The least normal value of binary32 and the least subnormal, positive with a sixth below 2^-126. -/
theorem witness_UnderflowIsGradual :
    val .binary32 0x00800000 = .real (pow2 (-126)) ∧ 0 < pow2 (-126) ∧
      pow2 (-126) / 6 < pow2 (Fmt.binary32.minExp + Fmt.binary32.fracBits) ∧
      val .binary64 1 = .real (pow2 (-1074)) ∧
      pow2 (-1074) / 6 < pow2 (Fmt.binary64.minExp + Fmt.binary64.fracBits) := by decide +kernel

theorem witness_PeakIsTheFlooredMaximum :
    (1 / 1000 : Rat) ≤ 1 ∧ (1 : Rat) ≤ 1 ∧ (0 : Rat) < 1 / 1000 := by decide +kernel

/-- The least and the greatest peak. -/
theorem witness_QuantizerCodeIsOneTo255 :
    val .binary32 1 = .real (pow2 (-149)) ∧ 0 < pow2 (-149) ∧ pow2 (-149) ≤ 1 ∧
      val .binary64 0x3FF0000000000000 = .real 1 := by decide +kernel

theorem witness_SmallPeaksTakeTheLeastLevel :
    val .binary32 0x3B808081 = .real (level .binary32 1) ∧ 0 < level .binary32 1 ∧
      val .binary64 0x3F70101010101010 = .real (level .binary64 1) := by decide +kernel

/-- One ulp above m_254, and 1. -/
theorem witness_Binary32QuantizerIsAComparator :
    val .binary32 0x3F7EFF00 = .real (realOf .binary32 0x3F7EFF00) ∧
      0 < realOf .binary32 0x3F7EFF00 ∧ realOf .binary32 0x3F7EFF00 ≤ 1 ∧
      val .binary32 0x3F800000 = .real 1 := by decide +kernel

/-- The neighbours of the one exception. -/
theorem witness_Binary64QuantizerHasOneException :
    val .binary64 0x3FEF7F7F7F7F7F81 = .real (realOf .binary64 0x3FEF7F7F7F7F7F81) ∧
      0 < realOf .binary64 0x3FEF7F7F7F7F7F81 ∧ realOf .binary64 0x3FEF7F7F7F7F7F81 ≤ 1 ∧
      val .binary64 0x3FEF7F7F7F7F7F7F = .real (level .binary64 251) := by decide +kernel

theorem epsilon_ok : EpsilonOk .binary32 Config.epsilon32 ∧ EpsilonOk .binary64 Config.epsilon64 := by
  refine ⟨⟨?_, ?_⟩, ⟨?_, ?_⟩⟩ <;> decide +kernel

/-- The greatest EPSILON a build may choose. -/
theorem witness_DivisorIsALevel :
    EpsilonOk .binary32 Config.leastLevel32 ∧ EpsilonOk .binary64 Config.leastLevel64 := by
  refine ⟨⟨?_, ?_⟩, ⟨?_, ?_⟩⟩ <;> decide +kernel

/-- The source's second scenario. -/
theorem witness_EncodeIsTheFiveSteps :
    EpsilonOk .binary32 Config.epsilon32 ∧ norm .binary32 0x40400000 = 1 / 2 ∧
      norm .binary32 0 = 0 ∧
      (1 / 2 : Rat) = min (max (realOf .binary32 Config.epsilon32) (max (1 / 2) (max 0 0))) 1 ∧
      ((128 : Nat) : Int) = ⌈rn .binary32 (1 / 2 * 255)⌉ :=
  ⟨epsilon_ok.1, by decide +kernel, by decide +kernel, by decide +kernel, by decide +kernel⟩

theorem witness_OutputFieldsHoldTheValues : Config.thisBuild.epsilonOk = true := by decide

theorem witness_EveryOutputFieldIsInUnit : Config.thisBuild.wf = true := by decide

/-- 6.0, 12.0 and +infinity. -/
theorem witness_ChannelsAboveRangeArePinned :
    Pinned .binary32 0x40C00000 ∧ Pinned .binary32 0x41400000 ∧ Pinned .binary32 0x7F800000 ∧
      Pinned .binary64 0x4018000000000000 ∧ Pinned .binary64 0x7FF0000000000000 :=
  ⟨.inr ⟨6, by decide +kernel, by decide +kernel⟩, .inr ⟨12, by decide +kernel, by decide +kernel⟩,
    .inl (by decide), .inr ⟨6, by decide +kernel, by decide +kernel⟩, .inl (by decide)⟩

/-- A NaN, -1.0 and the least subnormal all normalize to 0. -/
theorem witness_BlackPixelGivesTheLeastLevel : Config.thisBuild.wf = true ∧
    norm .binary32 0x7FC00000 = 0 ∧ norm .binary32 0xBF800000 = 0 ∧ norm .binary32 1 = 0 ∧
    norm .binary64 0x7FF0000000000001 = 0 ∧ norm .binary64 0x8000000000000000 = 0 ∧
    norm .binary64 0xFFF0000000000000 = 0 := by decide +kernel

theorem witness_ClampNeverActsInBinary32 : EpsilonOk .binary32 Config.epsilon32 := epsilon_ok.1

/-- Vector E14: the quotient of R does exceed 1; that of E2 does not. -/
theorem witness_ClampActsForOneBinary64Peak : EpsilonOk .binary64 Config.epsilon64 ∧
    1 < (encodeQuotients .binary64 Config.epsilon64 0x40179F9F9F9F9FA0 0 0).r ∧
    ¬ 1 < (encodeQuotients .binary64 Config.epsilon64 0x4008000000000000 0 0).r :=
  ⟨epsilon_ok.2, by decide +kernel, by decide +kernel⟩

theorem witness_EpsilonIsNotObservable : Config.thisBuild.epsilonOk = true ∧
    ({ Config.thisBuild with eps32 := 1, eps64 := 0x3F70101010101010 } : Build).epsilonOk = true := by
  decide

/-- The bounds of the range. -/
theorem witness_ReconstructionIsWithinBound : EpsilonOk .binary32 Config.epsilon32 ∧
    InRange .binary32 0x40C00000 ∧ InRange .binary32 0x80000000 ∧
    InRange .binary64 0x4018000000000000 :=
  ⟨epsilon_ok.1, ⟨6, by decide +kernel, by decide +kernel, by decide +kernel⟩,
    ⟨0, by decide +kernel, by decide +kernel, by decide +kernel⟩,
    ⟨6, by decide +kernel, by decide +kernel, by decide +kernel⟩⟩

theorem witness_RescaledPixelDecodesClose : EpsilonOk .binary32 Config.epsilon32 ∧
    InRange .binary32 0x40C00000 ∧ InRange .binary32 0x3F800000 :=
  ⟨epsilon_ok.1, ⟨6, by decide +kernel, by decide +kernel, by decide +kernel⟩,
    ⟨1, by decide +kernel, by decide +kernel, by decide +kernel⟩⟩

end Sys2Proof.Tests
end

/-!
PROOFS about a clock edge of the block and its output offer (spec/10_state.md rules R38, R39 and R41):
first the facts about the ports, the queue and the step that the obligations use, then the obligations.
-/

namespace Sys2Proof.Proofs

open Sys2Proof Sys2Proof.Machine Sys2Proof.Laws

/-! ### The output ports and the block's choice -/

@[simp] theorem portsOut_outValid (s : State) (p : PortsIn) :
    (s.portsOut p).outValid = s.outValid p.rst := rfl
@[simp] theorem portsOut_outData (s : State) (p : PortsIn) :
    (s.portsOut p).outData = s.outData p.rst := rfl
@[simp] theorem portsOut_inReady (s : State) (p : PortsIn) :
    (s.portsOut p).inReady = s.inReady p.rst p.outReady := rfl
@[simp] theorem portsOut_busy (s : State) (p : PortsIn) : (s.portsOut p).busy = s.busy p.rst := rfl

@[simp] theorem choosing_choice (s : State) (c : Choice) : (s.choosing c).choice = c := rfl
@[simp] theorem choosing_offered (s : State) (c : Choice) : (s.choosing c).offered = s.offered := rfl
@[simp] theorem choosing_headOld (s : State) (c : Choice) : (s.choosing c).headOld = s.headOld := rfl

/-- `busy` outside a reset is a Q that is not empty (rule R41). -/
theorem busy_iff (s : State) (rst : Bool) : s.busy rst = true ↔ rst = false ∧ s.q ≠ [] := by
  simp [State.busy]

/-- `out_data` of a valid offer, for the head that is known (rule R39 item 2). -/
theorem outData_of_head {s : State} {rst : Bool} {e : Entry} {rest : List Entry}
    (hv : s.outValid rst = true) (hq : s.q = e :: rest) :
    s.outData rst = encodeBeat s.build e.beat := by
  obtain ⟨e', rest', hq', -, hdata⟩ := outData_of_valid hv
  obtain ⟨rfl, rfl⟩ := List.cons.inj (hq.symm.trans hq')
  exact hdata

/-- An old head that was offered and not taken is offered outside a reset, whatever the choice
(rule R39 item 3). -/
theorem outValid_of_offered {s : State} {e : Entry} {rest : List Entry} (hq : s.q = e :: rest)
    (hage : s.build.latency ≤ e.age) (ho : s.offered = true) : s.outValid false = true :=
  (outValid_iff s false).2 ⟨rfl, (headOld_iff s).2 ⟨e, rest, hq, hage⟩, .inl ho⟩

/-! ### The queue at an edge -/

/-- Q' in one expression: what is left of Q, aged, and the accepted beat at age 1 (rule R38). -/
theorem nextQueue_eq (q : List Entry) (d : Bool) (a : Option Instr) :
    nextQueue q d a = (if d then q.tail else q).map Entry.older ++
      a.toList.map fun b => { beat := b, age := 1 } := by
  cases a <;> simp [nextQueue]

/-- The entries that an edge lets in, each made from the accepted beat: none or one. -/
theorem map_accepted (s : State) (p : PortsIn) (f : Instr → Entry) :
    (s.accepted p).toList.map f = if s.accepts p then [f (decode p.inData)] else [] := by
  unfold State.accepted
  split <;> rfl

/-- A head that is not delivered stays the head, one edge older. -/
theorem transferEdge_head {s : State} {p : PortsIn} {e : Entry} {rest : List Entry}
    (hq : s.q = e :: rest) (hd : s.delivers p = false) :
    ∃ rest', (s.transferEdge p).q = e.older :: rest' :=
  ⟨_, by rw [transferEdge_q, nextQueue_eq, hd, hq]; rfl⟩

/-- An edge keeps |Q| <= DEPTH: a beat enters a full Q only while the head leaves it (rules R38 and R40). -/
theorem transferEdge_length_le {s : State} (p : PortsIn) (h : s.q.length ≤ s.build.depth) :
    (s.transferEdge p).q.length ≤ s.build.depth := by
  rw [transferEdge_q, length_nextQueue]
  rcases accepted_cases s p with ⟨-, -, hready, hacc⟩ | ⟨-, hacc⟩
  · rw [hacc, Option.toList_some, List.length_singleton]
    obtain ⟨-, hlt | ⟨heq, hv, ho⟩⟩ := inReady_room hready
    · split <;> omega
    · obtain ⟨e, rest, hq, -⟩ := outData_of_valid hv
      have hpos : 0 < s.q.length := by simp [hq]
      have hd : s.delivers p = true := by simp [State.delivers, hv, ho]
      rw [if_pos hd]
      omega
  · rw [hacc, Option.toList_none, List.length_nil]
    split <;> omega

/-! ### A step as a cycle on the host's ports -/

/-- Three adjacent fields put together are the low bits they were cut from. -/
theorem append_three_fields (w : Nat) {n : Nat} (bits : BitVec n) :
    fieldAt w 2 bits ++ (fieldAt w 1 bits ++ fieldAt w 0 bits) =
      bits.extractLsb' 0 (w + (w + w)) := by
  have low : fieldAt w 1 bits ++ fieldAt w 0 bits = bits.extractLsb' 0 (w + w) := by
    rw [fieldAt, fieldAt, Nat.zero_mul]
    exact BitVec.extractLsb'_append_extractLsb'_eq_extractLsb' (by omega)
  rw [low, fieldAt]
  exact BitVec.extractLsb'_append_extractLsb'_eq_extractLsb' (by omega)

/-- The fields of a beat put together again are the beat (rule R80). -/
theorem encode_decode (d : InData) : encode (decode d) = d := by
  cases d with
  | w96 bits =>
    exact congrArg InData.w96 ((append_three_fields 32 bits).trans BitVec.extractLsb'_eq_self)
  | w192 bits =>
    exact congrArg InData.w192 ((append_three_fields 64 bits).trans BitVec.extractLsb'_eq_self)

/-- While the host offers a beat outside a reset, its ports are those of that beat. -/
theorem beatPorts_of_offering {s : State} (hv : s.hostPorts.inValid = true)
    (hr : s.hostPorts.rst = false) : s.beatPorts (decode s.hostPorts.inData) = s.hostPorts := by
  have hready : s.hostPorts.outReady = s.hostOutReady := by
    unfold State.hostPorts State.hostOutReady
    rcases s.host.script with _ | ⟨l, ls⟩
    · rfl
    · cases l <;> rfl
  rw [State.beatPorts, encode_decode, ← hready, ← hv, ← hr]

/-- What the block does in a cycle of a step is a cycle on the host's ports. -/
theorem cycle_of_blockCycle {s u : State} (h : s.blockCycle = .next u) :
    s.cycle s.hostPorts = .next u := by
  unfold State.blockCycle State.offeredBeat at h
  by_cases hb : (s.hostPorts.inValid && !s.hostPorts.rst) = true
  · rw [if_pos hb] at h
    obtain ⟨hv, hr⟩ : s.hostPorts.inValid = true ∧ s.hostPorts.rst = false := by simpa using hb
    obtain ⟨-, hlive, rfl⟩ := exec_next h
    rw [beatPorts_of_offering hv hr]
    exact cycle_live hr hlive
  · rwa [if_neg hb] at h

/-- What comes after a cycle without reset has the block's part of the edge on the host's ports. -/
theorem stepsTo_transferEdge {s t : State} (h : s.StepsTo t) (hr : s.now.rst = false) :
    t.build = s.build ∧ t.q = (s.settle.transferEdge s.now).q ∧
      t.offered = (s.settle.transferEdge s.now).offered := by
  obtain ⟨u, hu, hbuild, -, hq, hoff, -⟩ := stepsTo_step h
  obtain ⟨v, hv, rfl⟩ := step_next hu
  rcases cycle_next (cycle_of_blockCycle hv) with ⟨hrst, -⟩ | ⟨-, -, rfl⟩
  · exact absurd (hr.symm.trans hrst) Bool.false_ne_true
  · exact ⟨hbuild, hq, hoff⟩

/-- A beat that is offered and not taken is offered unchanged in the next cycle, unless that is a reset
(rule R39 item 3). -/
theorem offer_stable {s t : State} (hst : s.StepsTo t) (hv : s.seen.outValid = true)
    (ho : s.now.outReady = false) (hr : t.now.rst = false) :
    t.seen.outValid = true ∧ t.seen.outData = s.seen.outData := by
  have hv' : s.settle.outValid s.now.rst = true := hv
  obtain ⟨hrst, -⟩ := (outValid_iff _ _).1 hv'
  obtain ⟨e, rest, hq, hage, hdata⟩ := outData_of_valid hv'
  obtain ⟨hbuild, hqt, hofft⟩ := stepsTo_transferEdge hst hrst
  have hd : s.settle.delivers s.now = false := by simp [State.delivers, ho]
  obtain ⟨rest', hq'⟩ := transferEdge_head hq hd
  have hhead : t.settle.q = e.older :: rest' := hqt.trans hq'
  have hold : t.settle.build.latency ≤ e.older.age := by
    rw [settle_build, hbuild]
    exact Nat.le_succ_of_le hage
  have hoff : t.settle.offered = true := by simp [hofft, hv', ho]
  have hvt : t.settle.outValid t.now.rst = true := hr ▸ outValid_of_offered hhead hold hoff
  refine ⟨hvt, ?_⟩
  calc t.settle.outData t.now.rst
      = encodeBeat t.settle.build e.older.beat := outData_of_head hvt hhead
    _ = encodeBeat s.settle.build e.beat := by rw [settle_build, hbuild, settle_build, older_beat]
    _ = s.settle.outData s.now.rst := hdata.symm

/-! ### The obligations -/

/-- Settles O11: an offer needs an old head and shows its result, an offer not taken is remembered with
the head in place, a fresh offer is the block's choice, and `out_ready` enters neither port. -/
theorem outputOfferFollowsItsRule : Obligations.OutputOfferFollowsItsRule := by
  refine ⟨fun s p hv => ?_, fun s t hst hv ho hr => offer_stable hst hv ho hr,
    fun s p hr hold hoff v => ?_, fun s p v => ⟨rfl, rfl⟩⟩
  · exact ⟨((outValid_iff s p.rst).1 hv).1, outData_of_valid hv⟩
  · refine ⟨{ offer := v, readyHeld := false, readyTaken := false }, ?_⟩
    simp [State.outValid, hr, hold, hoff]

/-- Settles O9: the edge with `rst` = 0 by the equation of Q' and its bound, the one with `rst` = 1 by the
reset edge. -/
theorem queueUpdateAtAnEdge : Obligations.QueueUpdateAtAnEdge := by
  refine fun s p => ⟨fun hlive hr => ?_, fun hr => ?_⟩
  · refine ⟨s.transferEdge p, cycle_live hr hlive, ?_, transferEdge_length_le p⟩
    rw [transferEdge_q, nextQueue_eq, map_accepted]
    rfl
  · exact ⟨s.resetEdge, cycle_reset s hr, rfl, rfl⟩

/-- Settles O14: `busy` is computed from `rst` and Q alone (rule R41). -/
theorem busyExactlyWhenInFlight : Obligations.BusyExactlyWhenInFlight :=
  fun s p => busy_iff s p.rst

end Sys2Proof.Proofs

/-!
PROOFS about the beats and the encodings of values (spec/30_encoding.md rules R80 to R82,
spec/45_scale_clamp.md rule R203): the fields of a word, the FMT values and what their encodings stand for,
and the values of an output pixel; then the obligations.
-/

namespace Sys2Proof.Proofs

open Sys2Proof Sys2Proof.Machine Sys2Proof.Laws

/-! ### The fields of a beat -/

/-- A field that lies within the word is a digit of the number the word was made from. -/
theorem fieldAt_ofNat {w k n : Nat} (h : (k + 1) * w ≤ n) (x : Nat) :
    fieldAt w k (BitVec.ofNat n x) = BitVec.ofNat w (x / 2 ^ (k * w)) := by
  refine BitVec.eq_of_getLsbD_eq fun i hi => ?_
  have hbit : k * w + i < n := by
    rw [Nat.add_one_mul] at h
    omega
  rw [fieldAt, BitVec.getLsbD_extractLsb', BitVec.getLsbD_ofNat, BitVec.getLsbD_ofNat,
    Nat.testBit_div_two_pow, Nat.add_comm i]
  simp [hi, hbit]

/-- A table word of the length of a beat is that beat. -/
theorem decodeTableWord_96 {w : Nat} (hw : w < 2 ^ 96) :
    decodeTableWord 96 w = some (decode (.w96 (BitVec.ofNat 96 w))) := by
  rw [decodeTableWord, Nat.mod_eq_of_lt hw]
  rfl

theorem decodeTableWord_192 {w : Nat} (hw : w < 2 ^ 192) :
    decodeTableWord 192 w = some (decode (.w192 (BitVec.ofNat 192 w))) := by
  rw [decodeTableWord, Nat.mod_eq_of_lt hw]
  rfl

/-- A field within the low part of a concatenation is a field of that part. -/
theorem fieldAt_append_low {w k v n : Nat} (h : (k + 1) * w ≤ n) (hi : BitVec v) (lo : BitVec n) :
    fieldAt w k (hi ++ lo) = fieldAt w k lo := by
  rw [Nat.add_one_mul] at h
  exact BitVec.extractLsb'_append_eq_of_add_le h

/-- The field right above a low part of `k` fields is the word put there. -/
theorem fieldAt_append_high {w k n : Nat} (h : n = k * w) (hi : BitVec w) (lo : BitVec n) :
    fieldAt w k (hi ++ lo) = hi := by
  subst h
  exact BitVec.extractLsb'_append_eq_left

/-- The fields of four words put together are the four words, the last one in field 0 (rule R81). -/
theorem fieldAt_four_append {w : Nat} (m b g r : BitVec w) :
    fieldAt w 0 (m ++ (b ++ (g ++ r))) = r ∧ fieldAt w 1 (m ++ (b ++ (g ++ r))) = g ∧
      fieldAt w 2 (m ++ (b ++ (g ++ r))) = b ∧ fieldAt w 3 (m ++ (b ++ (g ++ r))) = m := by
  refine ⟨?_, ?_, ?_, fieldAt_append_high (by omega) _ _⟩
  · rw [fieldAt_append_low (by omega), fieldAt_append_low (by omega), fieldAt_append_low (by omega),
      fieldAt, Nat.zero_mul, BitVec.extractLsb'_eq_self]
  · rw [fieldAt_append_low (by omega), fieldAt_append_low (by omega), fieldAt_append_high (by omega)]
  · rw [fieldAt_append_low (by omega), fieldAt_append_high (by omega)]

/-- The fields of a packed output beat (rule R203). -/
theorem fieldAt_pack32 (p : Rgbm) :
    fieldAt 32 0 (pack32 p) = enc .binary32 p.rgb.r ∧
      fieldAt 32 1 (pack32 p) = enc .binary32 p.rgb.g ∧
      fieldAt 32 2 (pack32 p) = enc .binary32 p.rgb.b ∧
      fieldAt 32 3 (pack32 p) = enc .binary32 p.m :=
  fieldAt_four_append (w := 32) _ _ _ _

theorem fieldAt_pack64 (p : Rgbm) :
    fieldAt 64 0 (pack64 p) = enc .binary64 p.rgb.r ∧
      fieldAt 64 1 (pack64 p) = enc .binary64 p.rgb.g ∧
      fieldAt 64 2 (pack64 p) = enc .binary64 p.rgb.b ∧
      fieldAt 64 3 (pack64 p) = enc .binary64 p.m :=
  fieldAt_four_append (w := 64) _ _ _ _

/-! ### FMT values and their encodings -/

theorem minExp_eq (f : Fmt) : f.minExp = 1 - f.bias - f.fracBits := by cases f <;> rfl
theorem two_pow_expBits (f : Fmt) : 2 ^ f.expBits = f.expMax + 1 := by cases f <;> rfl
theorem width_eq (f : Fmt) : f.width = f.expBits + f.fracBits + 1 := by cases f <;> rfl

theorem pow2_natCast (n : Nat) : pow2 n = ((2 ^ n : Nat) : Rat) := rfl

/-- The value of an encoding with sign bit 0 whose exponent field is not all ones, by its two fields. -/
theorem val_of_fields {f : Fmt} {e : Chan f} {expo frac : Nat}
    (he : e.toNat = expo * 2 ^ f.fracBits + frac) (hfrac : frac < 2 ^ f.fracBits)
    (hexpo : expo < f.expMax) :
    val f e = .real (if expo = 0 then (frac : Rat) * pow2 f.minExp
      else ((2 ^ f.fracBits + frac : Nat) : Rat) * pow2 ((expo : Int) - f.bias - f.fracBits)) := by
  have hlt : expo < 2 ^ f.expBits := by
    rw [two_pow_expBits]
    omega
  have hquot : e.toNat / 2 ^ f.fracBits = expo := by
    rw [he, mul_comm, Nat.mul_add_div (by positivity), Nat.div_eq_of_lt hfrac, add_zero]
  have hE : expField f e = expo := by rw [expField, hquot, Nat.mod_eq_of_lt hlt]
  have hF : fracField f e = frac := by
    rw [fracField, he, Nat.add_comm, Nat.add_mul_mod_self_right, Nat.mod_eq_of_lt hfrac]
  have hS : signBit f e = false := by
    rw [signBit, decide_eq_false_iff_not, not_le, pow_add, ← Nat.div_lt_iff_lt_mul (by positivity), hquot]
    exact hlt
  simp only [val, magnitude, hE, hF, hS, hexpo.ne, if_false, Bool.false_eq_true]

/-- The value of the encoding that counts `n` units of exponent `minExp + j`: `n` is below the next
power of 2, and has its leading bit unless the value is subnormal (rule R82). -/
theorem val_of_units {f : Fmt} {e : Chan f} {j n : Nat} (he : e.toNat = j * 2 ^ f.fracBits + n)
    (hn : n < 2 ^ (f.fracBits + 1)) (hlead : j = 0 ∨ 2 ^ f.fracBits ≤ n)
    (hj : j + 1 < f.expMax) : val f e = .real (n * pow2 (f.minExp + j)) := by
  rcases lt_or_ge n (2 ^ f.fracBits) with hsub | hnorm
  · obtain rfl : j = 0 := hlead.resolve_right (not_le.2 hsub)
    rw [val_of_fields he hsub (by omega), if_pos rfl, Nat.cast_zero, add_zero]
  · have he' : e.toNat = (j + 1) * 2 ^ f.fracBits + (n - 2 ^ f.fracBits) := by
      rw [he, Nat.add_one_mul]
      omega
    have hrest : n - 2 ^ f.fracBits < 2 ^ f.fracBits := by
      rw [pow_succ] at hn
      omega
    rw [val_of_fields he' hrest hj, if_neg (Nat.succ_ne_zero j), Nat.add_sub_cancel' hnorm, minExp_eq]
    congr 3
    push_cast
    ring

/-- A whole number of units no smaller than its own last place is an FMT value. -/
theorem rn_of_larger_units {f : Fmt} {x : Rat} {e : Int} (he : ulpExp f x ≤ e) (k : Int)
    (h : x = k * pow2 e) : rn f x = x := by
  obtain ⟨d, hd⟩ := Int.eq_ofNat_of_zero_le (sub_nonneg.2 he)
  refine rn_of_units (k * 2 ^ d) ?_
  calc x = k * pow2 (d + ulpExp f x) := by rw [← hd, sub_add_cancel, ← h]
    _ = ((k * 2 ^ d : Int) : Rat) * pow2 (ulpExp f x) := by
      rw [pow2_add, pow2_natCast]
      push_cast
      ring

/-- A value below 2^(e + F + 1) has a last place of at most e. -/
theorem ulpExp_le {f : Fmt} {x : Rat} {e : Int} (hx : x ≠ 0) (hmin : f.minExp ≤ e)
    (h : |x| < pow2 (e + f.fracBits + 1)) : ulpExp f x ≤ e := by
  have := pow2_lt.1 ((ilog2_spec hx).1.trans_lt h)
  unfold ulpExp
  omega

/-- The nearest integer keeps to whole bounds on the magnitude. -/
theorem abs_roundEven_le {q : Rat} {n : Int} (h : |q| ≤ n) : |roundEven q| ≤ n := by
  obtain ⟨hlo, hhi⟩ := abs_le.1 h
  exact abs_le.2 ⟨(roundEven_int (-n)).symm.trans_le (roundEven_mono ((Int.cast_neg n).trans_le hlo)),
    (roundEven_mono hhi).trans_eq (roundEven_int n)⟩

/-- A value has at most F + 1 bits above its last place. -/
theorem abs_lt_pow2 (f : Fmt) {v : Rat} (hv : v ≠ 0) :
    |v| < pow2 (ulpExp f v + f.fracBits + 1) := by
  refine (ilog2_spec hv).2.trans_le (pow2_le.2 ?_)
  unfold ulpExp
  omega

/-- Rounding to units of its own last place does not carry a value past the next power of 2. -/
theorem abs_rn_le_pow2 (f : Fmt) {v : Rat} (hv : v ≠ 0) :
    |rn f v| ≤ pow2 (ulpExp f v + f.fracBits + 1) := by
  have hp := pow2_pos (ulpExp f v)
  have hsplit : pow2 (ulpExp f v + f.fracBits + 1) =
      ((2 ^ (f.fracBits + 1) : Int) : Rat) * pow2 (ulpExp f v) := by
    rw [add_assoc, add_comm, pow2_add]
    rfl
  have hq : |v / pow2 (ulpExp f v)| ≤ ((2 ^ (f.fracBits + 1) : Int) : Rat) := by
    rw [abs_div, abs_of_pos hp, div_le_iff₀ hp, ← hsplit]
    exact (abs_lt_pow2 f hv).le
  rw [hsplit, rn, abs_mul, abs_of_pos hp]
  exact mul_le_mul_of_nonneg_right (by exact_mod_cast abs_roundEven_le hq) hp.le

/-- RN gives an FMT value: it stays below the next power of 2 and keeps its last place, or reaches that
power, which is 2^F units of the next exponent. -/
theorem rn_rn (f : Fmt) (v : Rat) : rn f (rn f v) = rn f v := by
  by_cases hx : rn f v = 0
  · rw [hx, rn_zero]
  have hmin : f.minExp ≤ ulpExp f v := le_max_left _ _
  rcases (abs_rn_le_pow2 f fun h => hx (h ▸ rn_zero f)).lt_or_eq with hlt | heq
  · exact rn_of_larger_units (ulpExp_le hx hmin hlt) _ rfl
  · have hulp : ulpExp f (rn f v) ≤ ulpExp f v + 1 :=
      ulpExp_le hx (by omega) (heq ▸ pow2_lt.2 (by omega))
    have hpow : pow2 (ulpExp f v + f.fracBits + 1) =
        ((2 ^ f.fracBits : Int) : Rat) * pow2 (ulpExp f v + 1) := by
      rw [add_right_comm, add_comm, pow2_add]
      rfl
    rcases abs_eq_abs.1 (heq.trans (abs_of_pos (pow2_pos _)).symm) with h | h
    · exact rn_of_larger_units hulp (2 ^ f.fracBits) (h.trans hpow)
    · refine rn_of_larger_units hulp (-2 ^ f.fracBits) (h.trans ?_)
      rw [hpow, Int.cast_neg, neg_mul]

/-- A positive FMT value is a count of its last-place units with at most F + 1 bits, and with exactly
that many unless the last place is that of the subnormals (rule R82). -/
theorem exists_units {f : Fmt} {x : Rat} (hx : rn f x = x) (hpos : 0 < x) :
    ∃ n : Nat, x = n * pow2 (ulpExp f x) ∧ n < 2 ^ (f.fracBits + 1) ∧
      (ulpExp f x = f.minExp ∨ 2 ^ f.fracBits ≤ n) := by
  have hp := pow2_pos (ulpExp f x)
  have hk : x = roundEven (x / pow2 (ulpExp f x)) * pow2 (ulpExp f x) := hx.symm
  obtain ⟨n, hn⟩ := Int.eq_ofNat_of_zero_le (a := roundEven (x / pow2 (ulpExp f x)))
    (by exact_mod_cast (pos_of_mul_pos_left (hpos.trans_eq hk) hp.le).le)
  rw [hn, Int.cast_natCast] at hk
  have hscale (m : Nat) : pow2 (ulpExp f x + m) = ((2 ^ m : Nat) : Rat) * pow2 (ulpExp f x) := by
    rw [add_comm, pow2_add, pow2_natCast]
  refine ⟨n, hk, ?_, or_iff_not_imp_left.2 fun hnormal => ?_⟩
  · have hlt := abs_lt_pow2 f hpos.ne'
    rw [abs_of_pos hpos, add_assoc, ← Nat.cast_succ, hscale] at hlt
    exact_mod_cast lt_of_mul_lt_mul_right (hk.symm.trans_lt hlt) hp.le
  · have hlog : ulpExp f x + f.fracBits = ilog2 x := by
      unfold ulpExp at hnormal ⊢
      omega
    have hle := (ilog2_spec hpos.ne').1
    rw [abs_of_pos hpos, ← hlog, hscale] at hle
    exact_mod_cast le_of_mul_le_mul_right (hle.trans_eq hk) hp

/-- enc of a positive FMT value counts its units above the exponent field (rule R82). -/
theorem toNat_enc {f : Fmt} {x : Rat} {n : Nat} (hx : 0 < x) (hn : x = n * pow2 (ulpExp f x))
    (hlt : n < 2 ^ (f.fracBits + 1)) {j : Nat} (hj : ulpExp f x = f.minExp + j)
    (hmax : j + 1 < f.expMax) : (enc f x).toNat = j * 2 ^ f.fracBits + n := by
  have hcount : encMagnitude f x = ((j * 2 ^ f.fracBits + n : Nat) : Int) := by
    have hq : x / pow2 (ulpExp f x) = n := by rw [div_eq_iff (pow2_pos _).ne', ← hn]
    rw [encMagnitude, hq, hj, add_sub_cancel_left, ← Int.cast_natCast n, Rat.floor_intCast]
    push_cast
    rfl
  have hfits : j * 2 ^ f.fracBits + n < 2 ^ f.width := by
    have hexp : j + 2 ≤ 2 ^ f.expBits := by
      rw [two_pow_expBits]
      omega
    calc j * 2 ^ f.fracBits + n < (j + 2) * 2 ^ f.fracBits := by
          rw [pow_succ] at hlt
          rw [Nat.add_mul]
          omega
      _ ≤ 2 ^ f.expBits * 2 ^ f.fracBits := Nat.mul_le_mul_right _ hexp
      _ ≤ 2 ^ f.width := by
          rw [← pow_add]
          exact Nat.pow_le_pow_right two_pos (width_eq f ▸ Nat.le_succ _)
  rw [enc, if_neg hx.ne', if_neg hx.not_gt, hcount, BitVec.ofInt_natCast, BitVec.toNat_ofNat,
    Nat.mod_eq_of_lt hfits]

/-- The encoding of a positive FMT value stands for that value, as long as its last place leaves the
exponent field below all ones (rule R13). -/
theorem val_enc_of_ulpExp {f : Fmt} {x : Rat} (hx : rn f x = x) (hpos : 0 < x)
    (hmax : ulpExp f x + 1 < f.minExp + f.expMax) : val f (enc f x) = .real x := by
  obtain ⟨n, hn, hlt, hlead⟩ := exists_units hx hpos
  obtain ⟨j, hj⟩ : ∃ j : Nat, ulpExp f x = f.minExp + j :=
    (Int.le.dest (le_max_left _ _)).imp fun _ h => h.symm
  have hj' : j + 1 < f.expMax := by omega
  rw [val_of_units (toNat_enc hpos hn hlt hj hj') hlt (hlead.imp_left (by omega)) hj', ← hj, ← hn]

/-- The encoding of an FMT value in [0, 1] stands for that value (rule R13). -/
theorem val_enc {f : Fmt} {x : Rat} (hx : rn f x = x) (h0 : 0 ≤ x) (h1 : x ≤ 1) :
    val f (enc f x) = .real x := by
  rcases h0.eq_or_lt with rfl | hpos
  · cases f <;> decide +kernel
  · have hone : ulpExp f 1 + 1 < f.minExp + f.expMax := by cases f <;> decide +kernel
    exact val_enc_of_ulpExp hx hpos (by linarith [ulpExp_mono f hpos h1])

/-! ### The values of an output pixel -/

theorem rn_one (f : Fmt) : rn f 1 = 1 := by cases f <;> decide +kernel

/-- The output clamp gives an FMT value for an FMT value (rule R201). -/
theorem rn_oclamp {f : Fmt} {d : Rat} (hd : rn f d = d) : rn f (oclamp d) = oclamp d := by
  unfold oclamp
  split_ifs
  · exact rn_zero f
  · exact rn_one f
  · exact hd

/-- The encoding of a clamped SCALE stands for it (rules R200 and R201). -/
theorem val_enc_oclamp_scale (f : Fmt) (c rho : Rat) :
    val f (enc f (oclamp (scale f c rho))) = .real (oclamp (scale f c rho)) :=
  val_enc (rn_oclamp (rn_rn f _)) (oclamp_nonneg _) (oclamp_le_one _)

/-- The peak is capped at 1, whatever the channels and EPSILON (rule R140). -/
theorem peak_le_one (f : Fmt) (eps : Chan f) (c : Rgb) : peak f eps c ≤ 1 := by
  unfold peak max3
  dsimp only
  split_ifs with h
  · exact h
  · exact le_rfl

/-- RN(m_raw * 255) of a peak up to 1 does not pass 255 (rule R161). -/
theorem scaledPeak_le (f : Fmt) {x : Rat} (h : x ≤ 1) : scaledPeak f x ≤ 255 := by
  have h255 : rn f 255 = 255 := by cases f <;> decide +kernel
  unfold scaledPeak Config.levels
  rcases le_total 0 x with h0 | h0
  · calc rn f (x * 255) ≤ rn f 255 := rn_mono f (by linarith) (by linarith)
      _ = 255 := h255
  · exact (rn_nonpos f (by linarith)).trans (by norm_num)

/-- The code of a peak up to 1 is at most 255 (rule R161). -/
theorem quantCode_le (f : Fmt) {x : Rat} (h : x ≤ 1) : quantCode f x ≤ 255 := by
  have hceil : (scaledPeak f x).ceil ≤ (255 : Int) :=
    Rat.ceil_le_iff.2 (by exact_mod_cast scaledPeak_le f h)
  unfold quantCode
  omega

/-- Every level up to m_255 is a value in [0, 1] (rule R162). -/
theorem level_mem_unit (f : Fmt) {k : Nat} (hk : k ≤ 255) : 0 ≤ level f k ∧ level f k ≤ 1 := by
  have h0 : (0 : Rat) ≤ k / 255 := by positivity
  have h1 : (k : Rat) / 255 ≤ 1 := (div_le_one (by norm_num)).2 (by exact_mod_cast hk)
  exact ⟨rn_nonneg f h0, (rn_mono f h0 h1).trans_eq (rn_one f)⟩

/-- The encoding of a level stands for it. -/
theorem val_enc_level (f : Fmt) {k : Nat} (hk : k ≤ 255) :
    val f (enc f (level f k)) = .real (level f k) :=
  val_enc (rn_rn f _) (level_mem_unit f hk).1 (level_mem_unit f hk).2

/-- The encodings of the four values of an output pixel stand for them exactly (rule R203). -/
theorem val_enc_encodeValues (f : Fmt) (eps r g b : Chan f) {v : Rgbm}
    (hv : v = encodeValues f eps r g b) :
    val f (enc f v.rgb.r) = .real v.rgb.r ∧ val f (enc f v.rgb.g) = .real v.rgb.g ∧
      val f (enc f v.rgb.b) = .real v.rgb.b ∧ val f (enc f v.m) = .real v.m := by
  subst hv
  exact ⟨val_enc_oclamp_scale f _ _, val_enc_oclamp_scale f _ _, val_enc_oclamp_scale f _ _,
    val_enc_level f (quantCode_le f (peak_le_one f eps _))⟩

/-! ### The obligations -/

/-- Settles O2: each field of the beat is a digit of the number it was made from. -/
theorem everyBeatIsAnEncode : Obligations.EveryBeatIsAnEncode := by
  refine ⟨fun w hw => ?_, fun w hw => ?_⟩
  · rw [decodeTableWord_96 hw, decode, fieldAt_ofNat (by decide), fieldAt_ofNat (by decide),
      fieldAt_ofNat (by decide), Nat.zero_mul, pow_zero, Nat.div_one]
  · rw [decodeTableWord_192 hw, decode, fieldAt_ofNat (by decide), fieldAt_ofNat (by decide),
      fieldAt_ofNat (by decide), Nat.zero_mul, pow_zero, Nat.div_one]

/-- Settles O51: PACK puts the four encodings side by side, and each of the values, the clamped quotients as
well as the level, is an FMT value in [0, 1]. -/
theorem outputFieldsHoldTheValues : Obligations.OutputFieldsHoldTheValues := by
  refine ⟨fun build r g b _ => ?_, fun build r g b _ => ?_⟩
  · obtain ⟨hr, hg, hb, hm⟩ := fieldAt_pack32 (encodeValues .binary32 build.eps32 r g b)
    exact ⟨_, _, rfl, rfl, rfl, hr, hg, hb, hm, val_enc_encodeValues .binary32 build.eps32 r g b rfl⟩
  · obtain ⟨hr, hg, hb, hm⟩ := fieldAt_pack64 (encodeValues .binary64 build.eps64 r g b)
    exact ⟨_, _, rfl, rfl, rfl, hr, hg, hb, hm, val_enc_encodeValues .binary64 build.eps64 r g b rfl⟩

end Sys2Proof.Proofs

/-!
PROOFS about the composition ENCODE (spec/40_encode.md rule R100): each unit of the datapath in terms of
max, min and ceil of the rationals, the composition of the units, and then the obligation.
-/

namespace Sys2Proof.Proofs

open Sys2Proof Sys2Proof.Machine Sys2Proof.Laws

/-! ### The units in terms of max, min and ceil -/

/-- MAX3 floors the greatest channel at EPSILON and caps it at 1 (rule R140). -/
theorem max3_eq (eps a b c : Rat) : max3 eps a b c = min (max eps (max a (max b c))) 1 := by
  simp only [max3, maxOf_eq_max, max_assoc, min_def]

/-- OCLAMP is the clamp to [0, 1] (rule R201). -/
theorem oclamp_eq (d : Rat) : oclamp d = max 0 (min d 1) := by
  unfold oclamp
  split_ifs with hneg hbig
  · rw [min_eq_left (by linarith), max_eq_left hneg.le]
  · rw [min_eq_right hbig.le, max_eq_right zero_le_one]
  · rw [min_eq_left (not_lt.1 hbig), max_eq_right (not_lt.1 hneg)]

/-- The ceil of the core library is the ceil of the ordered field of rationals. -/
theorem ratCeil_eq_intCeil (q : Rat) : q.ceil = ⌈q⌉ :=
  eq_of_forall_ge_iff fun _ => Rat.ceil_le_iff.trans Int.ceil_le.symm

/-- The code of QUANT is ceil(RN(m_raw * 255)) (rule R160). -/
theorem quantCode_eq (f : Fmt) (mRaw : Rat) : quantCode f mRaw = ⌈rn f (mRaw * 255)⌉.toNat :=
  congrArg Int.toNat (ratCeil_eq_intCeil _)

/-- OCLAMP of SCALE by RECIP is the clamped quotient, rounded once (rules R180, R200 and R201). -/
theorem oclamp_scale_recip (f : Fmt) (c m : Rat) :
    oclamp (scale f c (recip m)) = max 0 (min (rn f (c / m)) 1) := by
  rw [oclamp_eq, scale_recip]

/-- The values of ENCODE from its level: it divides the three normalized channels (rule R100). -/
theorem encodeValues_eq (f : Fmt) (eps r g b : Chan f) {m : Rat}
    (hm : (quant f (peak f eps (normPixel f r g b))).2 = m) :
    encodeValues f eps r g b =
      { rgb := { r := max 0 (min (rn f (norm f r / m)) 1)
                 g := max 0 (min (rn f (norm f g / m)) 1)
                 b := max 0 (min (rn f (norm f b / m)) 1) }
        m := m } := by
  subst hm
  simp only [encodeValues, encodeQuotients, clampPixel, quotients, Rgb.lanes, oclamp_scale_recip,
    normPixel]

/-! ### The obligation -/

/-- Settles O50: MAX3 gives the peak, QUANT its code and level, and the clamp acts on the channels divided
by that level; the fields of the port are those of the decoder and of PACK. -/
theorem encodeIsTheFiveSteps : Obligations.EncodeIsTheFiveSteps := by
  refine ⟨?_, ?_, ?_⟩
  · rintro f eps r g b - cr cg cb mRaw m k rfl rfl rfl hpeak hk rfl
    have hmax : peak f eps (normPixel f r g b) = mRaw := (max3_eq _ _ _ _).trans hpeak.symm
    have hcode : quantCode f mRaw = k := by rw [quantCode_eq, ← hk, Int.toNat_natCast]
    exact encodeValues_eq f eps r g b (by rw [hmax, quant, hcode, level, Config.levels])
  · rintro build beat v rfl
    rfl
  · rintro build beat v rfl
    rfl

end Sys2Proof.Proofs

/-!
PROOFS about NORM (spec/41_normalize.md rules R120 to R126): NORM on each class of encoding, the channels
whose sixth is below the least normal value, and then the obligations.
-/

namespace Sys2Proof.Proofs

open Sys2Proof Sys2Proof.Machine Sys2Proof.Laws

/-! ### NORM on each class -/

theorem norm_of_nan {f : Fmt} {e : Chan f} (h : val f e = .nan) : norm f e = 0 := by
  rw [Machine.norm, h]

theorem norm_of_negInf {f : Fmt} {e : Chan f} (h : val f e = .inf true) : norm f e = 0 := by
  rw [Machine.norm, h]

theorem norm_of_posInf {f : Fmt} {e : Chan f} (h : val f e = .inf false) : norm f e = 1 := by
  rw [Machine.norm, h]

/-- NORM of a finite channel is RN(v / 6) clamped to [0, 1] (rule R120). -/
theorem norm_of_real {f : Fmt} {e : Chan f} {v : Rat} (h : val f e = .real v) :
    norm f e = max 0 (min (rn f (v / 6)) 1) := by
  rw [Machine.norm, h]
  dsimp only [Config.range]
  split_ifs with hneg hbig
  · rw [max_eq_left ((min_le_left _ _).trans hneg)]
  · rw [min_eq_right hbig.le, max_eq_right zero_le_one]
  · rw [min_eq_left (not_lt.1 hbig), max_eq_right (not_le.1 hneg).le]

theorem norm_of_rn_nonpos {f : Fmt} {e : Chan f} {v : Rat} (h : val f e = .real v)
    (hq : rn f (v / 6) ≤ 0) : norm f e = 0 := by
  rw [norm_of_real h, max_eq_left ((min_le_left _ _).trans hq)]

theorem norm_of_one_le_rn {f : Fmt} {e : Chan f} {v : Rat} (h : val f e = .real v)
    (hq : 1 ≤ rn f (v / 6)) : norm f e = 1 := by
  rw [norm_of_real h, min_eq_right hq, max_eq_right zero_le_one]

theorem norm_of_rn_mem_unit {f : Fmt} {e : Chan f} {v : Rat} (h : val f e = .real v)
    (h0 : 0 ≤ rn f (v / 6)) (h1 : rn f (v / 6) ≤ 1) : norm f e = rn f (v / 6) := by
  rw [norm_of_real h, min_eq_left h1, max_eq_right h0]

/-- RN keeps the quotient of a channel in [0, RANGE] within [0, 1]. -/
theorem norm_of_mem_range {f : Fmt} {e : Chan f} {v : Rat} (h : val f e = .real v)
    (h0 : 0 ≤ v) (h6 : v ≤ 6) : norm f e = rn f (v / 6) := by
  have hq0 : 0 ≤ v / 6 := by linarith
  have hq1 : v / 6 ≤ 1 := by linarith
  exact norm_of_rn_mem_unit h (rn_nonneg f hq0) ((rn_mono f hq0 hq1).trans_eq (rn_one f))

/-- RN does not bring the quotient of a channel from RANGE on below 1 (rule R123). -/
theorem norm_of_six_le {f : Fmt} {e : Chan f} {v : Rat} (h : val f e = .real v) (h6 : 6 ≤ v) :
    norm f e = 1 := by
  have hq : 1 ≤ v / 6 := by linarith
  exact norm_of_one_le_rn h ((rn_one f).symm.trans_le (rn_mono f zero_le_one hq))

/-! ### Channels whose sixth is subnormal -/

/-- A finite encoding counts whole units, of the subnormals or of a power of 2 above, with at most F + 1
bits (rule R82). -/
theorem magnitude_eq_units (f : Fmt) (e : Chan f) :
    ∃ n j : Nat, magnitude f e = n * pow2 (f.minExp + j) ∧ n < 2 ^ (f.fracBits + 1) := by
  have hfrac : fracField f e < 2 ^ f.fracBits := Nat.mod_lt _ (by positivity)
  unfold magnitude
  split_ifs with hsub
  · refine ⟨fracField f e, 0, by rw [Nat.cast_zero, add_zero], ?_⟩
    rw [pow_succ]
    omega
  · refine ⟨2 ^ f.fracBits + fracField f e, expField f e - 1, ?_, ?_⟩
    · congr 2
      rw [minExp_eq]
      omega
    · rw [pow_succ]
      omega

/-- A positive value of an encoding is its magnitude. -/
theorem eq_magnitude_of_pos {f : Fmt} {e : Chan f} {v : Rat} (h : val f e = .real v) (hv : 0 < v) :
    v = magnitude f e := by
  have hmag : 0 ≤ magnitude f e := by
    obtain ⟨n, j, hunits, -⟩ := magnitude_eq_units f e
    exact hunits ▸ mul_nonneg n.cast_nonneg (pow2_pos _).le
  unfold val at h
  split_ifs at h with _ _ hneg <;> cases h
  · linarith
  · rfl

/-- No channel has its sixth within half a unit below the least normal value. From 4 * 2^F units of the
subnormals on the channels lie at least 4 units apart, so the last one below 6 * 2^F is 4 units lower. -/
theorem units_gap {f : Fmt} {n j : Nat} (hn : n < 2 ^ (f.fracBits + 1))
    (h : n * 2 ^ j < 6 * 2 ^ f.fracBits) : n * 2 ^ j + 4 ≤ 6 * 2 ^ f.fracBits := by
  have hF : 4 ∣ 2 ^ f.fracBits := pow_dvd_pow 2 (by cases f <;> decide : 2 ≤ f.fracBits)
  have hpos : 0 < 2 ^ f.fracBits := by positivity
  rcases lt_or_ge j 2 with hj | hj
  · have hle : n * 2 ^ j ≤ n * 2 ^ 1 :=
      Nat.mul_le_mul_left n (Nat.pow_le_pow_right two_pos (Nat.le_of_lt_succ hj))
    rw [pow_succ] at hn
    omega
  · have hdvd : 4 ∣ n * 2 ^ j := (pow_dvd_pow 2 hj).mul_left n
    omega

/-- The last place of a value below the least normal one is that of the subnormals. -/
theorem ulpExp_of_subnormal {f : Fmt} {x : Rat} (hx : 0 < x) (h : x < pow2 (f.minExp + f.fracBits)) :
    ulpExp f x = f.minExp := by
  refine le_antisymm (ulpExp_le hx.ne' le_rfl ?_) (le_max_left _ _)
  rw [abs_of_pos hx]
  exact h.trans (pow2_lt.2 (by omega))

/-- A positive channel below six times the least normal value counts whole units of the subnormals, at
least 4 fewer than 6 * 2^F. -/
theorem exists_units_below_six_leastNormal {f : Fmt} {e : Chan f} {v : Rat} (h : val f e = .real v)
    (hv : 0 < v) (hsmall : v / 6 < pow2 (f.minExp + f.fracBits)) :
    ∃ m : Nat, v = m * pow2 f.minExp ∧ m + 4 ≤ 6 * 2 ^ f.fracBits := by
  obtain ⟨n, j, hunits, hn⟩ := magnitude_eq_units f e
  have hm : v = ((n * 2 ^ j : Nat) : Rat) * pow2 f.minExp := by
    rw [eq_magnitude_of_pos h hv, hunits, add_comm, pow2_add, pow2_natCast, Nat.cast_mul, mul_assoc]
  refine ⟨n * 2 ^ j, hm, units_gap hn ?_⟩
  have hlt : ((n * 2 ^ j : Nat) : Rat) * pow2 f.minExp <
      ((6 * 2 ^ f.fracBits : Nat) : Rat) * pow2 f.minExp := by
    rw [add_comm, pow2_add, pow2_natCast] at hsmall
    rw [← hm, Nat.cast_mul, Nat.cast_ofNat]
    linarith
  exact_mod_cast lt_of_mul_lt_mul_right hlt (pow2_pos _).le

/-- The nearest integer stays below a whole bound that is more than 1/2 away. -/
theorem roundEven_lt {q : Rat} {n : Int} (h : q < n - 1 / 2) : roundEven q < n := by
  have herr := (abs_le.1 (roundEven_error q)).1
  have : (roundEven q : Rat) < n := by linarith
  exact_mod_cast this

/-- RN of the sixth of a positive channel is a subnormal or 0 if the sixth is below the least normal value:
it does not round up to that value (rule R126). -/
theorem rn_sixth_eq_subnormal {f : Fmt} {e : Chan f} {v : Rat} (h : val f e = .real v) (hv : 0 < v)
    (hsmall : v / 6 < pow2 (f.minExp + f.fracBits)) :
    ∃ n : Nat, n < 2 ^ f.fracBits ∧ rn f (v / 6) = n * pow2 f.minExp := by
  have hp := pow2_pos f.minExp
  have hsixth : 0 < v / 6 := by linarith
  obtain ⟨m, hm, hgap⟩ := exists_units_below_six_leastNormal h hv hsmall
  have hq : v / 6 / pow2 f.minExp = m / 6 := by
    rw [hm]
    field_simp
  have hrn : rn f (v / 6) = roundEven (m / 6) * pow2 f.minExp := by
    rw [rn, ulpExp_of_subnormal hsixth hsmall, hq]
  have hnonneg : 0 ≤ roundEven (m / 6) := by
    exact_mod_cast nonneg_of_mul_nonneg_left ((rn_nonneg f hsixth.le).trans_eq hrn) hp
  have hlt : roundEven (m / 6) < ((2 ^ f.fracBits : Nat) : Int) := by
    have hgapQ : (m : Rat) + 4 ≤ 6 * ((2 ^ f.fracBits : Nat) : Rat) := by exact_mod_cast hgap
    refine roundEven_lt ?_
    rw [Int.cast_natCast]
    linarith
  obtain ⟨n, hn⟩ := Int.eq_ofNat_of_zero_le hnonneg
  rw [hn] at hrn hlt
  exact ⟨n, by exact_mod_cast hlt, hrn⟩

/-- A count below 2^F is the encoding of that many units of the subnormals (rule R82). -/
theorem exists_subnormal_encoding {f : Fmt} {n : Nat} (hn : n < 2 ^ f.fracBits) :
    ∃ c : Chan f, signBit f c = false ∧ expField f c = 0 ∧ val f c = .real (n * pow2 f.minExp) := by
  have hc : (BitVec.ofNat f.width n).toNat = n := by
    refine Nat.mod_eq_of_lt (hn.trans_le (Nat.pow_le_pow_right two_pos ?_))
    rw [width_eq]
    omega
  refine ⟨BitVec.ofNat f.width n, ?_, ?_, ?_⟩
  · have : 2 ^ f.fracBits ≤ 2 ^ (f.expBits + f.fracBits) :=
      Nat.pow_le_pow_right two_pos (Nat.le_add_left _ _)
    rw [signBit, hc, decide_eq_false_iff_not]
    omega
  · rw [expField, hc, Nat.div_eq_of_lt hn, Nat.zero_mod]
  · have hmax : 0 + 1 < f.expMax := by cases f <;> decide
    rw [val_of_units (by rw [hc, Nat.zero_mul, Nat.zero_add]) (hn.trans (Nat.pow_lt_pow_succ one_lt_two))
      (.inl rfl) hmax, Nat.cast_zero, add_zero]

/-! ### The obligations -/

/-- Settles O39: NORM clamps RN(v / 6) of a finite channel to [0, 1], and RN, being monotone, keeps the
quotient on its side of 0 and of 1. -/
theorem normalizationOfEveryClass : Obligations.NormalizationOfEveryClass := by
  refine fun f e => ⟨norm_of_nan, norm_of_negInf, norm_of_posInf, fun v h =>
    ⟨norm_of_rn_nonpos h, fun hq => norm_of_one_le_rn h hq.le,
      fun h0 => norm_of_rn_mem_unit h h0.le, fun h0 => ?_, norm_of_six_le h,
      fun h0 h6 => norm_of_mem_range h h0.le h6.le⟩⟩
  exact norm_of_rn_nonpos h (rn_nonpos f (by linarith))

/-- Settles O40: the quotient has the last place of the subnormals, so RN is off by at most half of that
unit, and counts fewer than 2^F of them. -/
theorem underflowIsGradual : Obligations.UnderflowIsGradual := by
  refine ⟨fun f e v h hv hsmall => ?_, by decide +kernel⟩
  have hone : pow2 (f.minExp + f.fracBits) ≤ 1 := by cases f <;> decide +kernel
  have hnorm : norm f e = rn f (v / 6) := norm_of_mem_range h hv.le (by linarith)
  obtain ⟨n, hn, hrn⟩ := rn_sixth_eq_subnormal h hv hsmall
  rw [hnorm]
  refine ⟨rfl, ?_, hrn ▸ exists_subnormal_encoding hn⟩
  rw [abs_sub_comm, ← ulpExp_of_subnormal (by linarith : 0 < v / 6) hsmall]
  exact rn_error f (v / 6)

end Sys2Proof.Proofs

/-!
PROOFS about MAX3 (spec/42_max3.md rules R140, R141 and R144): the cap, the operand that is the result, the
floor, and then the obligation.
-/

namespace Sys2Proof.Proofs

open Sys2Proof Sys2Proof.Machine Sys2Proof.Laws

/-- The cap of MAX3 does not act on operands up to 1 (rule R144). -/
theorem max3_of_le_one {eps a b c : Rat} (he : eps ≤ 1) (ha : a ≤ 1) (hb : b ≤ 1) (hc : c ≤ 1) :
    max3 eps a b c = max eps (max a (max b c)) := by
  rw [max3_eq, min_eq_left (max_le he (max_le ha (max_le hb hc)))]

/-- The greatest of four values is one of them (rule R140). -/
theorem max_max_max_choice (eps a b c : Rat) :
    max eps (max a (max b c)) = eps ∨ max eps (max a (max b c)) = a ∨
      max eps (max a (max b c)) = b ∨ max eps (max a (max b c)) = c := by
  rcases max_choice eps (max a (max b c)) with h | h <;> rw [h]
  · exact .inl rfl
  rcases max_choice a (max b c) with h | h <;> rw [h]
  · exact .inr (.inl rfl)
  exact .inr (.inr (max_choice b c))

theorem max3_le_one (eps a b c : Rat) : max3 eps a b c ≤ 1 :=
  (max3_eq eps a b c).trans_le (min_le_right _ _)

/-- Channels up to EPSILON give EPSILON (rule R141). -/
theorem max3_of_le_eps {eps a b c : Rat} (he : eps ≤ 1) (ha : a ≤ eps) (hb : b ≤ eps) (hc : c ≤ eps) :
    max3 eps a b c = eps := by
  rw [max3_of_le_one he (ha.trans he) (hb.trans he) (hc.trans he),
    max_eq_left (max_le ha (max_le hb hc))]

/-- Settles O42: MAX3 is the capped maximum; on operands up to 1 it is the maximum itself, which is one of
them and at least the floor. -/
theorem peakIsTheFlooredMaximum : Obligations.PeakIsTheFlooredMaximum := by
  refine ⟨max3_eq, fun eps a b c he ha hb hc => ?_⟩
  have hmax : max3 eps a b c = max eps (max a (max b c)) := max3_of_le_one he ha hb hc
  refine ⟨hmax, ?_, ?_, max3_le_one eps a b c,
    fun hae hbe hce => max3_of_le_eps he hae.le hbe.le hce.le⟩
  · rw [hmax]
    exact max_max_max_choice eps a b c
  · rw [hmax]
    exact le_max_left _ _

end Sys2Proof.Proofs

/-!
PROOFS about reset and hazards (spec/70_reset_and_hazards.md rules R240 to R242 and R248): the ports under
reset, an edge of a run, the stream and the ages over any number of cycles; then the obligations.
-/

namespace Sys2Proof.Proofs

open Sys2Proof Sys2Proof.Machine Sys2Proof.Laws

/-! ### The ports under reset and with an empty Q -/

/-- Under reset the three handshake outputs are 0, whatever the other inputs are (rule R240). -/
theorem portsOut_of_reset (s : State) {p : PortsIn} (h : p.rst = true) :
    (s.portsOut p).inReady = false ∧ (s.portsOut p).outValid = false ∧
      (s.portsOut p).busy = false := by
  simp [State.inReady, State.outValid, State.busy, h]

/-- An empty Q has nothing to offer and is not busy (rules R39 and R41). -/
theorem portsOut_of_empty {s : State} (h : s.q = []) (p : PortsIn) :
    (s.portsOut p).outValid = false ∧ (s.portsOut p).busy = false := by
  simp [State.outValid, State.headOld, State.busy, h]

/-- A second reset edge only spends its cycle (rule R242). -/
theorem resetEdge_resetEdge (s : State) : s.resetEdge.resetEdge = s.resetEdge.spend := rfl

/-! ### An edge of a run -/

/-- What comes after a cycle has the block's edge on the host's ports and the host's memory after it. -/
theorem stepsTo_edge {s t : State} (h : s.StepsTo t) :
    t.build = s.build ∧ t.q = (s.settle.edge s.now).q ∧
      t.outputs = (s.settle.edge s.now).outputs ∧ t.host.mem = s.settle.nextMem s.now := by
  obtain ⟨u, hu, hbuild, -, hq, -, -, hout, -, -, -, hmem, -⟩ := stepsTo_step h
  obtain ⟨v, hv, rfl⟩ := step_next hu
  rcases cycle_next (cycle_of_blockCycle hv) with ⟨hr, rfl⟩ | ⟨hr, -, rfl⟩
  · have hedge : s.settle.edge s.now = s.settle.resetEdge := if_pos hr
    exact ⟨hbuild, hedge ▸ hq, hedge ▸ hout, hmem⟩
  · have hedge : s.settle.edge s.now = s.settle.transferEdge s.now :=
      if_neg (by simp [State.now, hr])
    exact ⟨hbuild, hedge ▸ hq, hedge ▸ hout, hmem⟩

/-- What comes after a cycle without reset has the queue and the outputs of the transfers. -/
theorem stepsTo_transfers {s t : State} (h : s.StepsTo t) (hr : s.now.rst = false) :
    t.q = (s.settle.transferEdge s.now).q ∧ t.outputs = (s.settle.transferEdge s.now).outputs := by
  obtain ⟨-, hq, hout, -⟩ := stepsTo_edge h
  have hedge : s.settle.edge s.now = s.settle.transferEdge s.now := if_neg (by simp [hr])
  exact ⟨hedge ▸ hq, hedge ▸ hout⟩

/-- Under reset nothing is delivered, so the host stores nothing (rule R241). -/
theorem nextMem_of_reset (s : State) {p : PortsIn} (h : p.rst = true) : s.nextMem p = s.host.mem := by
  simp [State.nextMem, State.delivered, State.delivers, State.outValid, h]

/-- What comes after a cycle with reset has an empty Q; the outputs and the host's memory stand. -/
theorem stepsTo_reset {s t : State} (h : s.StepsTo t) (hr : s.now.rst = true) :
    t.q = [] ∧ t.outputs = s.outputs ∧ t.host.mem = s.host.mem := by
  obtain ⟨-, hq, hout, hmem⟩ := stepsTo_edge h
  have hedge : s.settle.edge s.now = s.settle.resetEdge := if_pos hr
  rw [hedge] at hq hout
  exact ⟨hq, hout, hmem.trans (nextMem_of_reset s.settle hr)⟩

/-- The build never changes in a run (rule R33). -/
theorem build_of_run {run : Nat → State} (h : IsRun run) (n : Nat) :
    (run n).build = (run 0).build := by
  induction n with
  | zero => rfl
  | succ n ih => exact (stepsTo_edge (h n)).1.trans ih

/-! ### The stream over the cycles of a run -/

/-- The output stream of the block as far as it is settled: what has been delivered, then the results of
what is in Q. -/
def stream (build : Build) (s : State) : List OutData := s.outputs ++ s.q.map (Entry.result build)

/-- An edge without reset moves the head within the stream and puts the accepted beat's result last
(rule R38). -/
theorem stream_transferEdge (s : State) (p : PortsIn) :
    stream s.build (s.transferEdge p) =
      stream s.build s ++ (s.accepted p).toList.map (encodeBeat s.build) := by
  have holder : Entry.result s.build ∘ Entry.older = Entry.result s.build := rfl
  have hnew : Entry.result s.build ∘ (fun b => { beat := b, age := 1 }) = encodeBeat s.build := rfl
  rw [stream, stream, transferEdge_outputs, transferEdge_q, nextQueue_eq, List.map_append,
    List.map_map, List.map_map, holder, hnew]
  rcases delivered_cases s p with ⟨hd, e, rest, hq, -, hout⟩ | ⟨hd, hout⟩
  · simp [hd, hq, hout, Entry.result]
  · simp [hd, hout]

theorem acceptedIn_succ (run : Nat → State) (n k : Nat) :
    acceptedIn run n (k + 1) =
      acceptedIn run n k ++ ((run (n + k)).settle.accepted (run (n + k)).now).toList := by
  simp [acceptedIn, List.range_succ]

/-- While no reset comes, the stream grows by ENCODE of the accepted beats, in order (rule R63). -/
theorem stream_of_run {run : Nat → State} (h : IsRun run) (n k : Nat)
    (hr : ∀ i, i < k → (run (n + i)).now.rst = false) :
    stream (run 0).build (run (n + k)) =
      stream (run 0).build (run n) ++ (acceptedIn run n k).map (encodeBeat (run 0).build) := by
  induction k with
  | zero => simp [acceptedIn]
  | succ k ih =>
    obtain ⟨hq, hout⟩ := stepsTo_transfers (h (n + k)) (hr k k.lt_succ_self)
    have hedge := stream_transferEdge (run (n + k)).settle (run (n + k)).now
    rw [settle_build, build_of_run h] at hedge
    calc stream (run 0).build (run (n + k + 1))
        = stream (run 0).build ((run (n + k)).settle.transferEdge (run (n + k)).now) := by
          rw [stream, stream, hq, hout]
      _ = stream (run 0).build (run (n + k)) ++
            ((run (n + k)).settle.accepted (run (n + k)).now).toList.map
              (encodeBeat (run 0).build) := hedge
      _ = _ := by
          rw [ih fun i hi => hr i (by omega), acceptedIn_succ, List.map_append, List.append_assoc]

/-! ### The ages of the entries that came in since a cycle -/

/-- The entries of Q behind the first `k` have seen at most `j` edges. -/
def AgedBehind (q : List Entry) (k j : Nat) : Prop := ∀ e ∈ q.drop k, e.age ≤ j

/-- An edge makes the entries behind one edge older, and a delivery brings them one place forward. -/
theorem agedBehind_nextQueue {q : List Entry} {k j : Nat} (h : AgedBehind q k j) (d : Bool)
    (a : Option Instr) : AgedBehind (nextQueue q d a) (k - d.toNat) (j + 1) := by
  intro x hx
  rw [nextQueue_eq, List.drop_append, List.mem_append, ← List.map_drop] at hx
  rcases hx with hx | hx
  · obtain ⟨e, he, rfl⟩ := List.mem_map.1 hx
    refine Nat.succ_le_succ (h e ?_)
    cases d with
    | false => exact he
    | true =>
      cases k with
      | zero => exact List.mem_of_mem_tail he
      | succ k => simpa using he
  · obtain ⟨b, -, rfl⟩ := List.mem_map.1 (List.mem_of_mem_drop hx)
    exact Nat.le_add_left 1 j

theorem length_delivered (s : State) (p : PortsIn) :
    (s.delivered p).length = (s.delivers p).toNat := by
  unfold State.delivered
  split <;> simp [*]

/-- While no reset comes, what stands behind the pixels that were in flight in cycle `n` is no older than
the cycles since then. -/
theorem agedBehind_of_run {run : Nat → State} (h : IsRun run) (n k : Nat)
    (hr : ∀ i, i < k → (run (n + i)).now.rst = false) :
    AgedBehind (run (n + k)).q
      ((run n).outputs.length + (run n).q.length - (run (n + k)).outputs.length) k := by
  induction k with
  | zero => simp [AgedBehind]
  | succ k ih =>
    obtain ⟨hq, hout⟩ := stepsTo_transfers (h (n + k)) (hr k k.lt_succ_self)
    have hlen : (run (n + k + 1)).outputs.length = (run (n + k)).outputs.length +
        ((run (n + k)).settle.delivers (run (n + k)).now).toNat := by
      rw [hout, transferEdge_outputs, List.length_append, length_delivered, settle_outputs]
    rw [← Nat.add_assoc, hlen, ← Nat.sub_sub, hq, transferEdge_q]
    exact agedBehind_nextQueue (ih fun i hi => hr i (by omega)) _ _

/-! ### The obligations -/

/-- Settles O24: the outputs at the reset are the front part of the stream, the reset cuts the stream there,
and it grows from there by what is accepted after. -/
theorem resetDiscardsWhatIsInFlight : Obligations.ResetDiscardsWhatIsInFlight := by
  intro run n k hrun hq0 hout0 hbefore hreset hafter
  obtain ⟨hq, hout, hmem⟩ := stepsTo_reset (hrun n) hreset
  have hsent : stream (run 0).build (run n) =
      (acceptedIn run 0 n).map (encodeBeat (run 0).build) := by
    simpa [stream, hq0, hout0] using stream_of_run hrun 0 n (by simpa using hbefore)
  have hcut : (run n).outputs =
      ((acceptedIn run 0 n).take (run n).outputs.length).map (encodeBeat (run 0).build) := by
    rw [List.map_take, ← hsent, stream, List.take_left]
  refine ⟨hmem, (run n).outputs.length, ?_, hcut, ?_⟩
  · have hlen := congrArg List.length hsent
    rw [stream, List.length_append, List.length_map, List.length_map] at hlen
    omega
  · calc stream (run 0).build (run (n + 1 + k))
        = stream (run 0).build (run (n + 1)) ++
            (acceptedIn run (n + 1) k).map (encodeBeat (run 0).build) :=
          stream_of_run hrun (n + 1) k hafter
      _ = (run n).outputs ++ (acceptedIn run (n + 1) k).map (encodeBeat (run 0).build) := by
          rw [stream, hq, hout, List.map_nil, List.append_nil]
      _ = _ := by rw [List.map_append, ← hcut]

/-- Settles O25: once all pixels that were in flight in cycle n are delivered, the head of Q has seen at most
m - n edges, and an offer needs a head of age LATENCY. -/
theorem noResultBeforeLatency : Obligations.NoResultBeforeLatency := by
  intro run n m hrun hnm hreset _ hvalid hdelivered
  obtain ⟨k, rfl⟩ := Nat.exists_eq_add_of_le hnm
  have haged := agedBehind_of_run hrun n k fun i hi => hreset (n + i) (by omega) (by omega)
  rw [← hdelivered, Nat.sub_self] at haged
  obtain ⟨e, rest, hq, hage, -⟩ := outData_of_valid (s := (run (n + k)).settle) hvalid
  have he : e.age ≤ k := haged e (by rw [← settle_q, hq]; exact List.mem_cons_self)
  rw [settle_build, build_of_run hrun, ← build_of_run hrun n] at hage
  omega

/-- Settles O6: the ports under reset, the reset edge, and the ports of an empty Q. -/
theorem resetStateAndPorts : Obligations.ResetStateAndPorts := by
  refine ⟨reset_q, fun s p hr => ?_⟩
  obtain ⟨hready, hvalid, hbusy⟩ := portsOut_of_reset s hr
  exact ⟨hready, hvalid, hbusy, s.resetEdge, cycle_reset s hr, resetEdge_q s, resetEdge_outputs s,
    portsOut_of_empty (resetEdge_q s)⟩

/-- Settles O7: the reset edge, and that a second one only spends its cycle. -/
theorem resetEdgeEmptiesTheQueue : Obligations.ResetEdgeEmptiesTheQueue := by
  intro s p hr
  refine ⟨s.resetEdge, cycle_reset s hr, resetEdge_live s, resetEdge_q s, resetEdge_offered s,
    resetEdge_outputs s, resetEdge_build s, resetEdge_host s, fun p' hr' => ?_⟩
  rw [cycle_reset s.resetEdge hr', resetEdge_resetEdge]
  rfl

end Sys2Proof.Proofs

/-!
PROOFS about beats as instructions and ENCODE on the input port (spec/30_encoding.md rules R80, R84 and R87,
spec/10_state.md rules R38 to R40, spec/70_reset_and_hazards.md rules R243 and R247): the decoder, the beat a
step runs, one cycle of exec; then the obligations.
-/

namespace Sys2Proof.Proofs

open Sys2Proof Sys2Proof.Machine Sys2Proof.Laws

/-! ### The decoder -/

/-- The fields of three words put together are the three words, the last one in field 0 (rule R80). -/
theorem fieldAt_three_append {w : Nat} (b g r : BitVec w) :
    fieldAt w 0 (b ++ (g ++ r)) = r ∧ fieldAt w 1 (b ++ (g ++ r)) = g ∧
      fieldAt w 2 (b ++ (g ++ r)) = b := by
  refine ⟨?_, ?_, fieldAt_append_high (by omega) _ _⟩
  · rw [fieldAt_append_low (by omega), fieldAt_append_low (by omega), fieldAt, Nat.zero_mul,
      BitVec.extractLsb'_eq_self]
  · rw [fieldAt_append_low (by omega), fieldAt_append_high (by omega)]

theorem decode_encode (i : Instr) : decode (encode i) = i := by
  cases i with
  | encode32 r g b =>
    obtain ⟨hr, hg, hb⟩ := fieldAt_three_append (w := 32) b g r
    exact congr (congr (congrArg Instr.encode32 hr) hg) hb
  | encode64 r g b =>
    obtain ⟨hr, hg, hb⟩ := fieldAt_three_append (w := 64) b g r
    exact congr (congr (congrArg Instr.encode64 hr) hg) hb

theorem fmt_decode (d : InData) : (decode d).fmt = d.fmt := by cases d <;> rfl

/-- A word of the opcode table is read as the beat it is padded to (rule R87). -/
theorem decode_tableBeat {nbits w : Nat} {i : Instr} (h : decodeTableWord nbits w = some i) :
    decode (tableBeat nbits w) = i := by
  unfold decodeTableWord paddedLength at h
  unfold tableBeat
  by_cases h96 : nbits ≤ 96
  · simpa [h96, beatOfWord] using h
  · by_cases h192 : nbits ≤ 192
    · simpa [h96, h192, beatOfWord] using h
    · have h1 : nbits ≠ 96 := by omega
      have h2 : nbits ≠ 192 := by omega
      simp [h96, h192, h1, h2, beatOfWord] at h

/-! ### The beat a step runs -/

/-- A host that offers a beat outside a reset makes the step exec of it. -/
theorem step_of_offering {s : State} (hv : s.settle.hostPorts.inValid = true)
    (hr : s.settle.hostPorts.rst = false) :
    step s = withHost (s.settle.nextHost s.settle.hostPorts)
      (exec (decode s.settle.hostPorts.inData) s.settle) := by
  rw [step, State.blockCycle, State.offeredBeat, hv, hr]
  rfl

/-- A state is settled by what its script settles to (rule R88). -/
theorem settle_eq {s : State} {ls : List Line} {held : Nat}
    (h : settleLines s.host.image s.build.fmt s.host.mem s.q.isEmpty s.host.script s.host.hold =
      (ls, held)) : s.settle = { s with host := { s.host with script := ls, hold := held } } := by
  rw [State.settle, h]

/-- A state whose current line fills the cycle is settled. -/
theorem settle_of_current {s : State} {l : Line} {rest : List Line} (h : s.host.script = l :: rest)
    (hl : settleLines s.host.image s.build.fmt s.host.mem s.q.isEmpty (l :: rest) s.host.hold =
      (l :: rest, s.host.hold)) : s.settle = s := by
  rw [← h] at hl
  exact settle_eq hl

theorem settle_of_send {s : State} {beat : InData} {dest : Option (Nat × Nat)} {rest : List Line}
    (h : s.host.script = .send beat dest :: rest) : s.settle = s :=
  settle_of_current h rfl

/-- What a host whose line offers a beat drives (rule R88). -/
theorem hostPorts_of_send {s : State} {beat : InData} {dest : Option (Nat × Nat)} {rest : List Line}
    (h : s.host.script = .send beat dest :: rest) :
    s.hostPorts = { rst := false, inValid := true, inData := beat, outReady := s.hostOutReady } := by
  rw [State.hostPorts, h]

/-! ### One cycle of exec -/

/-- Q after a beat was offered: the head leaves if it is taken, and the beat enters last if it is accepted
(rules R38 and R40). -/
theorem transferEdge_beatPorts_q (s : State) (i : Instr) :
    (s.transferEdge (s.beatPorts i)).q =
      (if s.outValid false && s.hostOutReady then s.q.tail else s.q).map Entry.older ++
        if s.inReady false s.hostOutReady then [{ beat := i, age := 1 }] else [] := by
  rw [transferEdge_q, nextQueue_eq, map_accepted]
  have haccepts : s.accepts (s.beatPorts i) = s.inReady false s.hostOutReady := Bool.true_and _
  have hdata : decode (s.beatPorts i).inData = i := decode_encode i
  rw [haccepts, hdata]
  rfl

/-- Room for a beat in this cycle (rule R40). -/
theorem hasRoom_iff (s : State) (rst o : Bool) : s.hasRoom rst o = true ↔
    s.q.length < s.build.depth ∨ s.q.length = s.build.depth ∧ s.outValid rst = true ∧ o = true := by
  simp [State.hasRoom, and_assoc]

/-- The choice to be ready reads the schedule and the cycle number, and nothing of Q (rule R40). -/
theorem choice_ready_congr {s s' : State} (hs : s.schedule = s'.schedule) (hd : s.draws = s'.draws)
    (o : Bool) : s.choice.ready o = s'.choice.ready o := by
  rw [State.choice, State.choice, hs, hd]
  cases s'.schedule <;> rfl

/-- A beat of the build's format, offered to a live block that is ready, completes (rules R38 and R40). -/
theorem exec_accepted {s : State} {i : Instr} (hf : i.fits s.build.fmt = true) (hl : s.live = true)
    (hready : s.inReady false s.hostOutReady = true) :
    ∃ t, exec i s = .next t ∧
      t.q = (if s.outValid false && s.hostOutReady then s.q.tail else s.q).map Entry.older ++
        [{ beat := i, age := 1 }] ∧
      (t.q.getLast?.map (Entry.result t.build)) = some (encodeBeat s.build i) := by
  have hq := transferEdge_beatPorts_q s i
  rw [if_pos hready] at hq
  exact ⟨_, exec_live hf hl, hq, by rw [hq, List.getLast?_concat]; rfl⟩

/-! ### The obligations -/

/-- Settles O1: the fields of a beat are the parts it was put together from, and all of it. -/
theorem decodeEncodeAgree : Obligations.DecodeEncodeAgree :=
  ⟨decode_encode, encode_decode, fmt_decode⟩

/-- Settles O3, by evaluation of the spec's words. -/
theorem specBeatsDecode : Obligations.SpecBeatsDecode := by
  unfold Obligations.SpecBeatsDecode
  decide

/-- Settles O4: the block's part of such a step is exec, by the definition of the offered beat. -/
theorem stepRunsTheOfferedBeat : Obligations.StepRunsTheOfferedBeat :=
  fun _ hv hr => step_of_offering hv hr

/-- Settles O5: the word's beat is the host's line. -/
theorem fetchWordRunsTheWord : Obligations.FetchWordRunsTheWord := by
  intro s nbits w i h
  have hscript := withFetchWord_script s nbits w
  have hports := hostPorts_of_send hscript
  have hbeat : (s.withFetchWord nbits w).beatPorts i = (s.withFetchWord nbits w).hostPorts := by
    rw [hports, State.beatPorts, ← decode_tableBeat h, encode_decode]
  rw [step_of_offering, settle_of_send hscript, hports, decode_tableBeat h, hbeat, hports]
  all_goals rw [settle_of_send hscript, hports]

/-- Settles O8: `live` is what a cycle without reset asks for. -/
theorem nothingRunsBeforeTheFirstReset : Obligations.NothingRunsBeforeTheFirstReset := by
  intro s hl
  have hcycle (p : PortsIn) (hr : p.rst = false) : s.cycle p = .refused .beforeFirstReset := by
    rw [State.cycle, hr, hl]
    rfl
  refine ⟨hcycle, fun i hf => ?_⟩
  rw [exec_eq, State.offerBeat, if_pos hf, hcycle _ rfl]

/-- Settles O10: a reset transfers nothing, another edge the result of the head if it is taken. -/
theorem deliveryHandsOverEncodeOfTheHead : Obligations.DeliveryHandsOverEncodeOfTheHead := by
  intro s t p h
  rcases cycle_next h with ⟨hr, rfl⟩ | ⟨-, -, rfl⟩
  · exact .inr ⟨by rw [(portsOut_of_reset s hr).2.1, Bool.false_and], resetEdge_outputs s⟩
  · rcases delivered_cases s p with ⟨hd, e, rest, hq, -, hout⟩ | ⟨hd, hout⟩
    · have hv : s.outValid p.rst = true := (Bool.and_eq_true_iff.1 hd).1
      exact .inl ⟨hd, e, rest, hq, by rw [transferEdge_outputs, hout], outData_of_head hv hq⟩
    · exact .inr ⟨hd, by rw [transferEdge_outputs, hout, List.append_nil]⟩

/-- Settles O12: room bounds `in_ready`, the choice decides within it, and nothing else enters it. -/
theorem inReadyKeepsItsLimit : Obligations.InReadyKeepsItsLimit := by
  refine ⟨fun s p h => inReady_room h, fun s p hr hroom v => ?_, ?_⟩
  · refine ⟨{ offer := s.choice.offer, readyHeld := v, readyTaken := v }, rfl, ?_⟩
    have hready : (!p.rst && s.hasRoom p.rst p.outReady) = true := by
      rw [hr, (hasRoom_iff s false p.outReady).2 (hr ▸ hroom), Bool.not_false, Bool.and_self]
    change (!p.rst && s.hasRoom p.rst p.outReady && (if p.outReady then v else v)) = v
    rw [hready, ite_self, Bool.true_and]
  · intro s s' p p' hb hs hd hlen hv hr ho
    rw [portsOut_outValid, portsOut_outValid] at hv
    rw [portsOut_inReady, portsOut_inReady, State.inReady, State.inReady, State.hasRoom, State.hasRoom,
      hv, hlen, hb, hr, ho, choice_ready_congr hs hd]

/-- Settles O13: `rst` is the only input port the outputs read, but for `out_ready` in `in_ready`. -/
theorem portsIgnoreWhatTheyMust : Obligations.PortsIgnoreWhatTheyMust := by
  intro s p p' hr
  simp only [State.portsOut, hr, true_and]
  intro ho
  rw [ho]

/-- Settles O15: the binary32 case of an accepted beat. -/
theorem encode32Accepted : Obligations.Encode32Accepted :=
  fun _ _ _ _ hl hfmt hready => exec_accepted (by rw [hfmt]; rfl) hl hready

/-- Settles O16: the binary64 case of an accepted beat. -/
theorem encode64Accepted : Obligations.Encode64Accepted :=
  fun _ _ _ _ hl hfmt hready => exec_accepted (by rw [hfmt]; rfl) hl hready

/-- Settles O17: without `in_ready` nothing is put behind Q. -/
theorem encodeWaitsWhileNotReady : Obligations.EncodeWaitsWhileNotReady := by
  intro s i hl hf hready
  refine ⟨_, exec_live hf hl, ?_⟩
  rw [transferEdge_beatPorts_q, hready, if_neg Bool.false_ne_true, List.append_nil]

/-- Settles O18: the port of a build has the width of its own format. -/
theorem beatOfTheOtherFormatIsRefused : Obligations.BeatOfTheOtherFormatIsRefused := by
  intro s i hne
  have hfits : ¬ i.fits s.build.fmt = true := by
    rw [Instr.fits, beq_iff_eq]
    exact hne
  rw [exec_eq, State.offerBeat, if_neg hfits]

/-- Settles O19: exec is one transfer edge, whose fields say what stays. -/
theorem encodeLeavesTheRestUnchanged : Obligations.EncodeLeavesTheRestUnchanged := by
  intro s t i h
  obtain ⟨-, -, rfl⟩ := exec_next h
  refine ⟨rfl, rfl, rfl, fun _ => rfl, rfl, rfl, ⟨_, rfl⟩, ?_⟩
  rw [transferEdge_beatPorts_q, List.map_append, List.map_map]
  exact List.prefix_append _ _

end Sys2Proof.Proofs

/-!
PROOFS about the invariants of block and host (spec/10_state.md section 3, spec/20_memory.md section 2):
what an edge keeps of the block, what a step keeps of the host beside it; then the obligations.
-/

namespace Sys2Proof.Proofs

open Sys2Proof Sys2Proof.Machine Sys2Proof.Laws

/-! ### The block -/

/-- Q' falls strictly in age if Q does: entries age alike, and a new one is younger than all others. -/
theorem pairwise_nextQueue {q : List Entry} (d : Bool) (a : Option Instr) (hage : ∀ e ∈ q, 1 ≤ e.age)
    (h : q.Pairwise fun older newer => newer.age < older.age) :
    (nextQueue q d a).Pairwise fun older newer => newer.age < older.age := by
  rw [nextQueue_eq]
  have hsub : (if d then q.tail else q).Sublist q := by
    split
    · exact List.tail_sublist q
    · exact List.Sublist.refl q
  refine List.pairwise_append.2 ⟨?_, ?_, ?_⟩
  · exact List.pairwise_map.2 ((h.sublist hsub).imp fun hlt => Nat.succ_lt_succ hlt)
  · cases a <;> simp
  · intro x hx y hy
    obtain ⟨e, he, rfl⟩ := List.mem_map.1 hx
    obtain ⟨b, -, rfl⟩ := List.mem_map.1 hy
    exact Nat.lt_succ_of_le (hage e (hsub.subset he))

/-- An edge without reset keeps the invariant of the block if the beat it accepts is in the build's format
(rules R38 and R39). -/
theorem blockInv_transferEdge {s : State} {p : PortsIn} (h : s.BlockInv)
    (hfits : ∀ b, s.accepted p = some b → b.fits s.build.fmt = true) : (s.transferEdge p).BlockInv := by
  obtain ⟨hwf, hlen, hentries, hpair, -⟩ := h
  refine ⟨hwf, transferEdge_length_le p hlen, fun x hx => ?_,
    pairwise_nextQueue _ _ (fun e he => (hentries e he).2) hpair, fun hoff => ?_⟩
  · rcases mem_nextQueue hx with ⟨e, he, rfl⟩ | ⟨b, hb, rfl⟩
    · exact ⟨(hentries e he).1, Nat.le_add_left 1 e.age⟩
    · exact ⟨hfits b hb, le_rfl⟩
  · obtain ⟨hv, ho⟩ : s.outValid p.rst = true ∧ p.outReady = false := by simpa using hoff
    obtain ⟨e, rest, hq, hage, -⟩ := outData_of_valid hv
    obtain ⟨rest', hq'⟩ := transferEdge_head hq (p := p) (by simp [State.delivers, ho])
    exact (headOld_iff _).2 ⟨_, _, hq', Nat.le_succ_of_le hage⟩

/-- A reset edge leaves an empty Q, which meets the invariant. -/
theorem blockInv_resetEdge {s : State} (h : s.BlockInv) : s.resetEdge.BlockInv :=
  ⟨h.1, Nat.zero_le _, by simp, by simp, by simp⟩

/-- A beat that a block accepts in a step is in the build's format: a beat of the other one is refused
(rule R87). -/
theorem accepted_fits {s u : State} (h : s.blockCycle = .next u) {b : Instr}
    (hb : s.accepted s.hostPorts = some b) : b.fits s.build.fmt = true := by
  rcases accepted_cases s s.hostPorts with ⟨-, hv, hready, hacc⟩ | ⟨-, hacc⟩
  · obtain rfl := Option.some.inj (hacc.symm.trans hb)
    have hoffer : s.offeredBeat = some (decode s.hostPorts.inData) := by
      rw [State.offeredBeat, hv, (inReady_room hready).1]
      rfl
    rw [State.blockCycle, hoffer] at h
    exact (exec_next h).1
  · exact nomatch hacc.symm.trans hb

/-- The invariant of the block does not speak of the host. -/
theorem blockInv_settle {s : State} (h : s.BlockInv) : s.settle.BlockInv := h

/-- What comes out of the block in a step keeps its invariant. -/
theorem blockInv_of_blockCycle {s u : State} (h : s.BlockInv) (hu : s.blockCycle = .next u) :
    u.BlockInv := by
  rcases cycle_next (cycle_of_blockCycle hu) with ⟨-, rfl⟩ | ⟨-, -, rfl⟩
  · exact blockInv_resetEdge h
  · exact blockInv_transferEdge h fun _ => accepted_fits hu

/-! ### The host -/

theorem fmt_encodeBeat (build : Build) (i : Instr) : (encodeBeat build i).fmt = i.fmt := by
  cases i <;> rfl

/-- What an edge delivers has the width of the build if Q is in its format (rule R81). -/
theorem fmt_delivered {s : State} {p : PortsIn} (hq : ∀ e ∈ s.q, e.beat.fits s.build.fmt = true)
    {o : OutData} (ho : o ∈ s.delivered p) : o.fmt = s.build.fmt := by
  rcases delivered_cases s p with ⟨-, e, rest, hs, -, hout⟩ | ⟨-, hout⟩
  · have hfits := hq e (hs ▸ List.mem_cons_self)
    rw [hout, List.mem_singleton] at ho
    rw [ho, fmt_encodeBeat]
    exact beq_iff_eq.1 hfits
  · simp [hout] at ho

/-- The host stores in canonical form. -/
theorem memWf_nextMem {s : State} (p : PortsIn) (h : memWf s.host.mem = true) :
    memWf (s.nextMem p) = true := by
  unfold State.nextMem
  split
  · exact memWf_storePixel h _ _ _ _
  · exact h

theorem length_accepted (s : State) (p : PortsIn) :
    (s.accepted p).toList.length = if s.accepts p then 1 else 0 := by
  unfold State.accepted
  split <;> rfl

/-- The host keeps a destination for each pixel in flight (rules R63 and R70). -/
theorem length_nextDests {s : State} {p : PortsIn} (hr : p.rst = false)
    (h : s.host.dests.length = s.q.length) :
    (s.nextDests p).length = (s.transferEdge p).q.length := by
  rw [transferEdge_q, length_nextQueue, length_accepted, State.nextDests, if_neg (by simp [hr]),
    List.length_append]
  congr 1
  · split <;> simp [h]
  · split <;> rfl

/-- A step keeps the invariant of the host beside a block that meets its own. -/
theorem hostInv_of_step {s t : State} (hb : s.BlockInv) (h : s.HostInv) (ht : step s = .next t) :
    t.HostInv := by
  obtain ⟨u, hu, rfl⟩ := step_next ht
  obtain ⟨hdests, hout, hmem⟩ := h
  obtain ⟨-, -, hentries, -, -⟩ := hb
  have hmem' := memWf_nextMem s.settle.hostPorts (s := s.settle) hmem
  rcases cycle_next (cycle_of_blockCycle hu) with ⟨hr, rfl⟩ | ⟨hr, -, rfl⟩
  · refine ⟨?_, hout, hmem'⟩
    show (s.settle.nextDests s.settle.hostPorts).length = 0
    rw [State.nextDests, if_pos hr, List.length_nil]
  · refine ⟨length_nextDests hr hdests, fun o ho => ?_, hmem'⟩
    rcases List.mem_append.1 ho with ho | ho
    · exact hout o ho
    · exact fmt_delivered (fun e he => (hentries e he).1) ho

/-! ### The obligations -/

/-- Settles O20, by evaluation of the reset state. -/
theorem resetMeetsTheInvariants : Obligations.ResetMeetsTheInvariants := by
  unfold Obligations.ResetMeetsTheInvariants
  decide

/-- Settles O21: exec is a transfer edge that accepts at most the beat it was given, which fits the build. -/
theorem encodeKeepsTheBlockInvariant : Obligations.EncodeKeepsTheBlockInvariant := by
  intro s t i h ht
  obtain ⟨hfits, -, rfl⟩ := exec_next ht
  refine blockInv_transferEdge h fun b hb => ?_
  rcases accepted_cases s (s.beatPorts i) with ⟨-, -, -, hacc⟩ | ⟨-, hacc⟩
  · obtain rfl := Option.some.inj (hacc.symm.trans hb)
    exact (decode_encode i).symm ▸ hfits
  · exact nomatch hacc.symm.trans hb

/-- Settles O22: a step is an edge of the block, and the host goes on from what it saw. -/
theorem stepKeepsTheInvariants : Obligations.StepKeepsTheInvariants := by
  intro s t hb hh ht
  refine ⟨?_, hostInv_of_step hb hh ht⟩
  obtain ⟨u, hu, rfl⟩ := step_next ht
  have hinv : u.BlockInv := blockInv_of_blockCycle (blockInv_settle hb) hu
  exact hinv

end Sys2Proof.Proofs

/-!
PROOFS about the host's memory and its script (spec/20_memory.md rules R61 and R69, spec/30_encoding.md rule
R88): what a write leaves alone and what reads back, the layout of the buffers, the lines of the script; then
the obligations.
-/

namespace Sys2Proof.Proofs

open Sys2Proof Sys2Proof.Machine Sys2Proof.Laws

/-! ### Bytes and numbers -/

theorem length_inOrder (e : Endian) (bs : List (BitVec 8)) : (inOrder e bs).length = bs.length := by
  cases e
  · rfl
  · exact List.length_reverse

theorem inOrder_inOrder (e : Endian) (bs : List (BitVec 8)) : inOrder e (inOrder e bs) = bs := by
  cases e
  · rfl
  · exact List.reverse_reverse bs

theorem length_bytesOf (v n : Nat) : (bytesOf v n).length = n := by
  induction n generalizing v with
  | zero => rfl
  | succ n ih => rw [bytesOf, List.length_cons, ih]

/-- The low bytes of a number that fits in them give it back. -/
theorem numberOf_bytesOf {v n : Nat} (h : v < 256 ^ n) : numberOf (bytesOf v n) = v := by
  induction n generalizing v with
  | zero =>
    rw [pow_zero] at h
    rw [bytesOf, numberOf]
    omega
  | succ n ih =>
    rw [pow_succ] at h
    rw [bytesOf, numberOf, ih (by omega), BitVec.toNat_ofNat]
    omega

/-- What a read gives depends on the bytes it covers alone. -/
theorem readBytes_congr {m m' : List Host.Cell} {addr n : Nat}
    (h : ∀ a, addr ≤ a → a < addr + n → readByte m a = readByte m' a) :
    readBytes m addr n = readBytes m' addr n := by
  induction n generalizing addr with
  | zero => rfl
  | succ n ih =>
    rw [readBytes, readBytes, h addr le_rfl (by omega), ih fun a hlo hhi => h a (by omega) (by omega)]

/-! ### Writes -/

theorem readByte_writeBytes_outside {a addr : Nat} (m : List Host.Cell) (bs : List (BitVec 8))
    (h : a < addr ∨ addr + bs.length ≤ a) : readByte (writeBytes m addr bs) a = readByte m a := by
  induction bs generalizing m addr with
  | nil => rfl
  | cons b bs ih =>
    rw [List.length_cons] at h
    rw [writeBytes, ih _ (by omega), readByte_writeByte_ne (by omega)]

/-- Bytes written to a memory in canonical form read back. -/
theorem readBytes_writeBytes {m : List Host.Cell} (hm : memWf m = true) (addr : Nat)
    (bs : List (BitVec 8)) : readBytes (writeBytes m addr bs) addr bs.length = bs := by
  induction bs generalizing m addr with
  | nil => rfl
  | cons b bs ih =>
    rw [List.length_cons, readBytes, writeBytes, ih (memWf_writeByte hm addr b),
      readByte_writeBytes_outside _ _ (by omega), readByte_writeByte hm, if_pos rfl]

theorem readByte_memWrite_outside {a addr n : Nat} (e : Endian) (m : List Host.Cell) (v : Nat)
    (h : a < addr ∨ addr + n ≤ a) : readByte (memWrite e m addr n v) a = readByte m a :=
  readByte_writeBytes_outside m _ (by rwa [length_inOrder, length_bytesOf])

theorem memRead_congr {m m' : List Host.Cell} {addr n : Nat} (e : Endian)
    (h : ∀ a, addr ≤ a → a < addr + n → readByte m a = readByte m' a) :
    memRead e m addr n = memRead e m' addr n := by
  rw [memRead, memRead, readBytes_congr h]

/-- MemRead gives what MemWrite put there, if it fits (rule R13). -/
theorem memRead_memWrite {m : List Host.Cell} (hm : memWf m = true) (e : Endian) (addr : Nat) {n v : Nat}
    (h : v < 256 ^ n) : memRead e (memWrite e m addr n v) addr n = v := by
  have hread := readBytes_writeBytes hm addr (inOrder e (bytesOf v n))
  rw [length_inOrder, length_bytesOf] at hread
  rw [memRead, memWrite, hread, inOrder_inOrder, numberOf_bytesOf h]

/-! ### The layout of a buffer -/

theorem elementAddr_add (img : Image) (f : Fmt) (base channels y x ch i : Nat) :
    elementAddr img f base channels y x (ch + i) =
      elementAddr img f base channels y x ch + i * f.bytes := by
  rw [elementAddr, elementAddr, ← Nat.add_assoc, Nat.add_mul _ i, Nat.add_assoc]

/-- Storing fields from channel `ch` on touches their elements alone. -/
theorem readByte_storeFields_outside {a y x : Nat} (img : Image) (f : Fmt) (vs : List Nat) (ch : Nat)
    (m : List Host.Cell)
    (h : a < elementAddr img f img.outBase 4 y x ch ∨
      elementAddr img f img.outBase 4 y x ch + vs.length * f.bytes ≤ a) :
    readByte (storeFields img f y x vs ch m) a = readByte m a := by
  induction vs generalizing ch m with
  | nil => rfl
  | cons v vs ih =>
    rw [List.length_cons, Nat.add_one_mul] at h
    rw [storeFields, ih _ _ (by rw [elementAddr_add, Nat.one_mul]; omega),
      readByte_memWrite_outside _ _ _ (by omega)]

theorem length_outFields (out : OutData) : (outFields out).length = 4 := by cases out <;> rfl

/-- Storing a pixel touches its four elements alone (rule R61). -/
theorem readByte_storePixel_outside {a y x : Nat} (img : Image) (m : List Host.Cell) (out : OutData)
    (h : a < elementAddr img out.fmt img.outBase 4 y x 0 ∨
      elementAddr img out.fmt img.outBase 4 y x 0 + 4 * out.fmt.bytes ≤ a) :
    readByte (storePixel img m out y x) a = readByte m a :=
  readByte_storeFields_outside img out.fmt (outFields out) 0 m (by rwa [length_outFields])

/-- The fields stored from channel `ch` on read back, each at its own address. -/
theorem memRead_storeFields {img : Image} {f : Fmt} {y x : Nat} {vs : List Nat} {ch : Nat}
    {m : List Host.Cell} (hm : memWf m = true) (hvs : ∀ v ∈ vs, v < 256 ^ f.bytes) {i v : Nat}
    (hi : vs[i]? = some v) :
    memRead img.endian (storeFields img f y x vs ch m)
      (elementAddr img f img.outBase 4 y x (ch + i)) f.bytes = v := by
  induction vs generalizing ch m i with
  | nil => simp at hi
  | cons w vs ih =>
    rw [storeFields]
    cases i with
    | zero =>
      obtain rfl : w = v := by simpa using hi
      rw [Nat.add_zero, memRead_congr (m' := memWrite img.endian m _ f.bytes w)]
      · exact memRead_memWrite hm _ _ (hvs w List.mem_cons_self)
      · intro a _ hhi
        refine readByte_storeFields_outside _ _ _ _ _ (.inl ?_)
        rwa [elementAddr_add, Nat.one_mul]
    | succ i =>
      rw [(by omega : ch + (i + 1) = ch + 1 + i)]
      exact ih (memWf_memWrite hm _ _ _ _) (fun v hv => hvs v (List.mem_cons_of_mem _ hv))
        (by simpa using hi)

/-- A field of an output beat fits in an element (rule R61). -/
theorem outFields_lt {out : OutData} {v : Nat} (h : v ∈ outFields out) : v < 256 ^ out.fmt.bytes := by
  cases out with
  | w128 bits =>
    simp only [outFields, List.mem_cons, List.not_mem_nil, or_false] at h
    rcases h with rfl | rfl | rfl | rfl <;> exact BitVec.isLt _
  | w256 bits =>
    simp only [outFields, List.mem_cons, List.not_mem_nil, or_false] at h
    rcases h with rfl | rfl | rfl | rfl <;> exact BitVec.isLt _

/-- The input beat of a pixel depends on the bytes of its three elements alone (rule R61). -/
theorem readPixel_congr {img : Image} {f : Fmt} {m m' : List Host.Cell} {y x : Nat}
    (h : ∀ a, elementAddr img f img.inBase 3 y x 0 ≤ a →
      a < elementAddr img f img.inBase 3 y x 0 + 3 * f.bytes → readByte m a = readByte m' a) :
    readPixel img f m y x = readPixel img f m' y x := by
  have helement (ch : Nat) (hch : ch < 3) : inElement img f m y x ch = inElement img f m' y x ch := by
    have haddr := elementAddr_add img f img.inBase 3 y x 0 ch
    rw [Nat.zero_add] at haddr
    have hroom : (ch + 1) * f.bytes ≤ 3 * f.bytes := Nat.mul_le_mul_right _ hch
    rw [Nat.add_one_mul] at hroom
    exact memRead_congr _ fun a hlo hhi => h a (by omega) (by omega)
  unfold readPixel
  rw [helement 0 (by decide), helement 1 (by decide), helement 2 (by decide)]

/-! ### The host in a step -/

/-- The input beat of a pixel line carries its three elements (rule R61). -/
theorem decode_readPixel (img : Image) (m : List Host.Cell) (y x : Nat) :
    decode (readPixel img .binary32 m y x) = .encode32 (BitVec.ofNat 32 (inElement img .binary32 m y x 0))
        (BitVec.ofNat 32 (inElement img .binary32 m y x 1))
        (BitVec.ofNat 32 (inElement img .binary32 m y x 2)) ∧
      decode (readPixel img .binary64 m y x) = .encode64 (BitVec.ofNat 64 (inElement img .binary64 m y x 0))
        (BitVec.ofNat 64 (inElement img .binary64 m y x 1))
        (BitVec.ofNat 64 (inElement img .binary64 m y x 2)) :=
  ⟨decode_encode (.encode32 _ _ _), decode_encode (.encode64 _ _ _)⟩

/-- After a step the host is what it makes of the cycle it saw. -/
theorem host_of_step {s t : State} (h : step s = .next t) : t.host = s.settle.nextHost s.now := by
  obtain ⟨u, -, rfl⟩ := step_next h
  rfl

/-- Outside a line that drives the ports itself, `out_ready` is 0 exactly while a HOLD lasts (rule R88). -/
theorem hostOutReady_iff {s : State} {l : Line} {rest : List Line} (h : s.host.script = l :: rest)
    (hl : ∀ p, l ≠ .drive p) : s.hostOutReady = true ↔ s.host.hold = 0 := by
  rw [State.hostOutReady, h]
  cases l <;> simp_all

/-- What a host drives while its current line is one of the directives that fill a cycle (rule R88). -/
theorem now_of_current {s : State} {l : Line} {rest : List Line} (h : s.host.script = l :: rest)
    (hs : s.settle = s) (hl : l = .drain ∨ (∃ n, l = .idle n) ∨ ∃ n, l = .reset n) :
    s.now.inValid = false ∧ s.now.rst = l.isReset ∧ (s.now.outReady = true ↔ s.host.hold = 0) := by
  rw [State.now, hs, State.hostPorts, h]
  rcases hl with rfl | ⟨n, rfl⟩ | ⟨n, rfl⟩ <;>
    exact ⟨rfl, rfl, hostOutReady_iff h (by simp)⟩

/-- Such a line in a step: what it drives, and how the script and the HOLD go on (rule R88). -/
theorem directive_line {s t : State} {l : Line} {rest : List Line} (h : s.host.script = l :: rest)
    (hs : s.settle = s) (hl : l = .drain ∨ (∃ n, l = .idle n) ∨ ∃ n, l = .reset n)
    (ht : step s = .next t) :
    s.now.inValid = false ∧ s.now.rst = l.isReset ∧ (s.now.outReady = true ↔ s.host.hold = 0) ∧
      t.host.script = nextScript (s.accepts s.now) (l :: rest) ∧ t.host.hold = s.host.hold - 1 := by
  obtain ⟨hv, hr, ho⟩ := now_of_current h hs hl
  refine ⟨hv, hr, ho, ?_⟩
  rw [host_of_step ht, hs, nextHost_script, h]
  exact ⟨rfl, nextHost_hold _ _⟩

/-- A line that offers a beat drives it, and goes on to the next line when the beat is accepted
(rule R88). -/
theorem send_line {s t : State} {beat : InData} {dest : Option (Nat × Nat)} {rest : List Line}
    (h : s.host.script = .send beat dest :: rest) (ht : step s = .next t) :
    s.now.inValid = true ∧ s.now.rst = false ∧ s.now.inData = beat ∧
      (s.now.outReady = true ↔ s.host.hold = 0) ∧
      t.host.script = (if s.seen.inReady then rest else .send beat dest :: rest) ∧
      t.host.dests =
        (if s.seen.outValid && s.now.outReady then s.host.dests.tail else s.host.dests) ++
          (if s.seen.inReady then [dest] else []) := by
  have hs := settle_of_send h
  have hports := hostPorts_of_send h
  have hnow : s.now = s.hostPorts := by rw [State.now, hs]
  have hseen : s.seen = s.portsOut s.hostPorts := by rw [State.seen, hnow, hs]
  have hhost : t.host = s.nextHost s.hostPorts := by rw [host_of_step ht, hnow, hs]
  have haccepts : s.accepts s.hostPorts = (s.portsOut s.hostPorts).inReady := by
    rw [State.accepts, hports, Bool.true_and, portsOut_inReady]
  have hrst : s.hostPorts.rst = false := by rw [hports]
  refine ⟨by rw [hnow, hports], by rw [hnow, hrst], by rw [hnow, hports], ?_, ?_, ?_⟩
  · rw [hnow, hports]
    exact hostOutReady_iff h (by simp)
  · rw [hhost, nextHost_script, haccepts, h, hseen]
    rfl
  · rw [hhost, nextHost_dests, State.nextDests, if_neg (by simp [hrst]), haccepts, h, hseen, hnow]
    rfl

/-- A pixel line is found as a line that offers the pixel's beat (rule R61). -/
theorem settle_of_pixel {s : State} {y x : Nat} {rest : List Line}
    (h : s.host.script = .pixel y x :: rest) :
    s.settle = { s with host := { s.host with
      script := .send (readPixel s.host.image s.build.fmt s.host.mem y x) (some (y, x)) :: rest } } :=
  settle_eq (by rw [h]; rfl)

/-! ### The obligations -/

/-- Settles O33: the element is the last one written at its address, and it fits. -/
theorem storedPixelReadsBack : Obligations.StoredPixelReadsBack := by
  intro img m out y x ch hm hch
  have hlt : ch < (outFields out).length := by rwa [length_outFields]
  have hread := memRead_storeFields (img := img) (y := y) (x := x) (ch := 0) hm
    (fun _ => outFields_lt) (List.getElem?_eq_getElem hlt)
  rw [Nat.zero_add] at hread
  rw [List.getElem?_eq_getElem hlt]
  exact congrArg some hread

/-- Settles O34: a pixel of smaller index ends its three elements before the four of this one begin; and the
four elements of pixel 0 overlap the three of pixel 1. -/
theorem inPlaceOrderOfPixels : Obligations.InPlaceOrderOfPixels := by
  refine ⟨fun img m out y x y' x' hbase hlt => readPixel_congr fun a hlo hhi => ?_, ?_⟩
  · refine readByte_storePixel_outside img m out (.inl ?_)
    have hend : ((y' * img.width + x') * 3 + 3) * out.fmt.bytes ≤
        (y * img.width + x) * 4 * out.fmt.bytes := Nat.mul_le_mul_right _ (by omega)
    rw [Nat.add_mul] at hend
    simp only [elementAddr, Nat.add_zero, hbase] at hhi ⊢
    omega
  · exact ⟨{ height := 1, width := 2, inBase := 0, outBase := 0, endian := .little }, [],
      .w128 (1 <<< 96), rfl, by decide⟩

/-- Settles O35: the host stores the delivered beat at the destination of the head, if it has one. -/
theorem stepStoresOnlyTheDeliveredPixel : Obligations.StepStoresOnlyTheDeliveredPixel := by
  intro s t ht
  have hmem : t.host.mem = s.settle.nextMem s.now := by rw [host_of_step ht, nextHost_mem]
  rw [State.nextMem, settle_dests, settle_image, settle_mem] at hmem
  rcases hout : s.settle.delivered s.now with _ | ⟨out, outs⟩
  · rw [hout] at hmem
    exact hmem
  · rcases hdests : s.host.dests with _ | ⟨_ | ⟨y, x⟩, dests⟩ <;> rw [hout, hdests] at hmem
    · exact hmem
    · exact hmem
    · refine ⟨hmem, fun a ha => ?_⟩
      rw [hmem]
      exact readByte_storePixel_outside _ _ _ ha

/-- Settles O30: a pixel line is found as a line that offers its beat. -/
theorem encodeLineHoldsUntilAccepted : Obligations.EncodeLineHoldsUntilAccepted := by
  refine ⟨fun s t beat dest rest h ht => send_line h ht, fun s t y x rest element h ht helement => ?_⟩
  have hscript : s.settle.host.script =
      .send (readPixel s.host.image s.build.fmt s.host.mem y x) (some (y, x)) :: rest := by
    rw [settle_of_pixel h]
  have hsettle := settle_of_send hscript
  have hstep : step s.settle = .next t := by rw [← ht, step, step, hsettle]
  have hnow : s.settle.now = s.now := by rw [State.now, State.now, hsettle]
  have hseen : s.settle.seen = s.seen := by rw [State.seen, State.seen, hsettle, hnow]
  have hhold : s.settle.host.hold = s.host.hold := by rw [settle_of_pixel h]
  obtain ⟨hv, hr, hdata, ho, hscript', hdests⟩ := send_line hscript hstep
  rw [hnow] at hv hr hdata ho hdests
  rw [hseen] at hscript' hdests
  rw [hhold] at ho
  refine ⟨hv, hr, ho, hdata, fun hfmt => ?_, fun hfmt => ?_, by rw [hdata]; exact hscript', hdests⟩
  · rw [hdata, hfmt, (decode_readPixel _ _ y x).1, helement, helement, helement, hfmt]
    rfl
  · rw [hdata, hfmt, (decode_readPixel _ _ y x).2, helement, helement, helement, hfmt]
    rfl

/-- Settles O31: IDLE, RESET and a DRAIN of a busy block fill the cycle, the others are run off the front. -/
theorem directivesDriveThePorts : Obligations.DirectivesDriveThePorts := by
  intro s t rest n ht
  refine ⟨fun h => ?_, fun h => ?_, fun h hq => ?_, fun h hq => ?_, fun h => ?_⟩
  · exact directive_line h (settle_of_current h rfl) (.inr (.inl ⟨_, rfl⟩)) ht
  · exact directive_line h (settle_of_current h rfl) (.inr (.inr ⟨_, rfl⟩)) ht
  · have hs := settle_of_current h (by rw [settleLines, if_neg (by simpa using hq)])
    exact directive_line h hs (.inl rfl) ht
  · rw [State.settle, State.settle, h, List.isEmpty_iff.2 hq]
    rfl
  · rw [State.settle, State.settle, h]
    rfl

end Sys2Proof.Proofs

/-!
PROOFS about the streams of a run (spec/20_memory.md rule R63, spec/70_reset_and_hazards.md rule R249): the
order of the outputs, the delivery of what is offered, and which blocks are fair; then the obligations.
-/

namespace Sys2Proof.Proofs

open Sys2Proof Sys2Proof.Machine Sys2Proof.Laws

/-! ### Deliveries in a run -/

theorem noResetFrom_mono {run : Nat → State} {n m : Nat} (h : NoResetFrom run n) (hle : n ≤ m) :
    NoResetFrom run m := fun i hi => h i (hle.trans hi)

theorem drainsFrom_mono {run : Nat → State} {n m : Nat} (h : DrainsFrom run n) (hle : n ≤ m) :
    DrainsFrom run m := fun k hk => h k (hle.trans hk)

/-- An offer stands until it is taken (rule R39 item 3). -/
theorem offer_stands {run : Nat → State} (hrun : IsRun run) {m : Nat} (hr : NoResetFrom run m)
    (hv : (run m).seen.outValid = true) (j : Nat)
    (ho : ∀ i, i < j → (run (m + i)).now.outReady = false) : (run (m + j)).seen.outValid = true := by
  induction j with
  | zero => exact hv
  | succ j ih =>
    exact (offer_stable (hrun (m + j)) (ih fun i hi => ho i (by omega)) (ho j j.lt_succ_self)
      (hr _ (by omega))).1

/-- What is offered is delivered in the end, if the host takes outputs again and again. -/
theorem exists_delivery {run : Nat → State} (hrun : IsRun run) {n : Nat} (hr : NoResetFrom run n)
    (hd : DrainsFrom run n) (hoffer : ∃ m, n ≤ m ∧ (run m).seen.outValid = true) :
    ∃ m, n ≤ m ∧ (run m).settle.delivers (run m).now = true := by
  obtain ⟨m, hnm, hv⟩ := hoffer
  have htaken : ∃ j, (run (m + j)).now.outReady = true := by
    obtain ⟨k, hk, ho⟩ := hd m hnm
    exact ⟨k - m, by rwa [Nat.add_sub_cancel' hk]⟩
  classical
  have hfirst : ∀ i, i < Nat.find htaken → (run (m + i)).now.outReady = false :=
    fun i hi => by simpa using Nat.find_min htaken hi
  have hstands := offer_stands hrun (noResetFrom_mono hr hnm) hv _ hfirst
  exact ⟨m + Nat.find htaken, by omega, Bool.and_eq_true_iff.2 ⟨hstands, Nat.find_spec htaken⟩⟩

/-- How many outputs a cycle without reset adds. -/
theorem length_outputs_succ {run : Nat → State} (hrun : IsRun run) {m : Nat}
    (hr : (run m).now.rst = false) : (run (m + 1)).outputs.length =
      (run m).outputs.length + ((run m).settle.delivers (run m).now).toNat := by
  rw [(stepsTo_transfers (hrun m) hr).2, transferEdge_outputs, List.length_append, length_delivered,
    settle_outputs]

theorem length_outputs_mono {run : Nat → State} (hrun : IsRun run) {n : Nat} (hr : NoResetFrom run n)
    {m : Nat} (hnm : n ≤ m) : (run n).outputs.length ≤ (run m).outputs.length := by
  induction m, hnm using Nat.le_induction with
  | base => exact le_rfl
  | succ m hnm ih =>
    have := length_outputs_succ hrun (hr m hnm)
    omega

/-- The stream of a later cycle begins with that of an earlier one (rule R63). -/
theorem stream_prefix {run : Nat → State} (hrun : IsRun run) {n m : Nat} (hr : NoResetFrom run n)
    (hnm : n ≤ m) : stream (run 0).build (run n) <+: stream (run 0).build (run m) := by
  obtain ⟨k, rfl⟩ := Nat.exists_eq_add_of_le hnm
  exact ⟨_, (stream_of_run hrun n k fun i _ => hr _ (by omega)).symm⟩

theorem length_stream (b : Build) (s : State) :
    (stream b s).length = s.outputs.length + s.q.length := by
  rw [stream, List.length_append, List.length_map]

/-- In a fair run whose host keeps taking, the outputs grow until they cover any part of the stream. -/
theorem exists_outputs_length {run : Nat → State} (hrun : IsRun run) (hfair : Fair run) {n : Nat}
    (hr : NoResetFrom run n) (hd : DrainsFrom run n) (k : Nat) (hk : k ≤ (run n).q.length) :
    ∃ m, n ≤ m ∧ (run n).outputs.length + k ≤ (run m).outputs.length := by
  induction k with
  | zero => exact ⟨n, le_rfl, le_rfl⟩
  | succ k ih =>
    obtain ⟨m, hnm, hlen⟩ := ih (by omega)
    by_cases hq : (run m).q = []
    · have hstream := (stream_prefix hrun hr hnm).length_le
      rw [length_stream, length_stream, hq, List.length_nil] at hstream
      exact ⟨m, hnm, by omega⟩
    · have hr' := noResetFrom_mono hr hnm
      obtain ⟨m', hm', hdel⟩ := exists_delivery hrun hr' (drainsFrom_mono hd hnm) ((hfair m hr').1 hq)
      have hmore := length_outputs_succ hrun (hr m' (hnm.trans hm'))
      have hmono := length_outputs_mono hrun hr' hm'
      rw [hdel, Bool.toNat_true] at hmore
      exact ⟨m' + 1, by omega, by omega⟩

/-- In such a run the outputs come to begin with the whole stream of the present cycle (rule R249). -/
theorem exists_stream_delivered {run : Nat → State} (hrun : IsRun run) (hfair : Fair run) {n : Nat}
    (hr : NoResetFrom run n) (hd : DrainsFrom run n) :
    ∃ m, n ≤ m ∧ stream (run 0).build (run n) <+: (run m).outputs := by
  obtain ⟨m, hnm, hlen⟩ := exists_outputs_length hrun hfair hr hd _ le_rfl
  refine ⟨m, hnm, List.prefix_of_prefix_length_le (stream_prefix hrun hr hnm)
    (List.prefix_append _ _) ?_⟩
  rwa [length_stream]

/-! ### An eager block -/

/-- The choice to offer and to be ready wherever the rules allow it. -/
def eagerChoice : Choice := { offer := true, readyHeld := true, readyTaken := true }

/-- An eager block offers an old head, and is ready where it has room. -/
theorem seen_of_eager {s : State} (hc : s.choice = eagerChoice) (hr : s.now.rst = false) :
    s.seen.outValid = s.headOld ∧ s.seen.inReady = s.settle.hasRoom false s.now.outReady := by
  have hc' : s.settle.choice = eagerChoice := hc
  have hready : s.settle.choice.ready s.now.outReady = true := by
    rw [hc']
    exact ite_self _
  constructor
  · show s.settle.outValid s.now.rst = s.headOld
    rw [State.outValid, hr, hc', eagerChoice, Bool.or_true, Bool.and_true]
    rfl
  · show s.settle.inReady s.now.rst s.now.outReady = _
    rw [State.inReady, hr, hready, Bool.and_true]
    rfl

/-- A block keeps its invariant along every run. -/
theorem blockInv_of_run {run : Nat → State} (hrun : IsRun run) (h : (run 0).BlockInv) (n : Nat) :
    (run n).BlockInv := by
  induction n with
  | zero => exact h
  | succ n ih =>
    obtain ⟨more, u, hu, ht⟩ := hrun n
    obtain ⟨v, hv, rfl⟩ := step_next hu
    have hinv : v.BlockInv := blockInv_of_blockCycle (blockInv_settle ih) hv
    rw [ht]
    exact hinv

/-- While nothing is offered, the head of Q stays and ages. -/
theorem head_ages {run : Nat → State} (hrun : IsRun run) {n : Nat} (hr : NoResetFrom run n)
    (hq : (run n).q ≠ []) (hv : ∀ m, n ≤ m → (run m).seen.outValid = false) (k : Nat) :
    ∃ e rest, (run (n + k)).q = e :: rest ∧ k ≤ e.age := by
  induction k with
  | zero =>
    obtain ⟨e, rest, he⟩ := List.exists_cons_of_ne_nil hq
    exact ⟨e, rest, he, Nat.zero_le _⟩
  | succ k ih =>
    obtain ⟨e, rest, he, hage⟩ := ih
    have hnone : (run (n + k)).settle.delivers (run (n + k)).now = false := by
      have hv' : (run (n + k)).settle.outValid (run (n + k)).now.rst = false := hv _ (by omega)
      rw [State.delivers, hv', Bool.false_and]
    obtain ⟨rest', hq'⟩ := transferEdge_head (s := (run (n + k)).settle) he hnone
    exact ⟨_, rest', (stepsTo_transfers (hrun (n + k)) (hr _ (by omega))).1.trans hq',
      Nat.succ_le_succ hage⟩

/-- An eager block offers what is in Q, once it is old enough. -/
theorem eager_offers {run : Nat → State} (hrun : IsRun run) (hc : ∀ n, (run n).choice = eagerChoice)
    {n : Nat} (hr : NoResetFrom run n) (hq : (run n).q ≠ []) :
    ∃ m, n ≤ m ∧ (run m).seen.outValid = true := by
  by_contra hnever
  have hv : ∀ m, n ≤ m → (run m).seen.outValid = false :=
    fun m hm => Bool.eq_false_iff.2 fun h => hnever ⟨m, hm, h⟩
  obtain ⟨e, rest, he, hage⟩ := head_ages hrun hr hq hv (run 0).build.latency
  have hold : (run (n + (run 0).build.latency)).headOld = true :=
    (headOld_iff _).2 ⟨e, rest, he, by rwa [build_of_run hrun]⟩
  have hle : n ≤ n + (run 0).build.latency := by omega
  have := (seen_of_eager (hc _) (hr _ hle)).1.symm.trans (hv _ hle)
  rw [hold] at this
  exact absurd this (by decide)

theorem depth_pos {s : State} (h : s.BlockInv) : 1 ≤ s.build.depth := by
  obtain ⟨hwf, -⟩ := h
  simp only [Build.wf, Bool.and_eq_true, decide_eq_true_eq] at hwf
  exact hwf.1.1

/-- An eager block is ready while Q is not full. -/
theorem eager_ready_of_room {s : State} (hc : s.choice = eagerChoice) (hr : s.now.rst = false)
    (h : s.q.length < s.build.depth) : s.seen.inReady = true := by
  rw [(seen_of_eager hc hr).2]
  exact (hasRoom_iff _ _ _).2 (.inl h)

/-- An eager block whose host keeps taking is ready again and again: full, it delivers its head, and then
has room. -/
theorem eager_ready {run : Nat → State} (hrun : IsRun run) (hinv : (run 0).BlockInv)
    (hc : ∀ n, (run n).choice = eagerChoice) {n : Nat} (hr : NoResetFrom run n)
    (hd : DrainsFrom run n) : ∃ m, n ≤ m ∧ (run m).seen.inReady = true := by
  by_cases hlt : (run n).q.length < (run n).build.depth
  · exact ⟨n, le_rfl, eager_ready_of_room (hc n) (hr n le_rfl) hlt⟩
  · have hdepth := depth_pos (blockInv_of_run hrun hinv n)
    have hq : (run n).q ≠ [] := fun h => hlt (by rw [h, List.length_nil]; omega)
    obtain ⟨m, hnm, hdel⟩ := exists_delivery hrun hr hd (eager_offers hrun hc hr hq)
    obtain ⟨hv, ho⟩ := Bool.and_eq_true_iff.1 hdel
    obtain ⟨-, hlen, -⟩ := blockInv_of_run hrun hinv m
    refine ⟨m, hnm, ?_⟩
    rw [(seen_of_eager (hc m) (hr m hnm)).2]
    refine (hasRoom_iff _ _ _).2 (hlen.lt_or_eq.imp_right fun heq => ⟨heq, ?_, ho⟩)
    rw [← hr m hnm]
    exact hv

/-! ### A block that withholds `in_ready` -/

/-- The ports of a host that offers a black pixel and takes nothing. -/
def offeringHeld : PortsIn :=
  { rst := false, inValid := true, inData := .w96 0, outReady := false }

/-- Cycle `n` of a block with LATENCY = 1 that offers its one pixel and is not ready, beside that host. -/
def withholding (n : Nat) : State :=
  { State.reset with
    build := { Config.thisBuild with latency := 1 }
    schedule := [{ offer := true, readyHeld := false, readyTaken := true }]
    q := [{ beat := .encode32 0 0 0, age := n + 1 }]
    offered := n != 0
    draws := n
    host := { HostSide.quiet with script := [.drive offeringHeld], dests := [none] } }

theorem withholding_settle (n : Nat) : (withholding n).settle = withholding n :=
  settle_of_current rfl rfl

theorem withholding_outValid (n : Nat) : (withholding n).outValid false = true :=
  (outValid_iff _ _).2 ⟨rfl, (headOld_iff _).2 ⟨_, _, rfl, Nat.le_add_left 1 n⟩, .inr rfl⟩

theorem withholding_seen (n : Nat) :
    (withholding n).seen.outValid = true ∧ (withholding n).seen.inReady = false :=
  ⟨withholding_outValid n, rfl⟩

/-- It delivers nothing. -/
theorem withholding_delivers (n : Nat) : (withholding n).delivers offeringHeld = false ∧
    (withholding n).delivered offeringHeld = [] := by
  have hdelivers : (withholding n).delivers offeringHeld = false := Bool.and_false _
  exact ⟨hdelivers, by rw [State.delivered, hdelivers, if_neg Bool.false_ne_true]⟩

/-- Its edges only age the pixel. -/
theorem withholding_edge (n : Nat) : (withholding n).transferEdge offeringHeld =
    { withholding (n + 1) with schedule := [], host := (withholding n).host } := by
  obtain ⟨hdelivers, hdelivered⟩ := withholding_delivers n
  have hv : (withholding n).outValid offeringHeld.rst = true := withholding_outValid n
  rw [State.transferEdge, hdelivers, hdelivered, hv]
  rfl

/-- The host stays as it was, but for its line, which has had its cycle. -/
theorem withholding_nextHost (n : Nat) :
    (withholding n).nextHost offeringHeld = { HostSide.quiet with dests := [none] } := by
  obtain ⟨hdelivers, hdelivered⟩ := withholding_delivers n
  rw [State.nextHost, State.nextDests, State.nextMem, hdelivers, hdelivered]
  rfl

/-- It takes the beat no further, and the host is given its line again. -/
theorem withholding_isRun : IsRun withholding := by
  intro n
  have hports : (withholding n).settle.hostPorts = offeringHeld := rfl
  have hbeat : (withholding n).settle.beatPorts (decode offeringHeld.inData) = offeringHeld :=
    beatPorts_of_offering (s := (withholding n).settle) rfl rfl
  refine ⟨[.drive offeringHeld], { withholding (n + 1) with
    schedule := [], host := { HostSide.quiet with dests := [none] } }, ?_, rfl⟩
  rw [step_of_offering rfl rfl, hports, exec_live rfl rfl, hbeat, withholding_settle, withholding_edge,
    withholding_nextHost]
  rfl

/-! ### The obligations -/

/-- Settles O23: every edge without reset keeps the stream, but for the accepted beat's result. -/
theorem streamKeepsOrder : Obligations.StreamKeepsOrder := by
  intro run n k hrun hr
  have h := stream_of_run hrun n k hr
  rwa [← build_of_run hrun n, stream, stream, List.append_assoc] at h

/-- Settles O26: the outputs come to cover the stream, and the stream keeps its front part. -/
theorem fairRunDeliversEveryEntry : Obligations.FairRunDeliversEveryEntry := by
  intro run n hrun hfair hr hd
  rw [build_of_run hrun n]
  exact exists_stream_delivered hrun hfair hr hd

/-- Settles O28: an eager block offers and is ready in time; and a block whose host takes nothing may offer
its pixel and never be ready. -/
theorem eagerBlockIsFair : Obligations.EagerBlockIsFair := by
  refine ⟨fun run hrun hinv hc n hr => ?_,
    withholding, withholding_isRun, by decide, fun n _ => ?_, fun _ _ => rfl, fun n => ?_⟩
  · refine ⟨eager_offers hrun hc hr, fun hd k hk =>
      eager_ready hrun hinv hc (noResetFrom_mono hr hk) (drainsFrom_mono hd hk), fun hq => ?_⟩
    have hdepth := depth_pos (blockInv_of_run hrun hinv n)
    refine ⟨n, le_rfl, eager_ready_of_room (hc n) (hr n le_rfl) ?_⟩
    rw [hq n le_rfl, List.length_nil]
    exact hdepth
  · refine ⟨fun _ => ⟨n, le_rfl, (withholding_seen n).1⟩, fun hd => ?_, fun hq => ?_⟩
    · obtain ⟨m, -, ho⟩ := hd n le_rfl
      exact nomatch ho
    · exact nomatch hq n le_rfl
  · exact ⟨List.cons_ne_nil _ _, (by decide : 1 < 5), rfl, rfl, (withholding_seen n).2⟩

end Sys2Proof.Proofs

/-!
PROOFS about the run of a draining program (spec/70_reset_and_hazards.md rule R251, spec/30_encoding.md rule
R88): the lines a script settles to, what a program keeps from cycle to cycle, how long a line waits, and that
the program comes to its end; then the obligation.
-/

namespace Sys2Proof.Proofs

open Sys2Proof Sys2Proof.Machine Sys2Proof.Laws

/-! ### Scripts -/

/-- A script whose first line, if it has one, fills the cycle of a block with Q empty or not. -/
inductive FillsCycle (empty : Bool) : List Line → Prop
  | ended : FillsCycle empty []
  | send (beat : InData) (dest : Option (Nat × Nat)) (ls : List Line) :
      FillsCycle empty (.send beat dest :: ls)
  | idle (n : Nat) (ls : List Line) : FillsCycle empty (.idle (n + 1) :: ls)
  | reset (n : Nat) (ls : List Line) : FillsCycle empty (.reset (n + 1) :: ls)
  | drain (ls : List Line) (h : empty = false) : FillsCycle empty (.drain :: ls)
  | drive (p : PortsIn) (ls : List Line) : FillsCycle empty (.drive p :: ls)

/-- No RESET stands behind an ENCODE line (rule R251). -/
def ResetsLead : List Line → Prop
  | [] => True
  | .send _ _ :: ls => ∀ l ∈ ls, l.isReset = false
  | _ :: ls => ResetsLead ls

/-- The cycles a line takes at least, with one more for its end. -/
def lineCost : Line → Nat
  | .idle n => n + 1
  | .reset n => n + 1
  | _ => 1

/-- What is left to do in a script. -/
def scriptCost (ls : List Line) : Nat := (ls.map lineCost).sum

theorem resetsLead_of_noReset {ls : List Line} (h : ∀ l ∈ ls, l.isReset = false) : ResetsLead ls := by
  induction ls with
  | nil => trivial
  | cons l ls ih =>
    have hls : ∀ l ∈ ls, l.isReset = false := fun l hl => h l (List.mem_cons_of_mem _ hl)
    cases l with
    | send beat dest => exact hls
    | _ => exact ih hls

/-- Lines without ENCODE may stand in front. -/
theorem resetsLead_append {before ls : List Line} (hb : scriptBeats before = []) (h : ResetsLead ls) :
    ResetsLead (before ++ ls) := by
  induction before with
  | nil => exact h
  | cons l before ih =>
    cases l with
    | send beat dest => exact nomatch hb
    | _ => exact ih hb

theorem scriptBeats_append (ls ls' : List Line) :
    scriptBeats (ls ++ ls') = scriptBeats ls ++ scriptBeats ls' := by
  induction ls with
  | nil => rfl
  | cons l ls ih => cases l <;> simp [scriptBeats, ih]

/-! ### What a program keeps -/

/-- The program that is left and the state it has reached: plain lines of the build's format, with RESET
before ENCODE only and only while Q is empty, and a DRAIN at the end or nothing left at all. -/
structure ProgramLeft (b : Build) (empty : Bool) (ls : List Line) : Prop where
  plain : ∀ l ∈ ls, l.isPlain b.fmt = true
  lead : ResetsLead ls
  quiet : empty = true ∨ ∀ l ∈ ls, l.isReset = false
  drains : ls = [] ∧ empty = true ∨ ls.getLast? = some .drain

/-- A first line that is not the last DRAIN may be taken off. -/
theorem ProgramLeft.tail {b : Build} {empty : Bool} {l : Line} {ls : List Line}
    (h : ProgramLeft b empty (l :: ls)) (hl : l = .drain → empty = true) : ProgramLeft b empty ls where
  plain := fun l' hl' => h.plain l' (List.mem_cons_of_mem _ hl')
  lead := by
    have hlead := h.lead
    cases l with
    | send beat dest => exact resetsLead_of_noReset hlead
    | _ => exact hlead
  quiet := h.quiet.imp_right fun hq l' hl' => hq l' (List.mem_cons_of_mem _ hl')
  drains := by
    rcases h.drains with ⟨hnil, -⟩ | hlast
    · exact nomatch hnil
    · cases ls with
      | nil => exact .inl ⟨rfl, hl (by simpa using hlast)⟩
      | cons l' ls => exact .inr (by simpa using hlast)

/-- Settling takes lines without a beat off the front, until one fills the cycle. -/
theorem programLeft_settleLines {b : Build} {empty : Bool} (img : Image) (m : List Host.Cell)
    {ls : List Line} (held : Nat) (h : ProgramLeft b empty ls) :
    ProgramLeft b empty (settleLines img b.fmt m empty ls held).1 ∧
      FillsCycle empty (settleLines img b.fmt m empty ls held).1 ∧
      scriptBeats (settleLines img b.fmt m empty ls held).1 = scriptBeats ls ∧
      scriptCost (settleLines img b.fmt m empty ls held).1 ≤ scriptCost ls := by
  induction ls generalizing held with
  | nil => exact ⟨h, .ended, rfl, le_rfl⟩
  | cons l ls ih =>
    have hskip (hl : l = .drain → empty = true) (held' : Nat)
        (hbeats : scriptBeats (l :: ls) = scriptBeats ls) :
        ProgramLeft b empty (settleLines img b.fmt m empty ls held').1 ∧
          FillsCycle empty (settleLines img b.fmt m empty ls held').1 ∧
          scriptBeats (settleLines img b.fmt m empty ls held').1 = scriptBeats (l :: ls) ∧
          scriptCost (settleLines img b.fmt m empty ls held').1 ≤ scriptCost (l :: ls) := by
      obtain ⟨hleft, hfills, hb, hcost⟩ := ih held' (h.tail hl)
      refine ⟨hleft, hfills, hb.trans hbeats.symm, hcost.trans ?_⟩
      simp [scriptCost]
    match l, h, hskip with
    | .hold n, h, hskip => exact hskip (by simp) _ rfl
    | .idle 0, h, hskip => exact hskip (by simp) _ rfl
    | .reset 0, h, hskip => exact hskip (by simp) _ rfl
    | .idle (n + 1), h, _ => exact ⟨h, .idle n ls, rfl, le_rfl⟩
    | .reset (n + 1), h, _ => exact ⟨h, .reset n ls, rfl, le_rfl⟩
    | .send beat dest, h, _ => exact ⟨h, .send beat dest ls, rfl, le_rfl⟩
    | .drive p, h, _ => exact ⟨h, .drive p ls, rfl, le_rfl⟩
    | .pixel y x, h, _ => exact nomatch h.plain _ List.mem_cons_self
    | .drain, h, hskip =>
      cases empty with
      | true => exact hskip (fun _ => rfl) held rfl
      | false => exact ⟨h, .drain ls rfl, rfl, le_rfl⟩

/-- What is left does not suffer from a Q that has run empty. -/
theorem ProgramLeft.mono {b : Build} {empty empty' : Bool} {ls : List Line} (h : ProgramLeft b empty ls)
    (he : empty = true → empty' = true) : ProgramLeft b empty' ls where
  plain := h.plain
  lead := h.lead
  quiet := h.quiet.imp_left he
  drains := h.drains.imp_left (And.imp_right he)

/-- A line that counts down stays a line of its kind. -/
theorem ProgramLeft.replace {b : Build} {empty : Bool} {l l' : Line} {ls : List Line}
    (h : ProgramLeft b empty (l :: ls)) (hd : l ≠ .drain) (hplain : l'.isPlain b.fmt = true)
    (hreset : l'.isReset = l.isReset) (hlead : ResetsLead (l' :: ls)) :
    ProgramLeft b empty (l' :: ls) where
  plain := List.forall_mem_cons.2 ⟨hplain, fun x hx => h.plain x (List.mem_cons_of_mem _ hx)⟩
  lead := hlead
  quiet := h.quiet.imp_right fun hq => List.forall_mem_cons.2
    ⟨hreset.trans (hq l List.mem_cons_self), fun x hx => hq x (List.mem_cons_of_mem _ hx)⟩
  drains := by
    rcases h.drains with ⟨hnil, -⟩ | hlast
    · exact nomatch hnil
    · cases ls with
      | nil => exact absurd (by simpa using hlast) hd
      | cons l'' ls => exact .inr (by simpa using hlast)

/-- After an ENCODE line no RESET comes, and something is left. -/
theorem ProgramLeft.afterSend {b : Build} {empty : Bool} {beat : InData} {dest : Option (Nat × Nat)}
    {ls : List Line} (h : ProgramLeft b empty (.send beat dest :: ls)) (empty' : Bool) :
    ProgramLeft b empty' ls where
  plain := fun l hl => h.plain l (List.mem_cons_of_mem _ hl)
  lead := resetsLead_of_noReset h.lead
  quiet := .inr h.lead
  drains := by
    rcases h.drains with ⟨hnil, -⟩ | hlast
    · exact nomatch hnil
    · cases ls with
      | nil => simp at hlast
      | cons l ls => exact .inr (by simpa using hlast)

/-! ### A cycle of a program -/

/-- The output list a program is to end with, as far as it is settled: the stream, then ENCODE of the lines
still to come. -/
def programStream (b : Build) (s : State) : List OutData :=
  stream b s ++ (scriptBeats s.host.script).map fun d => encodeBeat b (decode d)

/-- What holds along the run of a program. -/
structure ProgramInv (b : Build) (target : List OutData) (s : State) : Prop where
  build : s.build = b
  left : ProgramLeft b s.q.isEmpty s.host.script
  stream : programStream b s = target

theorem programInv_settle {b : Build} {target : List OutData} {s : State} (h : ProgramInv b target s) :
    ProgramInv b target s.settle ∧ FillsCycle s.q.isEmpty s.settle.host.script ∧
      scriptCost s.settle.host.script ≤ scriptCost s.host.script := by
  obtain ⟨hbuild, hleft, hstream⟩ := h
  obtain ⟨hleft', hfills, hbeats, hcost⟩ :=
    programLeft_settleLines s.host.image s.host.mem s.host.hold hleft
  subst hbuild
  refine ⟨⟨rfl, hleft', ?_⟩, hfills, hcost⟩
  rw [← hstream]
  exact congrArg (fun ds => Proofs.stream s.build s ++ ds.map fun d => encodeBeat s.build (decode d))
    hbeats

/-- A block that is offered no beat accepts none. -/
theorem accepted_of_idle {s : State} {p : PortsIn} (h : p.inValid = false) :
    s.accepts p = false ∧ s.accepted p = none := by
  have haccepts : s.accepts p = false := by rw [State.accepts, h, Bool.false_and]
  exact ⟨haccepts, by rw [State.accepted, haccepts, if_neg Bool.false_ne_true]⟩

/-- An edge that accepts nothing leaves an empty Q empty. -/
theorem edge_empty {s : State} {p : PortsIn} (h : s.accepted p = none) (hq : s.q.isEmpty = true) :
    (s.edge p).q.isEmpty = true := by
  rw [List.isEmpty_iff] at hq ⊢
  unfold State.edge
  split
  · exact resetEdge_q s
  · rw [transferEdge_q, nextQueue_eq, h, hq]
    simp

/-- An edge that accepts nothing keeps the stream, unless it is a reset with pixels in flight. -/
theorem stream_edge_of_idle {s : State} {p : PortsIn} (h : s.accepted p = none)
    (hr : p.rst = true → s.q = []) : stream s.build (s.edge p) = stream s.build s := by
  cases hrst : p.rst
  · rw [State.edge, hrst, if_neg Bool.false_ne_true, stream_transferEdge, h, Option.toList_none,
      List.map_nil, List.append_nil]
  · rw [State.edge, hrst, if_pos rfl, stream, stream, resetEdge_q, resetEdge_outputs, hr hrst]

section
variable {target : List OutData} {s t : State} (h : ProgramInv s.build target s)
  (hbuild : t.build = s.build) (hq : t.q = (s.edge s.hostPorts).q)
  (hout : t.outputs = (s.edge s.hostPorts).outputs)
include h hbuild hq hout

/-- A cycle without a beat keeps what holds, if the lines left are as good as before. -/
theorem programInv_of_idle {ls : List Line} (hv : s.hostPorts.inValid = false)
    (hr : s.hostPorts.rst = true → s.q = []) (hscript : t.host.script = ls)
    (hleft : ProgramLeft s.build s.q.isEmpty ls) (hbeats : scriptBeats ls = scriptBeats s.host.script) :
    ProgramInv s.build target t := by
  have hnone := (accepted_of_idle (s := s) hv).2
  have hstream : stream s.build t = stream s.build s := by
    rw [← stream_edge_of_idle hnone hr, stream, stream, hq, hout]
  refine ⟨hbuild, ?_, ?_⟩
  · rw [hscript, hq]
    exact hleft.mono (edge_empty hnone)
  · rw [← h.stream, programStream, programStream, hstream, hscript, hbeats]

/-- A cycle of an ENCODE line keeps what holds: the accepted beat goes from the script to the stream. -/
theorem programInv_of_send {beat : InData} {dest : Option (Nat × Nat)} {ls : List Line}
    (hs : s.host.script = .send beat dest :: ls)
    (hscript : t.host.script = nextScript (s.accepts s.hostPorts) s.host.script) :
    ProgramInv s.build target t := by
  have hports := hostPorts_of_send hs
  have hleft := h.left
  have hedge : s.edge s.hostPorts = s.transferEdge s.hostPorts := by rw [State.edge, hports]; rfl
  have hstream : stream s.build t =
      stream s.build s ++ (s.accepted s.hostPorts).toList.map (encodeBeat s.build) := by
    rw [← stream_transferEdge, ← hedge, stream, stream, hq, hout]
  have hquiet : ∀ l ∈ s.host.script, l.isReset = false := by
    rw [hs] at hleft ⊢
    exact List.forall_mem_cons.2 ⟨rfl, hleft.lead⟩
  rcases accepted_cases s s.hostPorts with ⟨hacc, -, -, hbeat⟩ | ⟨hacc, hbeat⟩
  · rw [hs, hacc] at hscript
    rw [hs] at hleft
    have hdata : s.hostPorts.inData = beat := by rw [hports]
    refine ⟨hbuild, hscript ▸ hleft.afterSend _, ?_⟩
    rw [← h.stream, programStream, programStream, hstream, hbeat, hdata, hscript, hs, List.append_assoc]
    rfl
  · have hsame : t.host.script = s.host.script := by rw [hscript, hacc, hs]; rfl
    have hdrains := hleft.drains.resolve_left fun hnil => by simp [hs] at hnil
    refine ⟨hbuild, ?_, ?_⟩
    · rw [hsame]
      exact ⟨hleft.plain, hleft.lead, .inr hquiet, .inr hdrains⟩
    · rw [← h.stream, programStream, programStream, hstream, hbeat, hsame, Option.toList_none,
        List.map_nil, List.append_nil]

/-- A cycle of a program keeps what holds along its run. -/
theorem programInv_next (hf : FillsCycle s.q.isEmpty s.host.script)
    (hscript : t.host.script = nextScript (s.accepts s.hostPorts) s.host.script) :
    ProgramInv s.build target t := by
  have hleft := h.left
  have hidle {ls : List Line} := programInv_of_idle h hbuild hq hout (ls := ls)
  generalize hs : s.host.script = ls at hf
  cases hf with
  | send beat dest ls => exact programInv_of_send h hbuild hq hout hs hscript
  | ended =>
    rw [hs] at hscript hleft
    exact hidle (by rw [State.hostPorts, hs]) (by simp [State.hostPorts, hs]) hscript hleft
      (by rw [hs]; rfl)
  | idle n ls =>
    rw [hs] at hscript hleft
    exact hidle (by rw [State.hostPorts, hs]) (by simp [State.hostPorts, hs]) hscript
      (hleft.replace (by simp) rfl rfl hleft.lead) (by rw [hs]; rfl)
  | drain ls hempty =>
    rw [hs] at hscript hleft
    exact hidle (by rw [State.hostPorts, hs]) (by simp [State.hostPorts, hs]) hscript hleft
      (by rw [hs]; rfl)
  | reset n ls =>
    rw [hs] at hscript hleft
    have hempty : s.q = [] := List.isEmpty_iff.1 <|
      hleft.quiet.resolve_right fun hq => nomatch hq _ List.mem_cons_self
    exact hidle (by rw [State.hostPorts, hs]) (fun _ => hempty) hscript
      (hleft.replace (by simp) rfl rfl hleft.lead) (by rw [hs]; rfl)
  | drive p ls =>
    rw [hs] at hleft
    exact nomatch hleft.plain _ List.mem_cons_self

end

/-! ### The run of a program -/

/-- What comes after a cycle of a program: the host's script and HOLD go on from the settled ones. -/
theorem script_succ {run : Nat → State} (h : IsProgramRun run) (n : Nat) :
    (run (n + 1)).host.script =
        nextScript ((run n).settle.accepts (run n).now) (run n).settle.host.script ∧
      (run (n + 1)).host.hold = (run n).settle.host.hold - 1 := by
  obtain ⟨u, hu, ht⟩ := h n
  have hhost : (run (n + 1)).host = { u.host with script := u.host.script ++ [] } := by rw [ht]
  rw [hhost, List.append_nil, host_of_step hu]
  exact ⟨rfl, rfl⟩

theorem programInv_of_run {run : Nat → State} (hrun : IsProgramRun run) {target : List OutData}
    (h : ProgramInv (run 0).build target (run 0)) (n : Nat) :
    ProgramInv (run 0).build target (run n) := by
  induction n with
  | zero => exact h
  | succ n ih =>
    obtain ⟨hinv, hfills, -⟩ := programInv_settle ih
    obtain ⟨hbuild, hq, hout, -⟩ := stepsTo_edge (isRun_of_program hrun n)
    rw [← ih.build] at hinv ⊢
    exact programInv_next (s := (run n).settle) hinv hbuild hq hout hfills (script_succ hrun n).1

/-- While a line waits, it stays the current one, and each cycle takes one off a HOLD. -/
theorem line_waits {run : Nat → State} (hrun : IsProgramRun run) {n : Nat} {l : Line} {ls : List Line}
    (hl : (run n).settle.host.script = l :: ls) (k : Nat)
    (hnext : ∀ i, i < k → nextScript ((run (n + i)).settle.accepts (run (n + i)).now) (l :: ls) = l :: ls)
    (hfills : ∀ i, i < k → ∀ img f m held,
      settleLines img f m (run (n + i + 1)).q.isEmpty (l :: ls) held = (l :: ls, held)) :
    (run (n + k)).settle.host.script = l :: ls ∧
      (run (n + k)).settle.host.hold = (run n).settle.host.hold - k := by
  induction k with
  | zero => exact ⟨hl, rfl⟩
  | succ k ih =>
    obtain ⟨hscript, hhold⟩ := ih (fun i hi => hnext i (by omega)) fun i hi => hfills i (by omega)
    obtain ⟨hscript', hhold'⟩ := script_succ hrun (n + k)
    rw [hscript, hnext k k.lt_succ_self] at hscript'
    have hsettle := settle_of_current hscript' (hfills k k.lt_succ_self _ _ _ _)
    rw [← Nat.add_assoc, hsettle, hscript', hhold', hhold]
    exact ⟨rfl, Nat.sub_sub _ _ _⟩

theorem hostPorts_outReady (s : State) : s.hostPorts.outReady = s.hostOutReady := by
  unfold State.hostPorts State.hostOutReady
  rcases s.host.script with _ | ⟨l, ls⟩
  · rfl
  · cases l <;> rfl

/-- A host whose line waits for ever takes every output once its HOLD is over. -/
theorem drainsFrom_of_waiting {run : Nat → State} {n held : Nat} {l : Line} {ls : List Line}
    (hl : ∀ p, l ≠ .drive p) (h : ∀ k, (run (n + k)).settle.host.script = l :: ls ∧
      (run (n + k)).settle.host.hold = held - k) : DrainsFrom run n := by
  intro k hk
  obtain ⟨hscript, hhold⟩ := h (k - n + held)
  refine ⟨n + (k - n + held), by omega, ?_⟩
  rw [State.now, hostPorts_outReady]
  exact (hostOutReady_iff hscript hl).2 (by omega)

theorem noResetFrom_of_waiting {run : Nat → State} {n : Nat}
    (h : ∀ k, (run (n + k)).now.rst = false) : NoResetFrom run n := fun m hm => by
  obtain ⟨k, rfl⟩ := Nat.exists_eq_add_of_le hm
  exact h k

/-- An ENCODE line of a fair run is accepted in the end: the host comes to take every output, so the block is
ready again and again. -/
theorem exists_accept {run : Nat → State} (hrun : IsProgramRun run) (hfair : Fair run) {n : Nat}
    {beat : InData} {dest : Option (Nat × Nat)} {ls : List Line}
    (hl : (run n).settle.host.script = .send beat dest :: ls) :
    ∃ m, (run m).settle.host.script = .send beat dest :: ls ∧
      (run m).settle.accepts (run m).now = true := by
  classical
  have hwaits (k : Nat) (hk : ∀ i, i < k → (run (n + i)).settle.accepts (run (n + i)).now = false) :=
    line_waits hrun hl k (fun i hi => by rw [hk i hi]; rfl) fun _ _ _ _ _ _ => rfl
  have hexists : ∃ k, (run (n + k)).settle.accepts (run (n + k)).now = true := by
    by_contra hnever
    have hnone (k : Nat) : (run (n + k)).settle.accepts (run (n + k)).now = false :=
      Bool.eq_false_iff.2 fun hacc => hnever ⟨k, hacc⟩
    have hall (k : Nat) := hwaits k fun i _ => hnone i
    have hports (k : Nat) := hostPorts_of_send (hall k).1
    have hr : NoResetFrom run n := noResetFrom_of_waiting fun k => by rw [State.now, hports k]
    obtain ⟨m, hm, hready⟩ :=
      (hfair n hr).2.1 (drainsFrom_of_waiting (by simp) hall) n le_rfl
    obtain ⟨k, rfl⟩ := Nat.exists_eq_add_of_le hm
    refine absurd ?_ (Bool.eq_false_iff.1 (hnone k))
    have hv : (run (n + k)).now.inValid = true := by rw [State.now, hports k]
    rw [State.accepts, hv, Bool.true_and]
    exact hready
  refine ⟨_, (hwaits _ fun i hi => ?_).1, Nat.find_spec hexists⟩
  exact Bool.eq_false_iff.2 (Nat.find_min hexists hi)

/-- A DRAIN line of a fair run sees Q empty in the end: the outputs come to cover the stream, which no
accepted beat adds to. -/
theorem exists_drained {run : Nat → State} (hrun : IsProgramRun run) (hfair : Fair run)
    {target : List OutData} (hinv : ∀ n, ProgramInv (run 0).build target (run n)) {n : Nat}
    {ls : List Line} (hl : (run n).settle.host.script = .drain :: ls) (hq : (run n).q ≠ []) :
    ∃ m, (run m).host.script = .drain :: ls ∧ (run m).q = [] := by
  classical
  have hwaits (k : Nat) (hk : ∀ i, i < k → (run (n + i + 1)).q ≠ []) :=
    line_waits hrun hl k (fun _ _ => rfl) fun i hi _ _ _ _ => by
      rw [settleLines, if_neg (by simpa using hk i hi)]
  have hexists : ∃ k, (run (n + k + 1)).q = [] := by
    by_contra hnever
    have hbusy (k : Nat) : (run (n + k + 1)).q ≠ [] := fun h => hnever ⟨k, h⟩
    have hall (k : Nat) := hwaits k fun i _ => hbusy i
    have hr : NoResetFrom run n := noResetFrom_of_waiting fun k => by
      rw [State.now, State.hostPorts, (hall k).1]
    obtain ⟨m, hm, hpre⟩ := exists_stream_delivered (isRun_of_program hrun) hfair hr
      (drainsFrom_of_waiting (by simp) hall)
    obtain ⟨k, rfl⟩ := Nat.exists_eq_add_of_le hm
    have hsame : stream (run 0).build (run n) = stream (run 0).build (run (n + k)) := by
      have h0 := (programInv_settle (hinv n)).1.stream
      have hk := (programInv_settle (hinv (n + k))).1.stream
      rw [programStream, hl] at h0
      rw [programStream, (hall k).1, ← h0] at hk
      exact (List.append_cancel_right hk).symm
    have hlen := hpre.length_le
    rw [hsame, length_stream] at hlen
    have hempty : (run (n + k)).q = [] := List.length_eq_zero_iff.1 (by omega)
    cases k with
    | zero => exact hq hempty
    | succ k => exact hbusy k hempty
  refine ⟨_, ?_, Nat.find_spec hexists⟩
  rw [(script_succ hrun _).1, (hwaits _ fun i hi => Nat.find_min hexists hi).1]
  rfl

/-- A DRAIN of an empty block takes no cycle: what is left are the lines behind it. -/
theorem scriptCost_settle_of_drained {b : Build} {target : List OutData} {s : State} {ls : List Line}
    (h : ProgramInv b target s) (hs : s.host.script = .drain :: ls) (hq : s.q = []) :
    scriptCost s.settle.host.script ≤ scriptCost ls := by
  obtain ⟨rfl, hleft, -⟩ := h
  rw [hs, hq] at hleft
  have hsettle : s.settle.host.script =
      (settleLines s.host.image s.build.fmt s.host.mem true ls s.host.hold).1 := by
    rw [State.settle, hs, hq]
    rfl
  rw [hsettle]
  exact (programLeft_settleLines s.host.image s.host.mem s.host.hold (hleft.tail fun _ => rfl)).2.2.2

/-- A program in a fair run comes to its end, with its output list: whatever line is the current one, less is
left to do after some cycles. -/
theorem program_ends {run : Nat → State} (hrun : IsProgramRun run) (hfair : Fair run)
    {target : List OutData} (hinv : ∀ n, ProgramInv (run 0).build target (run n)) (n : Nat) :
    ∃ m, (run m).finished = true ∧ (run m).q = [] ∧ (run m).outputs = target := by
  induction hcost : scriptCost (run n).settle.host.script using Nat.strong_induction_on generalizing n with
  | _ cost ih =>
    have hlater (m : Nat) (h : scriptCost (run m).host.script < cost) :=
      ih _ ((programInv_settle (hinv m)).2.2.trans_lt h) m rfl
    obtain ⟨hleft, hfills, -⟩ := programInv_settle (hinv n)
    generalize hs : (run n).settle.host.script = script at hfills hcost
    subst hcost
    cases hfills with
    | ended =>
      have hdrains := hleft.left.drains
      rw [hs] at hdrains
      have hq : (run n).q = [] := List.isEmpty_iff.1 (hdrains.resolve_right (by simp)).2
      refine ⟨n, by rw [State.finished, hs]; rfl, hq, ?_⟩
      rw [← hleft.stream, programStream, stream, hs, settle_q, hq]
      simp [scriptBeats]
    | idle k ls =>
      refine hlater (n + 1) ?_
      rw [(script_succ hrun n).1, hs]
      simp [nextScript, scriptCost, lineCost]
    | reset k ls =>
      refine hlater (n + 1) ?_
      rw [(script_succ hrun n).1, hs]
      simp [nextScript, scriptCost, lineCost]
    | send beat dest ls =>
      obtain ⟨m, hm, hacc⟩ := exists_accept hrun hfair hs
      refine hlater (m + 1) ?_
      rw [(script_succ hrun m).1, hm, hacc]
      simp [nextScript, scriptCost, lineCost]
    | drain ls hbusy =>
      obtain ⟨m, hm, hq⟩ := exists_drained hrun hfair hinv hs (by simpa using hbusy)
      refine ih _ ((scriptCost_settle_of_drained (hinv m) hm hq).trans_lt ?_) m rfl
      simp [scriptCost, lineCost]
    | drive p ls =>
      have hplain := hleft.left.plain
      rw [hs] at hplain
      exact nomatch hplain _ List.mem_cons_self

/-! ### The obligation -/

/-- Settles O27: the program starts with nothing delivered, and what it keeps says what it ends with. -/
theorem drainingProgramOutputsItsEncodes : Obligations.DrainingProgramOutputsItsEncodes := by
  intro run before after hrun hfair _ _ hq hout hscript hplain hbefore hafter
  have hbeats : scriptBeats (run 0).host.script = scriptBeats after := by
    rw [hscript, scriptBeats_append, scriptBeats_append, hbefore]
    simp [scriptBeats]
  have hlead : ResetsLead (run 0).host.script := by
    rw [hscript]
    refine resetsLead_append hbefore (resetsLead_of_noReset fun l hl => ?_)
    rcases List.mem_append.1 hl with hl | hl
    · exact hafter l hl
    · rw [List.mem_singleton.1 hl]
      rfl
  have hinv : ProgramInv (run 0).build
      ((scriptBeats after).map fun d => encodeBeat (run 0).build (decode d)) (run 0) := by
    refine ⟨rfl, ⟨fun l hl => ?_, hlead, .inl (by rw [hq]; rfl), .inr ?_⟩, ?_⟩
    · rw [hscript, ← List.append_assoc] at hl
      rcases List.mem_append.1 hl with hl | hl
      · exact hplain l hl
      · rw [List.mem_singleton.1 hl]
        rfl
    · rw [hscript, ← List.append_assoc, List.getLast?_concat]
    · rw [programStream, stream, hq, hout, hbeats]
      rfl
  exact program_ends hrun hfair (programInv_of_run hrun hinv) 0

end Sys2Proof.Proofs

/-!
PROOFS about the reference pipeline (spec/10_state.md section 5): what its stages compute, the ports it shows
beside a block that holds the same pixels, and an edge of both; then the obligation.
-/

namespace Sys2Proof.Proofs

open Sys2Proof Sys2Proof.Machine Sys2Proof.Laws

/-! ### The stages -/

/-- The five stages in the place of the last one. -/
def lastStage (build : Build) (i : Instr) : Rgbm :=
  refS5 build (refS4 (refS3 build (refS2 build (refS1 i))))

/-- Together the five stages and PACK are ENCODE (rule R100). -/
theorem packOf_lastStage {build : Build} {i : Instr} (h : i.fits build.fmt = true) :
    packOf build (lastStage build i) = encodeBeat build i := by
  obtain ⟨fmt, _, _, _, _⟩ := build
  obtain rfl : i.fmt = fmt := beq_iff_eq.1 h
  cases i <;> rfl

/-- The choice under which the block does as the pipeline: it offers what stands in the last stage, and is
ready unless the pipeline stalls. -/
def refChoice (r : RefPipe) : Choice :=
  { offer := r.s5.isSome, readyHeld := !r.s5.isSome, readyTaken := true }

theorem refChoice_ready (r : RefPipe) (o : Bool) : (refChoice r).ready o = !r.stalled o := by
  cases o <;> simp [refChoice, Choice.ready, RefPipe.stalled]

/-- The last stage holds the head of Q, which is old enough; or it is empty, and then Q has room and nothing
was offered. -/
theorem lastStage_cases {r : RefPipe} {s : State} (h : RefMatches r s) :
    (∃ e rest, s.q = e :: rest ∧ 5 ≤ e.age ∧ rest.length ≤ 4 ∧
        r.s5 = some (lastStage s.build e.beat)) ∨
      (r.s5 = none ∧ s.offered = false ∧ s.q.length ≤ 4) := by
  obtain ⟨-, e1, e2, e3, e4, e5, rfl, hq, -, -, -, -, hage, hoff⟩ := h
  have hlen (e : Option Entry) : e.toList.length ≤ 1 := by cases e <;> simp
  have hrest : (e4.toList ++ (e3.toList ++ (e2.toList ++ e1.toList))).length ≤ 4 := by
    have h1 := hlen e1
    have h2 := hlen e2
    have h3 := hlen e3
    have h4 := hlen e4
    simp only [List.length_append]
    omega
  cases e5 with
  | none =>
    refine .inr ⟨rfl, by simpa using hoff, ?_⟩
    rw [hq]
    exact hrest
  | some e => exact .inl ⟨e, _, hq, hage e (by simp), hrest, rfl⟩

/-! ### The ports -/

section
variable {r : RefPipe} {s : State} (h : RefMatches r s) (hl : s.build.latency = 5)
include h hl

theorem outValid_refChoice (rst : Bool) :
    (s.choosing (refChoice r)).outValid rst = r.outValid rst := by
  rw [State.outValid, RefPipe.outValid, choosing_choice, choosing_offered, choosing_headOld, refChoice]
  rcases lastStage_cases h with ⟨e, rest, hq, hage, -, hs5⟩ | ⟨hs5, hoff, -⟩
  · have hold : s.headOld = true := (headOld_iff s).2 ⟨e, rest, hq, by omega⟩
    simp [hold, hs5]
  · simp [hoff, hs5]

theorem inReady_refChoice (hd : s.build.depth = 5) (rst o : Bool) :
    (s.choosing (refChoice r)).inReady rst o = r.inReady rst o := by
  rw [State.inReady, RefPipe.inReady, choosing_choice, refChoice_ready]
  cases rst
  · cases hstall : r.stalled o
    · have hroom : (s.choosing (refChoice r)).hasRoom false o = true := by
        refine (hasRoom_iff _ _ _).2 ?_
        rw [outValid_refChoice h hl]
        show s.q.length < s.build.depth ∨ s.q.length = s.build.depth ∧ _
        rcases lastStage_cases h with ⟨e, rest, hq, -, hlen, hs5⟩ | ⟨-, -, hlen⟩
        · have ho : o = true := by simpa [RefPipe.stalled, hs5] using hstall
          have hv : r.outValid false = true := by rw [RefPipe.outValid, hs5]; rfl
          rw [hq, List.length_cons, hd]
          exact (Nat.lt_or_eq_of_le (Nat.succ_le_succ hlen)).imp_right fun heq => ⟨heq, hv, ho⟩
        · exact .inl (by omega)
      rw [hroom]
      rfl
    · simp
  · rfl

omit hl in
theorem busy_refChoice (rst : Bool) : (s.choosing (refChoice r)).busy rst = r.busy rst := by
  obtain ⟨-, e1, e2, e3, e4, e5, rfl, hq, -⟩ := h
  show (!rst && !s.q.isEmpty) = _
  rw [hq, RefPipe.busy]
  cases e1 <;> cases e2 <;> cases e3 <;> cases e4 <;> cases e5 <;> rfl

theorem outData_refChoice {rst : Bool} (hv : r.outValid rst = true) :
    r.outData s.build = some ((s.choosing (refChoice r)).outData rst) := by
  rcases lastStage_cases h with ⟨e, rest, hq, -, -, hs5⟩ | ⟨hs5, -⟩
  · have hv' := (outValid_refChoice h hl rst).trans hv
    have hfits := h.1 e (hq ▸ List.mem_cons_self)
    rw [outData_of_head (s := s.choosing (refChoice r)) hv' hq, RefPipe.outData, hs5]
    exact congrArg some (packOf_lastStage hfits)
  · simp [RefPipe.outValid, hs5] at hv

end

/-! ### An edge of both -/

/-- Entries in the next stage have seen one edge more. -/
theorem age_map_older {e : Option Entry} {k : Nat} (h : ∀ x ∈ e.toList, k ≤ x.age) :
    ∀ x ∈ (e.map Entry.older).toList, k + 1 ≤ x.age := by
  cases e with
  | none => simp
  | some e =>
    simp only [Option.map_some, Option.toList_some, List.mem_singleton, forall_eq] at h ⊢
    exact Nat.succ_le_succ h

theorem map_older_beat (e : Option Entry) : (e.map Entry.older).map Entry.beat = e.map Entry.beat := by
  cases e <;> rfl

/-- The empty pipeline matches a block with Q empty and nothing offered. -/
theorem refMatches_empty {s : State} (hq : s.q = []) (ho : s.offered = false) :
    RefMatches RefPipe.empty s :=
  ⟨by simp [hq], none, none, none, none, none, rfl, by simpa using hq, by simp, by simp, by simp, by simp,
    by simp, by simp [ho]⟩

/-- An edge keeps Q in the build's format if the port carries that format. -/
theorem fits_transferEdge {s : State} {p : PortsIn} (h : ∀ e ∈ s.q, e.beat.fits s.build.fmt = true)
    (hfmt : p.inData.fmt = s.build.fmt) :
    ∀ e ∈ (s.transferEdge p).q, e.beat.fits s.build.fmt = true := by
  intro x hx
  rcases mem_nextQueue hx with ⟨e, he, rfl⟩ | ⟨b, hb, rfl⟩
  · exact h e he
  · rcases accepted_cases s p with ⟨-, -, -, hacc⟩ | ⟨-, hacc⟩
    · obtain rfl := Option.some.inj (hacc.symm.trans hb)
      exact beq_iff_eq.2 ((fmt_decode _).trans hfmt)
    · exact nomatch hacc.symm.trans hb

/-- A stalled pipeline and a block that neither delivers nor accepts match again. -/
theorem refMatches_stalled {r : RefPipe} {s : State} {p : PortsIn} (h : RefMatches r s)
    (hd : s.delivers p = false) (ha : s.accepted p = none) (hs5 : r.s5.isSome = true)
    (hfits : ∀ e ∈ (s.transferEdge p).q, e.beat.fits s.build.fmt = true) :
    RefMatches r (s.transferEdge p) := by
  obtain ⟨-, e1, e2, e3, e4, e5, hr, hq, h1, h2, h3, h4, h5, -⟩ := h
  refine ⟨hfits, e1.map Entry.older, e2.map Entry.older, e3.map Entry.older, e4.map Entry.older,
    e5.map Entry.older, ?_, ?_, ?_, ?_, ?_, ?_, ?_, fun _ => ?_⟩
  · simp only [map_older_beat]
    exact hr
  · rw [transferEdge_q, nextQueue_eq, hd, ha, hq]
    simp [Option.toList_map]
  · exact fun x hx => (age_map_older h1 x hx).trans' (by decide)
  · exact fun x hx => (age_map_older h2 x hx).trans' (by decide)
  · exact fun x hx => (age_map_older h3 x hx).trans' (by decide)
  · exact fun x hx => (age_map_older h4 x hx).trans' (by decide)
  · exact fun x hx => (age_map_older h5 x hx).trans' (by decide)
  · subst hr
    simpa [RefPipe.ofBeats] using hs5

/-- A moving pipeline and a block that delivers what stood in the last stage match again. -/
theorem refMatches_moving {r : RefPipe} {s : State} {p : PortsIn} (h : RefMatches r s)
    (hr0 : p.rst = false) (hstall : r.stalled p.outReady = false) (hd : s.delivers p = r.s5.isSome)
    (ha : s.accepts p = p.inValid) (hoff : (s.transferEdge p).offered = false)
    (hfits : ∀ e ∈ (s.transferEdge p).q, e.beat.fits s.build.fmt = true) :
    RefMatches (r.edge s.build p) (s.transferEdge p) := by
  obtain ⟨-, e1, e2, e3, e4, e5, hr, hq, h1, h2, h3, h4, -, -⟩ := h
  refine ⟨hfits, (s.accepted p).map fun b => { beat := b, age := 1 }, e1.map Entry.older,
    e2.map Entry.older, e3.map Entry.older, e4.map Entry.older, ?_, ?_, ?_, age_map_older h1,
    age_map_older h2, age_map_older h3, age_map_older h4, fun ho => ?_⟩
  · rw [RefPipe.edge, hr0, hstall, hr]
    simp only [Bool.false_eq_true, if_false, RefPipe.ofBeats, Option.map_map]
    congr 1
    rw [State.accepted, ha]
    cases p.inValid <;> rfl
  · have hrest : (if s.delivers p then s.q.tail else s.q) =
        e4.toList ++ (e3.toList ++ (e2.toList ++ e1.toList)) := by
      rw [hd, hr, hq]
      cases e5 <;> rfl
    rw [transferEdge_q, nextQueue_eq, hrest]
    simp [Option.toList_map]
  · rcases s.accepted p with _ | b <;> simp
  · exact nomatch hoff.symm.trans ho

/-- Under the choice that follows the pipeline, an edge keeps the match. -/
theorem refMatches_edge {r : RefPipe} {s : State} (h : RefMatches r s) (hl : s.build.latency = 5)
    (hd : s.build.depth = 5) {p : PortsIn} (hfmt : p.inData.fmt = s.build.fmt) :
    RefMatches (r.edge s.build p) ((s.choosing (refChoice r)).edge p) := by
  have hv := outValid_refChoice h hl p.rst
  have hready := inReady_refChoice h hl hd p.rst p.outReady
  cases hrst : p.rst
  · rw [hrst, RefPipe.outValid, Bool.not_false, Bool.true_and] at hv
    rw [hrst, RefPipe.inReady, Bool.not_false, Bool.true_and] at hready
    have hdel : (s.choosing (refChoice r)).delivers p = (r.s5.isSome && p.outReady) := by
      rw [State.delivers, hrst, hv]
    have hacc : (s.choosing (refChoice r)).accepts p = (p.inValid && !r.stalled p.outReady) := by
      rw [State.accepts, hrst, hready]
    have hoff : ((s.choosing (refChoice r)).transferEdge p).offered = r.stalled p.outReady := by
      rw [transferEdge_offered, hrst, hv, RefPipe.stalled]
    have hfits := fits_transferEdge (s := s.choosing (refChoice r)) (p := p) h.1 hfmt
    rw [State.edge, hrst, if_neg Bool.false_ne_true]
    cases hstall : r.stalled p.outReady
    · have hmoves : (r.s5.isSome && p.outReady) = r.s5.isSome := by
        have hbool : ∀ a o : Bool, (a && !o) = false → (a && o) = a := by decide
        exact hbool _ _ hstall
      exact refMatches_moving (s := s.choosing (refChoice r)) h hrst hstall (hdel.trans hmoves)
        (by rw [hacc, hstall, Bool.not_false, Bool.and_true]) (hoff.trans hstall) hfits
    · obtain ⟨hs5, ho⟩ : r.s5.isSome = true ∧ p.outReady = false := by
        simpa [RefPipe.stalled] using hstall
      have hnone : (s.choosing (refChoice r)).accepted p = none := by
        rw [State.accepted, hacc, hstall, Bool.not_true, Bool.and_false, if_neg Bool.false_ne_true]
      have hedge : r.edge s.build p = r := by
        rw [RefPipe.edge, hrst, if_neg Bool.false_ne_true, if_pos hstall]
      rw [hedge]
      exact refMatches_stalled (s := s.choosing (refChoice r)) h (by rw [hdel, ho, Bool.and_false]) hnone
        hs5 hfits
  · rw [State.edge, RefPipe.edge, hrst, if_pos rfl, if_pos rfl]
    exact refMatches_empty (resetEdge_q _) (resetEdge_offered _)

/-! ### The obligation -/

/-- Settles O29: the pipeline stalls exactly when it holds what is not taken, and else moves while the block
delivers what stood in the last stage. -/
theorem referencePipelineRefinesTheBlock : Obligations.ReferencePipelineRefinesTheBlock :=
  ⟨refMatches_empty reset_q reset_offered, fun r _ _ hd hl hfmt h =>
    ⟨refChoice r, outValid_refChoice h hl _, inReady_refChoice h hl hd _ _, busy_refChoice h _,
      outData_refChoice h hl, refMatches_edge h hl hd hfmt⟩⟩

end Sys2Proof.Proofs

/-!
PROOFS about RN and the encodings of FMT values (spec/00_scope.md rules R12 and R13, spec/30_encoding.md
rule R82): the nearest integer, RN of the opposite, the units an encoding counts, enc and val on the whole
range of FMT; then the obligations.
-/

namespace Sys2Proof.Proofs

open Sys2Proof Sys2Proof.Machine Sys2Proof.Laws

/-! ### The nearest integer -/

/-- A tie goes to an even integer (rule R12). -/
theorem roundEven_even_of_tie {q : Rat} (h : |q - roundEven q| = 1 / 2) : roundEven q % 2 = 0 := by
  have h1 : (q.floor : ℚ) ≤ q := Int.floor_le q
  have h2 : q < q.floor + 1 := Int.lt_floor_add_one q
  unfold roundEven at h ⊢
  split_ifs at h ⊢ with hlow hhigh heven
  · rw [abs_of_nonneg (by linarith)] at h
    linarith
  · push_cast at h
    rw [abs_of_neg (by linarith)] at h
    linarith
  · exact heven
  · omega

/-- Two integers within 1/2 of a number are equal, or the number lies halfway between them. -/
theorem eq_or_halfway {q : Rat} {m n : Int} (hm : |q - m| ≤ 1 / 2) (hn : |q - n| ≤ 1 / 2) :
    m = n ∨ |q - m| = 1 / 2 ∧ |q - n| = 1 / 2 ∧ (m = n + 1 ∨ n = m + 1) := by
  obtain ⟨hm1, hm2⟩ := abs_le.1 hm
  obtain ⟨hn1, hn2⟩ := abs_le.1 hn
  have hup : m ≤ n + 1 := by exact_mod_cast (by linarith : (m : ℚ) ≤ n + 1)
  have hdown : n ≤ m + 1 := by exact_mod_cast (by linarith : (n : ℚ) ≤ m + 1)
  rcases (by omega : m = n ∨ m = n + 1 ∨ n = m + 1) with h | h | h
  · exact .inl h
  · refine .inr ⟨?_, ?_, .inl h⟩ <;> subst h <;> push_cast at *
    · rw [abs_of_nonpos (by linarith)]; linarith
    · rw [abs_of_nonneg (by linarith)]; linarith
  · refine .inr ⟨?_, ?_, .inr h⟩ <;> subst h <;> push_cast at *
    · rw [abs_of_nonneg (by linarith)]; linarith
    · rw [abs_of_nonpos (by linarith)]; linarith

/-- What makes an integer the rounded one: at most 1/2 away, and even if it is that far. -/
theorem roundEven_unique {q : Rat} {n : Int} (h : |q - n| ≤ 1 / 2) (htie : |q - n| = 1 / 2 → n % 2 = 0) :
    roundEven q = n := by
  rcases eq_or_halfway (roundEven_error q) h with heq | ⟨hr, hn, hnext⟩
  · exact heq
  · have := roundEven_even_of_tie hr
    have := htie hn
    omega

/-- Rounding to the nearest integer is odd. -/
theorem roundEven_neg (q : Rat) : roundEven (-q) = -roundEven q := by
  have hdist : |-q - ((-roundEven q : Int) : ℚ)| = |q - roundEven q| := by
    rw [Int.cast_neg, neg_sub_neg, abs_sub_comm]
  refine roundEven_unique (hdist.trans_le (roundEven_error q)) fun htie => ?_
  have := roundEven_even_of_tie (hdist.symm.trans htie)
  omega

/-- No integer is nearer than the rounded one, and if another is as near, the rounded one is even. -/
theorem roundEven_nearest (q : Rat) (k : Int) : |q - roundEven q| ≤ |q - k| ∧
    (k ≠ roundEven q → |q - k| = |q - roundEven q| → roundEven q % 2 = 0) := by
  have herr := roundEven_error q
  by_cases hk : |q - k| ≤ 1 / 2
  · rcases eq_or_halfway herr hk with heq | ⟨hr, hkt, -⟩
    · exact ⟨heq ▸ le_rfl, fun hne => absurd heq.symm hne⟩
    · exact ⟨(hr.trans hkt.symm).le, fun _ _ => roundEven_even_of_tie hr⟩
  · exact ⟨by linarith, fun _ heq => by linarith⟩

/-! ### RN of the opposite -/

@[simp] theorem ulpExp_neg (f : Fmt) (v : Rat) : ulpExp f (-v) = ulpExp f v := by
  simp [ulpExp, ilog2]

/-- RN is odd. -/
@[simp] theorem rn_neg (f : Fmt) (v : Rat) : rn f (-v) = -rn f v := by
  rw [rn, rn, ulpExp_neg, neg_div, roundEven_neg, Int.cast_neg, neg_mul]

/-! ### The units an encoding counts -/

theorem signBit_eq_false_iff (f : Fmt) (e : Chan f) :
    signBit f e = false ↔ e.toNat < 2 ^ (f.expBits + f.fracBits) := by
  rw [signBit, decide_eq_false_iff_not, not_le]

/-- The bits below the sign are the exponent field and the fraction field (rule R82). -/
theorem toNat_mod_eq_fields (f : Fmt) (e : Chan f) :
    e.toNat % 2 ^ (f.expBits + f.fracBits) = expField f e * 2 ^ f.fracBits + fracField f e := by
  rw [expField, fracField, add_comm f.expBits, pow_add, Nat.mod_mul, add_comm, mul_comm]

/-- A finite encoding is the magnitude of its fields with its sign (rule R82). -/
theorem finite_of_val {f : Fmt} {e : Chan f} {v : Rat} (h : val f e = .real v) :
    expField f e < f.expMax ∧ v = if signBit f e then -magnitude f e else magnitude f e := by
  have hlt : expField f e < 2 ^ f.expBits := Nat.mod_lt _ (by positivity)
  rw [two_pow_expBits] at hlt
  unfold val at h
  split_ifs at h with hmax hfrac hneg <;> cases h
  · exact ⟨by omega, (if_pos hneg).symm⟩
  · exact ⟨by omega, (if_neg hneg).symm⟩

/-- A finite encoding counts `n` units of exponent `minExp + j` in its bits below the sign: `n` has at most
F + 1 bits, and exactly that many unless the units are those of the subnormals (rule R82). -/
theorem exists_count {f : Fmt} {e : Chan f} (h : expField f e < f.expMax) :
    ∃ j n : Nat, e.toNat % 2 ^ (f.expBits + f.fracBits) = j * 2 ^ f.fracBits + n ∧
      n < 2 ^ (f.fracBits + 1) ∧ (j = 0 ∨ 2 ^ f.fracBits ≤ n) ∧ j + 1 < f.expMax ∧
      magnitude f e = n * pow2 (f.minExp + j) := by
  have hfrac : fracField f e < 2 ^ f.fracBits := Nat.mod_lt _ (by positivity)
  have hmax : 1 < f.expMax := by cases f <;> decide
  rw [toNat_mod_eq_fields, pow_succ]
  rcases eq_or_ne (expField f e) 0 with hsub | hnorm
  · refine ⟨0, fracField f e, by rw [hsub], by omega, .inl rfl, hmax, ?_⟩
    rw [magnitude, if_pos hsub, Nat.cast_zero, add_zero]
  · obtain ⟨j, hj⟩ := Nat.exists_eq_succ_of_ne_zero hnorm
    refine ⟨j, 2 ^ f.fracBits + fracField f e, ?_, by omega, .inr (by omega), by omega, ?_⟩
    · rw [hj, Nat.succ_mul, add_assoc]
    · rw [magnitude, if_neg hnorm, hj, minExp_eq]
      congr 2
      push_cast
      ring

/-- The last place of a count of units with its leading bit in place, or of subnormal units. -/
theorem ulpExp_of_count {f : Fmt} {j n : Nat} (hn : n < 2 ^ (f.fracBits + 1)) (hpos : 0 < n)
    (hlead : j = 0 ∨ 2 ^ f.fracBits ≤ n) : ulpExp f (n * pow2 (f.minExp + j)) = f.minExp + j := by
  have hp := pow2_pos (f.minExp + j)
  have hx : 0 < n * pow2 (f.minExp + j) := mul_pos (by exact_mod_cast hpos) hp
  have hscale (m : Nat) : pow2 (f.minExp + j + m) = ((2 ^ m : Nat) : Rat) * pow2 (f.minExp + j) := by
    rw [add_comm, pow2_add, pow2_natCast]
  refine le_antisymm (ulpExp_le hx.ne' (by omega) ?_) ?_
  · rw [abs_of_pos hx, add_assoc, ← Nat.cast_succ, hscale]
    exact mul_lt_mul_of_pos_right (by exact_mod_cast hn) hp
  · rcases hlead with rfl | hlead
    · exact (add_zero _).trans_le (le_max_left _ _)
    · have hle : pow2 (f.minExp + j + f.fracBits) ≤ n * pow2 (f.minExp + j) := by
        rw [hscale]
        exact mul_le_mul_of_nonneg_right (by exact_mod_cast hlead) hp.le
      have hlog := pow2_lt.1 (hle.trans_lt ((le_abs_self _).trans_lt (ilog2_spec hx.ne').2))
      unfold ulpExp
      omega

/-- A count of units is an FMT value. -/
theorem rn_of_count {f : Fmt} {j n : Nat} (hn : n < 2 ^ (f.fracBits + 1))
    (hlead : j = 0 ∨ 2 ^ f.fracBits ≤ n) :
    rn f (n * pow2 (f.minExp + j)) = n * pow2 (f.minExp + j) := by
  rcases n.eq_zero_or_pos with rfl | hpos
  · rw [Nat.cast_zero, zero_mul, rn_zero]
  · refine rn_of_units n ?_
    rw [ulpExp_of_count hn hpos hlead, Int.cast_natCast]

/-- The value of a finite encoding is an FMT value (rule R13). -/
theorem rn_of_val {f : Fmt} {e : Chan f} {v : Rat} (h : val f e = .real v) : rn f v = v := by
  obtain ⟨hexpo, hv⟩ := finite_of_val h
  obtain ⟨j, n, -, hn, hlead, -, hmag⟩ := exists_count hexpo
  rw [hv, hmag]
  split_ifs
  · rw [rn_neg, rn_of_count hn hlead]
  · exact rn_of_count hn hlead

/-! ### enc and val on the whole range of FMT -/

/-- The bits of enc of a positive FMT value: its units above the exponent field (rule R82). -/
theorem encMagnitude_of_count {f : Fmt} {j n : Nat} (hn : n < 2 ^ (f.fracBits + 1)) (hpos : 0 < n)
    (hlead : j = 0 ∨ 2 ^ f.fracBits ≤ n) :
    encMagnitude f (n * pow2 (f.minExp + j)) = ((j * 2 ^ f.fracBits + n : Nat) : Int) := by
  rw [encMagnitude, ulpExp_of_count hn hpos hlead, add_sub_cancel_left,
    mul_div_cancel_right₀ _ (pow2_pos _).ne', ← Int.cast_natCast n, Rat.floor_intCast]
  push_cast
  rfl

/-- The bits of a count stay below the sign bit. -/
theorem count_lt_sign {f : Fmt} {j n : Nat} (hn : n < 2 ^ (f.fracBits + 1)) (hj : j + 1 < f.expMax) :
    j * 2 ^ f.fracBits + n < 2 ^ (f.expBits + f.fracBits) := by
  have hexp : (j + 2) * 2 ^ f.fracBits ≤ 2 ^ f.expBits * 2 ^ f.fracBits := by
    refine Nat.mul_le_mul_right _ ?_
    rw [two_pow_expBits]
    omega
  rw [pow_add]
  rw [pow_succ] at hn
  rw [Nat.add_mul] at hexp
  omega

theorem toNat_enc_of_count {f : Fmt} {j n : Nat} (hn : n < 2 ^ (f.fracBits + 1)) (hpos : 0 < n)
    (hlead : j = 0 ∨ 2 ^ f.fracBits ≤ n) (hj : j + 1 < f.expMax) :
    (enc f (n * pow2 (f.minExp + j))).toNat = j * 2 ^ f.fracBits + n :=
  toNat_enc (mul_pos (by exact_mod_cast hpos) (pow2_pos _)) (by rw [ulpExp_of_count hn hpos hlead]) hn
    (ulpExp_of_count hn hpos hlead) hj

/-- enc of the opposite sets the sign bit above the same bits (rule R13). -/
theorem toNat_enc_neg_of_count {f : Fmt} {j n : Nat} (hn : n < 2 ^ (f.fracBits + 1)) (hpos : 0 < n)
    (hlead : j = 0 ∨ 2 ^ f.fracBits ≤ n) (hj : j + 1 < f.expMax) :
    (enc f (-(n * pow2 (f.minExp + j)))).toNat =
      2 ^ (f.expBits + f.fracBits) + (j * 2 ^ f.fracBits + n) := by
  have hx : 0 < n * pow2 (f.minExp + j) := mul_pos (by exact_mod_cast hpos) (pow2_pos _)
  have hlt := count_lt_sign hn hj
  have hbits : (2 ^ (f.expBits + f.fracBits) + ((j * 2 ^ f.fracBits + n : Nat) : Int) : Int) =
      ((2 ^ (f.expBits + f.fracBits) + (j * 2 ^ f.fracBits + n) : Nat) : Int) := by push_cast; rfl
  rw [enc, if_neg (neg_ne_zero.2 hx.ne'), if_pos (neg_neg_of_pos hx), neg_neg,
    encMagnitude_of_count hn hpos hlead, hbits, BitVec.ofInt_natCast, BitVec.toNat_ofNat]
  refine Nat.mod_eq_of_lt ?_
  rw [width_eq, pow_succ]
  omega

/-- enc gives back every finite encoding but -0 (rule R13). -/
theorem enc_of_val {f : Fmt} {e : Chan f} {v : Rat} (h : val f e = .real v)
    (hzero : signBit f e = false ∨ v ≠ 0) : enc f v = e := by
  obtain ⟨hexpo, hv⟩ := finite_of_val h
  obtain ⟨j, n, hbits, hn, hlead, hj, hmag⟩ := exists_count hexpo
  have he : e.toNat < 2 * 2 ^ (f.expBits + f.fracBits) := by
    rw [mul_comm, ← pow_succ, ← width_eq]
    exact e.isLt
  rw [hmag] at hv
  refine BitVec.eq_of_toNat_eq ?_
  cases hs : signBit f e
  · rw [hs, if_neg Bool.false_ne_true] at hv
    rw [signBit_eq_false_iff] at hs
    rw [Nat.mod_eq_of_lt hs] at hbits
    rcases n.eq_zero_or_pos with rfl | hpos
    · have hj0 : j = 0 := hlead.resolve_right (by simp)
      rw [hbits, hj0, hv]
      simp [enc]
    · rw [hbits, hv, toNat_enc_of_count hn hpos hlead hj]
  · rw [hs, if_pos rfl] at hv
    have hneg : 2 ^ (f.expBits + f.fracBits) ≤ e.toNat := by simpa [signBit] using hs
    have hpos : 0 < n := by
      refine Nat.pos_of_ne_zero fun h0 => hzero.elim (by simp [hs]) fun hne => hne ?_
      rw [hv, h0, Nat.cast_zero, zero_mul, neg_zero]
    rw [hv, toNat_enc_neg_of_count hn hpos hlead hj, ← hbits, Nat.mod_eq_sub_mod hneg,
      Nat.mod_eq_of_lt (by omega)]
    omega

/-- The encoding with the sign bit set above the same bits stands for the opposite value. -/
theorem val_of_sign_set {f : Fmt} {e e' : Chan f} {v : Rat} (h : val f e = .real v)
    (hs : signBit f e = false) (he : e'.toNat = 2 ^ (f.expBits + f.fracBits) + e.toNat) :
    val f e' = .real (-v) := by
  obtain ⟨hexpo, hv⟩ := finite_of_val h
  have hF : fracField f e' = fracField f e := by
    rw [fracField, he, pow_add, mul_comm, Nat.mul_add_mod, ← fracField]
  have hE : expField f e' = expField f e := by
    rw [expField, he, pow_add, mul_comm, Nat.mul_add_div (by positivity), Nat.add_mod_left,
      ← expField]
  have hS : signBit f e' = true := by simp [signBit, he]
  have hmag : magnitude f e' = magnitude f e := by rw [magnitude, hE, hF, ← magnitude]
  rw [val, hE, if_neg hexpo.ne, hS, if_pos rfl, hmag, hv, hs, if_neg Bool.false_ne_true]

/-- A value with sign bit 0 is a count read off the whole encoding. -/
theorem exists_count_of_nonneg {f : Fmt} {e : Chan f} {v : Rat} (h : val f e = .real v)
    (hs : signBit f e = false) :
    ∃ j n : Nat, e.toNat = j * 2 ^ f.fracBits + n ∧ n < 2 ^ (f.fracBits + 1) ∧
      (j = 0 ∨ 2 ^ f.fracBits ≤ n) ∧ j + 1 < f.expMax ∧ v = n * pow2 (f.minExp + j) := by
  obtain ⟨hexpo, hv⟩ := finite_of_val h
  obtain ⟨j, n, hbits, hn, hlead, hj, hmag⟩ := exists_count hexpo
  rw [Nat.mod_eq_of_lt ((signBit_eq_false_iff f e).1 hs)] at hbits
  rw [hs, if_neg Bool.false_ne_true, hmag] at hv
  exact ⟨j, n, hbits, hn, hlead, hj, hv⟩

/-- The exponent of one unit in the last place of the greatest finite values (rule R82). -/
def topExp (f : Fmt) : Int := (f.expMax : Int) - 1 - f.bias - f.fracBits

theorem maxFinite_eq (f : Fmt) :
    maxFinite f = ((2 ^ (f.fracBits + 1) - 1 : Nat) : Rat) * pow2 (topExp f) := rfl

/-- The greatest finite value counts units of the top exponent with all its F + 1 bits set. -/
theorem maxFinite_spec (f : Fmt) : rn f (maxFinite f) = maxFinite f ∧
    ulpExp f (maxFinite f) = topExp f ∧ 256 ≤ maxFinite f := by
  obtain ⟨j, hj⟩ : ∃ j : Nat, f.minExp + j = topExp f := by
    cases f
    · exact ⟨253, rfl⟩
    · exact ⟨2045, rfl⟩
  have hpow : 0 < 2 ^ f.fracBits := by positivity
  have hn : 2 ^ (f.fracBits + 1) - 1 < 2 ^ (f.fracBits + 1) := by omega
  have hlead : 2 ^ f.fracBits ≤ 2 ^ (f.fracBits + 1) - 1 := by
    rw [pow_succ]
    omega
  have h256 : (8 : Int) ≤ topExp f := by cases f <;> decide
  rw [maxFinite_eq, ← hj]
  refine ⟨rn_of_count hn (.inr hlead), ulpExp_of_count hn (by omega) (.inr hlead), ?_⟩
  rw [hj]
  calc (256 : Rat) = pow2 8 := by norm_num [pow2_eq_zpow]
    _ ≤ 1 * pow2 (topExp f) := by rw [one_mul]; exact pow2_le.2 h256
    _ ≤ _ := mul_le_mul_of_nonneg_right (by exact_mod_cast hpow.trans_le hlead) (pow2_pos _).le

/-- enc of a positive FMT value up to the greatest finite one has sign bit 0 and stands for it. -/
theorem val_enc_of_pos {f : Fmt} {x : Rat} (hx : rn f x = x) (hpos : 0 < x) (hmax : x ≤ maxFinite f) :
    val f (enc f x) = .real x ∧ signBit f (enc f x) = false := by
  have htop : topExp f + 1 < f.minExp + f.expMax := by cases f <;> decide
  obtain ⟨n, hn, hlt, hlead⟩ := exists_units hx hpos
  obtain ⟨j, hj⟩ : ∃ j : Nat, ulpExp f x = f.minExp + j :=
    (Int.le.dest (le_max_left _ _)).imp fun _ h => h.symm
  have hle := (ulpExp_mono f hpos hmax).trans_eq (maxFinite_spec f).2.1
  have hj' : j + 1 < f.expMax := by omega
  refine ⟨val_enc_of_ulpExp hx hpos (by omega), ?_⟩
  rw [signBit_eq_false_iff, toNat_enc hpos hn hlt hj hj']
  exact count_lt_sign hlt hj'

/-- enc of the opposite of a positive FMT value sets the sign bit and stands for the opposite. -/
theorem val_enc_neg_of_pos {f : Fmt} {x : Rat} (hx : rn f x = x) (hpos : 0 < x)
    (hmax : x ≤ maxFinite f) : val f (enc f (-x)) = .real (-x) ∧
      (enc f (-x)).toNat = 2 ^ (f.expBits + f.fracBits) + (enc f x).toNat := by
  obtain ⟨hval, hs⟩ := val_enc_of_pos hx hpos hmax
  obtain ⟨j, n, hbits, hn, hlead, hj, hcount⟩ := exists_count_of_nonneg hval hs
  have hn0 : 0 < n := Nat.pos_of_ne_zero fun h0 => hpos.ne' (by rw [hcount, h0]; simp)
  have hneg : (enc f (-x)).toNat = 2 ^ (f.expBits + f.fracBits) + (enc f x).toNat := by
    rw [hbits, hcount, toNat_enc_neg_of_count hn hn0 hlead hj]
  exact ⟨val_of_sign_set hval hs hneg, hneg⟩

theorem val_zero (f : Fmt) : val f 0 = .real 0 := by
  have hmax : 0 + 1 < f.expMax := by cases f <;> decide
  have h := val_of_units (e := (0 : Chan f)) (j := 0) (n := 0) (by simp) (by positivity) (.inl rfl) hmax
  rwa [Nat.cast_zero, zero_mul] at h

@[simp] theorem enc_zero (f : Fmt) : enc f 0 = 0 := if_pos rfl

/-- enc of an FMT value stands for it, in the whole finite range (rule R13). -/
theorem val_enc_of_abs_le {f : Fmt} {x : Rat} (hx : rn f x = x) (hmax : |x| ≤ maxFinite f) :
    val f (enc f x) = .real x := by
  obtain ⟨hlo, hhi⟩ := abs_le.1 hmax
  rcases lt_trichotomy x 0 with hneg | rfl | hpos
  · have := (val_enc_neg_of_pos (f := f) (x := -x) (by rw [rn_neg, hx]) (by linarith) (by linarith)).1
    rwa [neg_neg] at this
  · rw [enc_zero, val_zero]
  · exact (val_enc_of_pos hx hpos hhi).1

/-! ### The order of the non-negative encodings -/

/-- A count of any units as a count of units of the subnormals. -/
theorem count_eq_minUnits (f : Fmt) (n j : Nat) :
    (n : Rat) * pow2 (f.minExp + j) = ((n * 2 ^ j : Nat) : Rat) * pow2 f.minExp := by
  rw [add_comm, pow2_add, pow2_natCast, Nat.cast_mul, mul_assoc]

/-- More units above the exponent field is a greater count. -/
theorem count_lt {F j n j' n' : Nat} (hn : n < 2 ^ (F + 1)) (hlead' : j' = 0 ∨ 2 ^ F ≤ n')
    (hn' : n' < 2 ^ (F + 1)) (hlead : j = 0 ∨ 2 ^ F ≤ n)
    (h : j * 2 ^ F + n < j' * 2 ^ F + n') : n * 2 ^ j < n' * 2 ^ j' := by
  rw [pow_succ] at hn hn'
  rcases lt_trichotomy j j' with hj | rfl | hj
  · obtain ⟨d, rfl⟩ := Nat.exists_eq_add_of_lt hj
    have hlead'' : 2 ^ F ≤ n' := hlead'.resolve_left (by omega)
    have hpow : (0 : Nat) < 2 ^ j := by positivity
    calc n * 2 ^ j < (2 ^ F * 2) * 2 ^ j := Nat.mul_lt_mul_of_pos_right hn hpow
      _ = 2 ^ F * 2 ^ (j + 1) := by rw [pow_succ]; ring
      _ ≤ n' * 2 ^ (j + d + 1) :=
        Nat.mul_le_mul hlead'' (Nat.pow_le_pow_right two_pos (by omega))
  · exact Nat.mul_lt_mul_of_pos_right (by omega) (by positivity)
  · have hlead'' : 2 ^ F ≤ n := hlead.resolve_left (by omega)
    have hmul : (j' + 1) * 2 ^ F ≤ j * 2 ^ F := Nat.mul_le_mul_right _ hj
    rw [Nat.add_one_mul] at hmul
    omega

/-- The values of non-negative encodings are ordered strictly as their bits (rule R143). -/
theorem val_lt_of_toNat_lt {f : Fmt} {e e' : Chan f} {v v' : Rat} (h : val f e = .real v)
    (h' : val f e' = .real v') (hs : signBit f e = false) (hs' : signBit f e' = false)
    (hlt : e.toNat < e'.toNat) : v < v' := by
  obtain ⟨j, n, hbits, hn, hlead, -, hv⟩ := exists_count_of_nonneg h hs
  obtain ⟨j', n', hbits', hn', hlead', -, hv'⟩ := exists_count_of_nonneg h' hs'
  rw [hbits, hbits'] at hlt
  have hunits := count_lt hn hlead' hn' hlead hlt
  rw [hv, hv', count_eq_minUnits, count_eq_minUnits]
  exact mul_lt_mul_of_pos_right (by exact_mod_cast hunits) (pow2_pos _)

/-! ### The nearest FMT value -/

/-- An FMT value is a whole number of units of the last place of `v`, or it lies below the power of 2 at
which that last place begins. -/
theorem units_of_ulpExp_or_lt {f : Fmt} {v x : Rat} (hx : rn f x = x) (hv : v ≠ 0) :
    (∃ k : Int, x = k * pow2 (ulpExp f v)) ∨
      |x| < 2 ^ f.fracBits * pow2 (ulpExp f v) ∧ 2 ^ f.fracBits * pow2 (ulpExp f v) ≤ |v| := by
  rcases eq_or_ne x 0 with rfl | hx0
  · exact .inl ⟨0, by simp⟩
  rcases le_or_gt (ulpExp f v) (ulpExp f x) with hle | hlt
  · obtain ⟨d, hd⟩ := Int.eq_ofNat_of_zero_le (sub_nonneg.2 hle)
    refine .inl ⟨roundEven (x / pow2 (ulpExp f x)) * 2 ^ d, ?_⟩
    have hpow : pow2 (ulpExp f x) = 2 ^ d * pow2 (ulpExp f v) := by
      rw [← sub_add_cancel (ulpExp f x) (ulpExp f v), hd, pow2_add, pow2_natCast]
      push_cast
      rfl
    calc x = roundEven (x / pow2 (ulpExp f x)) * pow2 (ulpExp f x) := hx.symm
      _ = _ := by
        nth_rw 2 [hpow]
        push_cast
        ring
  · have hsplit : 2 ^ f.fracBits * pow2 (ulpExp f v) = pow2 (ulpExp f v + f.fracBits) := by
      rw [add_comm, pow2_add, pow2_natCast]
      push_cast
      rfl
    have hmin : f.minExp ≤ ulpExp f x := le_max_left _ _
    refine .inr ⟨?_, ?_⟩ <;> rw [hsplit]
    · exact (abs_lt_pow2 f hx0).trans_le (pow2_le.2 (by omega))
    · refine (pow2_le.2 ?_).trans (ilog2_spec hv).1
      unfold ulpExp at hlt hmin ⊢
      omega

/-- RN of a positive value is a nearest FMT value, and if another is as near, it is an even number of
units (rule R12). -/
theorem rn_nearest_of_pos {f : Fmt} {v x : Rat} (hv : 0 < v) (hx : rn f x = x) :
    |v - rn f v| ≤ |v - x| ∧
      (x ≠ rn f v → |v - x| = |v - rn f v| → roundEven (v / pow2 (ulpExp f v)) % 2 = 0) := by
  have hp := pow2_pos (ulpExp f v)
  have hdist (k : Int) : |v - k * pow2 (ulpExp f v)| =
      |v / pow2 (ulpExp f v) - k| * pow2 (ulpExp f v) := by
    rw [← abs_of_pos hp, ← abs_mul, abs_of_pos hp, sub_mul, div_mul_cancel₀ _ hp.ne']
  have hnear (k : Int) : |v - rn f v| ≤ |v - k * pow2 (ulpExp f v)| := by
    rw [rn, hdist, hdist]
    exact mul_le_mul_of_nonneg_right (roundEven_nearest _ k).1 hp.le
  rcases units_of_ulpExp_or_lt hx hv.ne' with ⟨k, hk⟩ | ⟨hlow, hlead⟩
  · refine ⟨hk ▸ hnear k, fun hne htie => ?_⟩
    rw [hk, rn, hdist, hdist] at htie
    refine (roundEven_nearest _ k).2 (fun heq => hne ?_) (mul_right_cancel₀ hp.ne' htie)
    rw [hk, heq, rn]
  · have hfar : |v - rn f v| < |v - x| := by
      have h := hnear (2 ^ f.fracBits)
      push_cast at h
      rw [abs_of_pos hv] at hlead
      rw [abs_of_nonneg (sub_nonneg.2 hlead)] at h
      have hxv : v - |x| ≤ |v - x| := (sub_le_sub_left (le_abs_self x) v).trans (le_abs_self _)
      linarith
    exact ⟨hfar.le, fun _ htie => absurd htie hfar.ne'⟩

/-- An even count below the carry stays even when it is written with its leading bit in place. -/
theorem even_of_count_eq {F n j n' j' : Nat} (hF : 1 ≤ F) (heven : n % 2 = 0) (hn : n ≤ 2 ^ (F + 1))
    (hlead' : j' = 0 ∨ 2 ^ F ≤ n') (h : n * 2 ^ j = n' * 2 ^ j') : n' % 2 = 0 := by
  rcases le_or_gt j' j with hle | hlt
  · obtain ⟨d, rfl⟩ := Nat.exists_eq_add_of_le hle
    have hn' : n' = n * 2 ^ d := by
      refine Nat.eq_of_mul_eq_mul_right (by positivity : 0 < 2 ^ j') ?_
      rw [← h, pow_add]
      ring
    rw [hn', Nat.mul_mod, heven, zero_mul, Nat.zero_mod]
  · obtain ⟨d, rfl⟩ := Nat.exists_eq_add_of_lt hlt
    have hn' : n = n' * 2 * 2 ^ d := by
      refine Nat.eq_of_mul_eq_mul_right (by positivity : 0 < 2 ^ j) ?_
      rw [h, pow_succ, pow_add]
      ring
    have hmul : n' * 2 * 1 ≤ n' * 2 * 2 ^ d := Nat.mul_le_mul_left _ Nat.one_le_two_pow
    have hge : 2 ^ F ≤ n' := hlead'.resolve_left (by omega)
    rw [pow_succ] at hn
    have hpow : n' = 2 ^ F := by omega
    rw [hpow, ← Nat.sub_add_cancel hF, pow_succ, Nat.mul_mod_left]

/-- RN of a positive value counts units of its last place, up to the carry to 2^(F + 1). -/
theorem rn_eq_count (f : Fmt) {v : Rat} (hv : 0 < v) :
    ∃ j n : Nat, roundEven (v / pow2 (ulpExp f v)) = n ∧ rn f v = n * pow2 (f.minExp + j) ∧
      n ≤ 2 ^ (f.fracBits + 1) := by
  have hp := pow2_pos (ulpExp f v)
  obtain ⟨j, hj⟩ : ∃ j : Nat, f.minExp + j = ulpExp f v := Int.le.dest (le_max_left _ _)
  have hq : |v / pow2 (ulpExp f v)| ≤ ((2 ^ (f.fracBits + 1) : Int) : Rat) := by
    rw [abs_div, abs_of_pos hp, div_le_iff₀ hp]
    refine (abs_lt_pow2 f hv.ne').le.trans_eq ?_
    rw [add_assoc, add_comm, pow2_add]
    rfl
  have hnonneg : 0 ≤ roundEven (v / pow2 (ulpExp f v)) :=
    (roundEven_int 0).symm.trans_le (roundEven_mono (by exact_mod_cast (div_pos hv hp).le))
  obtain ⟨n, hn⟩ := Int.eq_ofNat_of_zero_le hnonneg
  have hle := (abs_le.1 (abs_roundEven_le hq)).2
  refine ⟨j, n, hn, by rw [rn, hn, hj, Int.cast_natCast], ?_⟩
  rw [hn] at hle
  exact_mod_cast hle

/-- If RN counts an even number of units of the last place of a positive value, its encoding is even. -/
theorem even_enc_rn {f : Fmt} {v : Rat} (hv : 0 < v) (hmax : rn f v ≤ maxFinite f)
    (heven : roundEven (v / pow2 (ulpExp f v)) % 2 = 0) : (enc f (rn f v)).toNat % 2 = 0 := by
  have hF : 1 ≤ f.fracBits := by cases f <;> decide
  rcases (rn_nonneg f hv.le).eq_or_lt with h0 | hpos
  · rw [← h0, enc_zero]
    rfl
  obtain ⟨hval, hs⟩ := val_enc_of_pos (rn_rn f v) hpos hmax
  obtain ⟨j', n', hbits, -, hlead', -, hcount⟩ := exists_count_of_nonneg hval hs
  obtain ⟨j, n, hn, hrn, hle⟩ := rn_eq_count f hv
  rw [hcount, count_eq_minUnits, count_eq_minUnits] at hrn
  have heq : n * 2 ^ j = n' * 2 ^ j' := by
    exact_mod_cast (mul_right_cancel₀ (pow2_pos f.minExp).ne' hrn).symm
  have hn'even := even_of_count_eq hF (by omega) hle hlead' heq
  rw [hbits, ← Nat.sub_add_cancel hF, pow_succ, ← mul_assoc, Nat.mul_add_mod_self_right, hn'even]

/-- RN stays within the range of FMT. -/
theorem abs_rn_le_maxFinite {f : Fmt} {v : Rat} (h : |v| ≤ maxFinite f) : |rn f v| ≤ maxFinite f := by
  obtain ⟨hlo, hhi⟩ := abs_le.1 h
  have hmono {u : Rat} (h0 : 0 ≤ u) (hu : u ≤ maxFinite f) : |rn f u| ≤ maxFinite f := by
    rw [abs_of_nonneg (rn_nonneg f h0)]
    exact (rn_mono f h0 hu).trans_eq (maxFinite_spec f).1
  rcases le_total 0 v with h0 | h0
  · exact hmono h0 hhi
  · have := hmono (u := -v) (by linarith) (by linarith)
    rwa [rn_neg, abs_neg] at this

/-- RN of a positive value is at a nearest value of an encoding, and on a tie its own encoding is even. -/
theorem rn_isNearest_of_pos {f : Fmt} {v : Rat} (hv : 0 < v) (hmax : v ≤ maxFinite f) {x : Rat}
    (hx : rn f x = x) : |v - rn f v| ≤ |v - x| ∧
      (x ≠ rn f v → |v - x| = |v - rn f v| → (enc f (rn f v)).toNat % 2 = 0) := by
  obtain ⟨hnear, htie⟩ := rn_nearest_of_pos hv hx
  have hle : rn f v ≤ maxFinite f := (rn_mono f hv.le hmax).trans_eq (maxFinite_spec f).1
  exact ⟨hnear, fun hne heq => even_enc_rn hv hle (htie hne heq)⟩

/-- The encoding of the opposite has the same last bit. -/
theorem toNat_enc_neg_mod {f : Fmt} {x : Rat} (hx : rn f x = x) (h0 : 0 ≤ x) (hmax : x ≤ maxFinite f) :
    (enc f (-x)).toNat % 2 = (enc f x).toNat % 2 := by
  rcases h0.eq_or_lt with rfl | hpos
  · rw [neg_zero]
  · rw [(val_enc_neg_of_pos hx hpos hmax).2]
    have : 2 ^ (f.expBits + f.fracBits) % 2 = 0 := by cases f <;> decide
    omega

/-! ### The obligations -/

/-- Settles O36: RN of a positive value by the nearest integer in units of its last place; RN is odd, and the
encoding of the opposite has the same last bit. -/
theorem roundingIsNearestTiesToEven : Obligations.RoundingIsNearestTiesToEven := by
  intro f v hmax
  refine ⟨enc f (rn f v), val_enc_of_abs_le (rn_rn f v) (abs_rn_le_maxFinite hmax),
    fun e' x he' => ?_⟩
  have hx := rn_of_val he'
  obtain ⟨hlo, hhi⟩ := abs_le.1 hmax
  rcases lt_trichotomy v 0 with hneg | rfl | hpos
  · have hpos : 0 < -v := by linarith
    have hmax' : -v ≤ maxFinite f := by linarith
    obtain ⟨hnear, htie⟩ := rn_isNearest_of_pos hpos hmax' (x := -x) (by rw [rn_neg, hx])
    have hdist (y : Rat) : |-v - -y| = |v - y| := by rw [neg_sub_neg, abs_sub_comm]
    rw [rn_neg, hdist, hdist] at hnear htie
    refine ⟨hnear, fun hne heq => ?_⟩
    have hlast := toNat_enc_neg_mod (rn_rn f (-v)) (rn_nonneg f hpos.le)
      ((rn_mono f hpos.le hmax').trans_eq (maxFinite_spec f).1)
    rw [rn_neg, neg_neg] at hlast
    exact hlast.trans (htie (by simpa using hne) heq)
  · simp
  · exact rn_isNearest_of_pos hpos hhi hx

/-- Settles O37: a finite encoding counts units of an FMT value, and enc writes that count back. -/
theorem encodingsRoundTrip : Obligations.EncodingsRoundTrip :=
  fun _ _ _ h => ⟨rn_of_val h, enc_of_val h⟩

/-- Settles O38: the bits order the counts, and equal bits are equal encodings. -/
theorem encodingsOrderAsValues : Obligations.EncodingsOrderAsValues := by
  intro f e e' v v' h h' hs hs'
  refine ⟨fun hle => not_lt.1 fun hlt => ?_, fun hle => ?_⟩
  · exact absurd (val_lt_of_toNat_lt h' h hs' hs hlt) hle.not_gt
  · rcases hle.lt_or_eq with hlt | heq
    · exact (val_lt_of_toNat_lt h h' hs hs' hlt).le
    · obtain rfl : e = e' := BitVec.eq_of_toNat_eq heq
      rw [h] at h'
      exact (FVal.real.inj h').le

end Sys2Proof.Proofs

/-!
PROOFS about the channel literals of the program text (spec/30_encoding.md rule R88, log entry 19): RN around
the end of the range of FMT, the literals on each side of it, and then the obligation.
-/

namespace Sys2Proof.Proofs

open Sys2Proof Sys2Proof.Machine Sys2Proof.Laws

theorem maxFinite_pos (f : Fmt) : 0 < maxFinite f := by linarith [(maxFinite_spec f).2.2]

/-- The greatest finite value is one unit below the next power of 2. -/
theorem maxFinite_eq_sub (f : Fmt) : maxFinite f = (2 ^ (f.fracBits + 1) - 1) * pow2 (topExp f) := by
  rw [maxFinite_eq, Nat.cast_sub Nat.one_le_two_pow]
  push_cast
  rfl

/-- Less than half a unit beyond the greatest finite value, RN gives that value. -/
theorem rn_eq_maxFinite {f : Fmt} {v : Rat} (hlow : maxFinite f ≤ v)
    (hhigh : v < maxFinite f + pow2 (topExp f) / 2) : rn f v = maxFinite f := by
  have hp := pow2_pos (topExp f)
  have hpos := maxFinite_pos f
  have hulp : ulpExp f v = topExp f := by
    have htop := (maxFinite_spec f).2.1
    have hmin : f.minExp ≤ topExp f := by cases f <;> decide
    refine le_antisymm (ulpExp_le (by linarith) hmin ?_) (htop ▸ ulpExp_mono f hpos hlow)
    rw [abs_of_pos (by linarith), add_assoc, add_comm, ← Nat.cast_succ, pow2_add, pow2_natCast,
      Nat.succ_eq_add_one]
    rw [maxFinite_eq_sub] at hhigh
    push_cast
    linarith
  have hround : roundEven (v / pow2 (topExp f)) = 2 ^ (f.fracBits + 1) - 1 := by
    rw [maxFinite_eq_sub] at hlow hhigh
    have h1 : (2 ^ (f.fracBits + 1) - 1 : Rat) ≤ v / pow2 (topExp f) := (le_div_iff₀ hp).2 hlow
    have h2 : v / pow2 (topExp f) < 2 ^ (f.fracBits + 1) - 1 + 1 / 2 :=
      (div_lt_iff₀ hp).2 (by linarith)
    have hdist : |v / pow2 (topExp f) - ((2 ^ (f.fracBits + 1) - 1 : Int) : Rat)| < 1 / 2 := by
      push_cast
      rw [abs_of_nonneg (by linarith)]
      linarith
    exact roundEven_unique hdist.le fun htie => absurd htie hdist.ne
  rw [rn, hulp, hround, maxFinite_eq_sub]
  push_cast
  rfl

/-- From half a unit beyond it on, RN passes the greatest finite value. -/
theorem maxFinite_lt_rn {f : Fmt} {v : Rat} (h : maxFinite f + pow2 (topExp f) / 2 ≤ v) :
    maxFinite f < rn f v := by
  have hhalf : maxFinite f < rn f (maxFinite f + pow2 (topExp f) / 2) := by
    cases f <;> decide +kernel
  exact hhalf.trans_le (rn_mono f (by linarith [maxFinite_pos f, pow2_pos (topExp f)]) h)

/-- A literal that RN leaves in the range is the encoding of RN of it. -/
theorem encRounded_of_abs_le {f : Fmt} {v : Rat} (h : |rn f v| ≤ maxFinite f) :
    val f (encRounded f v) = .real (rn f v) := by
  obtain ⟨hlo, hhi⟩ := abs_le.1 h
  rw [encRounded, if_neg hhi.not_gt, if_neg hlo.not_gt]
  exact val_enc_of_abs_le (rn_rn f v) h

theorem encRounded_of_overflow {f : Fmt} {v : Rat} (h : maxFinite f < rn f v) :
    encRounded f v = ChanLit.posInf.denote f := if_pos h

theorem encRounded_of_negative_overflow {f : Fmt} {v : Rat} (h : rn f v < -maxFinite f) :
    encRounded f v = ChanLit.negInf.denote f := by
  rw [encRounded, if_neg (by linarith [maxFinite_pos f]), if_pos h]
  rfl

/-- Settles O32: a decimal is RN of it in the range, and the two sides beyond it are each other's opposite. -/
theorem channelLiterals : Obligations.ChannelLiterals := by
  refine ⟨fun f e => BitVec.eq_of_toNat_eq (Nat.mod_eq_of_lt e.isLt), ?_, by decide⟩
  rintro f v half rfl
  have hmax : |maxFinite f| ≤ maxFinite f := (abs_of_pos (maxFinite_pos f)).le
  refine ⟨fun h => encRounded_of_abs_le (abs_rn_le_maxFinite h), fun hlow hhigh => ?_,
    fun hhigh hlow => ?_, fun h => encRounded_of_overflow (maxFinite_lt_rn h), fun h => ?_⟩
  · have hrn : rn f v = maxFinite f := rn_eq_maxFinite hlow.le hhigh
    exact (encRounded_of_abs_le (hrn ▸ hmax)).trans (by rw [hrn])
  · have hrn : rn f v = -maxFinite f := by
      rw [← neg_neg v, rn_neg, rn_eq_maxFinite (by linarith) (by rw [topExp]; linarith)]
    exact (encRounded_of_abs_le (by rw [hrn, abs_neg]; exact hmax)).trans (by rw [hrn])
  · have hrn : maxFinite f < rn f (-v) := maxFinite_lt_rn (by rw [topExp]; linarith)
    rw [rn_neg] at hrn
    exact encRounded_of_negative_overflow (by linarith)

end Sys2Proof.Proofs

/-!
PROOFS about NORM, the peak and QUANT (spec/41_normalize.md rule R127, spec/42_max3.md rule R140,
spec/43_quantize.md rules R161 to R165): every value is an FMT value in [0, 1], the code is the ceiling of
the scaled peak, and QUANT compares the peak with the levels; then the obligations.
-/

namespace Sys2Proof.Proofs

open Sys2Proof Sys2Proof.Machine Sys2Proof.Laws

/-! ### FMT values in [0, 1] -/

/-- The encoding of an FMT value in [0, 1] is in the classes of an output beat (rule R86). -/
theorem inUnit_enc {f : Fmt} {x : Rat} (hx : rn f x = x) (h0 : 0 ≤ x) (h1 : x ≤ 1) :
    InUnit f (enc f x) := by
  have hone : (1 : Rat) ≤ maxFinite f := by linarith [(maxFinite_spec f).2.2]
  refine ⟨?_, x, val_enc hx h0 h1, h0, h1⟩
  rcases h0.eq_or_lt with rfl | hpos
  · rw [enc_zero]
    cases f <;> rfl
  · exact (val_enc_of_pos hx hpos (h1.trans hone)).2

/-- The next FMT value lies at least one unit in the last place above (rule R82). -/
theorem add_ulp_le_of_lt {f : Fmt} {x y : Rat} (hx : rn f x = x) (hy : rn f y = y) (hpos : 0 < y)
    (h : y < x) : y + pow2 (ulpExp f y) ≤ x := by
  have hp := pow2_pos (ulpExp f y)
  rcases units_of_ulpExp_or_lt hx hpos.ne' with ⟨k, hk⟩ | ⟨hlow, hlead⟩
  · have hy' : y = roundEven (y / pow2 (ulpExp f y)) * pow2 (ulpExp f y) := hy.symm
    generalize roundEven (y / pow2 (ulpExp f y)) = n at hy'
    have hlt : n < k := by
      exact_mod_cast lt_of_mul_lt_mul_right (hy'.symm.trans_lt (h.trans_eq hk)) hp.le
    have hle : ((n + 1 : Int) : Rat) * pow2 (ulpExp f y) ≤ k * pow2 (ulpExp f y) :=
      mul_le_mul_of_nonneg_right (by exact_mod_cast hlt) hp.le
    push_cast at hle
    linarith
  · rw [abs_of_pos hpos] at hlead
    linarith [le_abs_self x]

/-- NORM gives an FMT value in [0, 1] (rule R127). -/
theorem norm_mem_unit (f : Fmt) (e : Chan f) :
    rn f (norm f e) = norm f e ∧ 0 ≤ norm f e ∧ norm f e ≤ 1 := by
  rcases hval : val f e with _ | (_ | _) | v
  · rw [norm_of_nan hval]
    exact ⟨rn_zero f, le_rfl, zero_le_one⟩
  · rw [norm_of_posInf hval]
    exact ⟨rn_one f, zero_le_one, le_rfl⟩
  · rw [norm_of_negInf hval]
    exact ⟨rn_zero f, le_rfl, zero_le_one⟩
  · rw [norm_of_real hval, ← oclamp_eq]
    exact ⟨rn_oclamp (rn_rn f _), oclamp_nonneg _, oclamp_le_one _⟩

/-! ### The peak -/

/-- An EPSILON within its range is a positive FMT value below 1 (rule R8). -/
theorem epsilon_spec {f : Fmt} {eps : Chan f} (h : EpsilonOk f eps) :
    rn f (realOf f eps) = realOf f eps ∧ realOf f eps ≤ 1 := by
  obtain ⟨hpos, hle⟩ := h
  refine ⟨?_, hle.trans (level_mem_unit f (by decide)).2⟩
  rcases hval : val f eps with _ | s | v
  · simp [realOf, hval] at hpos
  · simp [realOf, hval] at hpos
  · have hreal : realOf f eps = v := by rw [realOf, hval]
    rw [hreal, rn_of_val hval]

/-- The peak of normalized channels is the floored maximum (rules R140 and R144). -/
theorem peak_eq {f : Fmt} {eps : Chan f} (h : EpsilonOk f eps) (r g b : Chan f) :
    peak f eps (normPixel f r g b) =
      max (realOf f eps) (max (norm f r) (max (norm f g) (norm f b))) :=
  max3_of_le_one (epsilon_spec h).2 (norm_mem_unit f r).2.2 (norm_mem_unit f g).2.2
    (norm_mem_unit f b).2.2

theorem rn_max {f : Fmt} {x y : Rat} (hx : rn f x = x) (hy : rn f y = y) :
    rn f (max x y) = max x y := by
  rcases max_choice x y with h | h <;> rw [h] <;> assumption

/-- The peak is an FMT value in (0, 1], at least EPSILON (rules R140 and R144). -/
theorem peak_spec {f : Fmt} {eps : Chan f} (h : EpsilonOk f eps) (r g b : Chan f) :
    rn f (peak f eps (normPixel f r g b)) = peak f eps (normPixel f r g b) ∧
      0 < peak f eps (normPixel f r g b) ∧ peak f eps (normPixel f r g b) ≤ 1 := by
  refine ⟨?_, ?_, peak_le_one f eps _⟩ <;> rw [peak_eq h]
  · exact rn_max (epsilon_spec h).1 (rn_max (norm_mem_unit f r).1
      (rn_max (norm_mem_unit f g).1 (norm_mem_unit f b).1))
  · exact h.1.trans_le (le_max_left _ _)

/-- No channel exceeds the peak. -/
theorem norm_le_peak {f : Fmt} {eps : Chan f} (h : EpsilonOk f eps) {r g b e : Chan f}
    (he : e = r ∨ e = g ∨ e = b) : norm f e ≤ peak f eps (normPixel f r g b) := by
  rw [peak_eq h]
  rcases he with rfl | rfl | rfl <;> simp

/-! ### The code of QUANT -/

/-- The code is the ceiling of the scaled peak (rule R160). -/
theorem quantCode_eq_natCeil (f : Fmt) (x : Rat) : quantCode f x = ⌈scaledPeak f x⌉₊ := by
  rw [quantCode, ratCeil_eq_intCeil, Int.ceil_toNat]

theorem scaledPeak_mono (f : Fmt) {x y : Rat} (h0 : 0 ≤ x) (h : x ≤ y) :
    scaledPeak f x ≤ scaledPeak f y :=
  rn_mono f (mul_nonneg h0 (by norm_num [Config.levels]))
    (mul_le_mul_of_nonneg_right h (by norm_num [Config.levels]))

/-- Scaling by 255 does not bring an FMT value to 0 (rule R161). -/
theorem scaledPeak_pos {f : Fmt} {x : Rat} (hx : rn f x = x) (hpos : 0 < x) : 0 < scaledPeak f x := by
  have hle : x ≤ x * Config.levels := le_mul_of_one_le_right hpos.le (by norm_num [Config.levels])
  exact hpos.trans_le (hx.symm.trans_le (rn_mono f hpos.le hle))

theorem quantCode_pos {f : Fmt} {x : Rat} (hx : rn f x = x) (hpos : 0 < x) : 1 ≤ quantCode f x := by
  rw [quantCode_eq_natCeil]
  exact Nat.ceil_pos.2 (scaledPeak_pos hx hpos)

/-! ### The levels -/

theorem rn_level (f : Fmt) (k : Nat) : rn f (level f k) = level f k := rn_rn f _

theorem level_last (f : Fmt) : level f 255 = 1 := by
  rw [level, Config.levels, Nat.cast_ofNat, div_self (by norm_num), rn_one]

theorem level_one_pos (f : Fmt) : 0 < level f 1 := by
  have hlow : pow2 (-8) ≤ ((1 : Nat) : Rat) / Config.levels := by
    norm_num [pow2_eq_zpow, Config.levels]
  have hulp : ulpExp f (((1 : Nat) : Rat) / Config.levels) ≤ -8 := by
    have hmin : f.minExp ≤ -8 := by cases f <;> decide
    refine ulpExp_le (by norm_num [Config.levels]) hmin ?_
    have hbits : (0 : Int) ≤ -8 + f.fracBits + 1 := by cases f <;> decide
    calc |((1 : Nat) : Rat) / Config.levels| < pow2 0 := by norm_num [pow2_eq_zpow, Config.levels]
      _ ≤ _ := pow2_le.2 hbits
  exact (pow2_pos _).trans_le (le_rn_pow2 f hulp hlow)

theorem level_mono (f : Fmt) {j k : Nat} (h : j ≤ k) : level f j ≤ level f k := by
  have h255 : (0 : Rat) ≤ Config.levels := by norm_num [Config.levels]
  exact rn_mono f (by positivity) (div_le_div_of_nonneg_right (by exact_mod_cast h) h255)

/-- A level scaled by 255 does not pass its index: RN undoes the rounding of k/255 (rule R163). -/
theorem scaledPeak_level_le (f : Fmt) : ∀ k : Nat, k < 256 → scaledPeak f (level f k) ≤ k := by
  cases f <;> decide +kernel

/-- One unit above a level, the scaled peak has passed the level's index, but for m_251 in binary64
(rules R163 and R165). -/
theorem lt_scaledPeak_above_level (f : Fmt) : ∀ k : Nat, k < 255 → 1 ≤ k → (f = .binary64 → k ≠ 251) →
    (k : Rat) < scaledPeak f (level f k + pow2 (ulpExp f (level f k))) := by
  cases f <;> decide +kernel

/-- A finite encoding stands for its real number. -/
theorem val_eq_realOf {f : Fmt} {e : Chan f} (h : expField f e ≠ f.expMax) :
    val f e = .real (realOf f e) := by
  simp only [realOf, val, if_neg h]

/-- The one binary64 peak whose code is below the least level at or above it (rule R165). -/
def exceptionPeak : Rat := realOf .binary64 0x3FEF7F7F7F7F7F80

theorem val_exceptionPeak : val .binary64 0x3FEF7F7F7F7F7F80 = .real exceptionPeak :=
  val_eq_realOf (by decide)

/-- It is the FMT value right above m_251. -/
theorem exceptionPeak_eq :
    level .binary64 251 + pow2 (ulpExp .binary64 (level .binary64 251)) = exceptionPeak := by
  decide +kernel

theorem exceptionPeak_pos : 0 < exceptionPeak := by
  have hlevel : 0 < level .binary64 251 := (level_one_pos _).trans_le (level_mono _ (by decide))
  exact exceptionPeak_eq ▸ add_pos hlevel (pow2_pos _)

/-- Its code is 251, and one unit above it the scaled peak has passed 251. -/
theorem exceptionPeak_code : quantCode .binary64 exceptionPeak = 251 ∧
    251 < scaledPeak .binary64 (exceptionPeak + pow2 (ulpExp .binary64 exceptionPeak)) := by
  decide +kernel

/-! ### QUANT as a comparator -/

/-- Every level with a smaller index lies below the peak (rule R163). -/
theorem level_lt_of_lt_quantCode {f : Fmt} {x : Rat} (h0 : 0 ≤ x) (h1 : x ≤ 1) {j : Nat}
    (hj : j < quantCode f x) : level f j < x := by
  have hj' : j < 256 := (hj.trans_le (quantCode_le f h1)).trans (by decide)
  rw [quantCode_eq_natCeil, Nat.lt_ceil] at hj
  refine not_le.1 fun hle => hj.not_ge ?_
  exact (scaledPeak_mono f h0 hle).trans (scaledPeak_level_le f j hj')

/-- The scaled peak of an FMT value is at least that of one unit above any smaller one. -/
theorem scaledPeak_above_le {f : Fmt} {x y : Rat} (hx : rn f x = x) (hy : rn f y = y) (hpos : 0 < y)
    (h : y < x) : scaledPeak f (y + pow2 (ulpExp f y)) ≤ scaledPeak f x :=
  scaledPeak_mono f (add_pos hpos (pow2_pos _)).le (add_ulp_le_of_lt hx hy hpos h)

/-- A peak above the level of its code is the exception of binary64 (rules R163 and R165). -/
theorem eq_exception_of_level_lt {f : Fmt} {x : Rat} (hx : rn f x = x) (hpos : 0 < x) (h1 : x ≤ 1)
    (hlt : level f (quantCode f x) < x) : f = .binary64 ∧ x = exceptionPeak := by
  have hk1 := quantCode_pos hx hpos
  have hceil : scaledPeak f x ≤ quantCode f x := by
    rw [quantCode_eq_natCeil]
    exact Nat.le_ceil _
  have hlevel : 0 < level f (quantCode f x) := (level_one_pos f).trans_le (level_mono f hk1)
  have hk255 : quantCode f x < 255 := by
    refine lt_of_le_of_ne (quantCode_le f h1) fun heq => ?_
    rw [heq, level_last] at hlt
    linarith
  generalize quantCode f x = k at *
  by_cases hexc : f = .binary64 ∧ k = 251
  · obtain ⟨rfl, rfl⟩ := hexc
    have hnext := add_ulp_le_of_lt hx (rn_level _ _) hlevel hlt
    rw [exceptionPeak_eq] at hnext
    refine ⟨rfl, (eq_of_le_of_not_lt hnext fun hlt' => ?_).symm⟩
    refine exceptionPeak_code.2.not_ge ?_
    have hpassed := scaledPeak_above_le hx (rn_of_val val_exceptionPeak) exceptionPeak_pos hlt'
    exact hpassed.trans (by exact_mod_cast hceil)
  · refine absurd (scaledPeak_above_le hx (rn_level _ _) hlevel hlt) (not_le.2 ?_)
    exact hceil.trans_lt (lt_scaledPeak_above_level f k hk255 hk1 fun hf hk => hexc ⟨hf, hk⟩)

/-- The peak does not exceed its level, but for the exception of binary64. -/
theorem le_level_quantCode {f : Fmt} {x : Rat} (hx : rn f x = x) (hpos : 0 < x) (h1 : x ≤ 1)
    (hne : ¬(f = .binary64 ∧ x = exceptionPeak)) : x ≤ level f (quantCode f x) :=
  not_lt.1 fun hlt => hne (eq_exception_of_level_lt hx hpos h1 hlt)

/-- Every peak up to m_1 has code 1 (rule R164). -/
theorem quantCode_of_le_level_one {f : Fmt} {x : Rat} (hx : rn f x = x) (hpos : 0 < x)
    (h1 : x ≤ level f 1) : scaledPeak f x ≤ 1 ∧ quantCode f x = 1 := by
  have ht : scaledPeak f x ≤ (1 : Nat) :=
    (scaledPeak_mono f hpos.le h1).trans (scaledPeak_level_le f 1 (by decide))
  refine ⟨by exact_mod_cast ht, le_antisymm ?_ (quantCode_pos hx hpos)⟩
  rw [quantCode_eq_natCeil]
  exact Nat.ceil_le.2 ht

/-! ### The obligations -/

/-- Settles O41: NORM gives an FMT value in [0, 1], whose encoding has sign bit 0. -/
theorem normalizedChannelIsInUnit : Obligations.NormalizedChannelIsInUnit := by
  intro f e
  obtain ⟨hrn, h0, h1⟩ := norm_mem_unit f e
  exact ⟨h0, h1, enc f (norm f e), (inUnit_enc hrn h0 h1).1, val_enc hrn h0 h1⟩

/-- Settles O43: the scaled peak is RN of a value between the peak and 255, and the code its ceiling. -/
theorem quantizerCodeIsOneTo255 : Obligations.QuantizerCodeIsOneTo255 := by
  intro f e x he hpos h1
  have hx := rn_of_val he
  have ht := scaledPeak_pos hx hpos
  have ht255 := scaledPeak_le f h1
  have hmax : (255 : Rat) ≤ maxFinite f := by linarith [(maxFinite_spec f).2.2]
  have hval := val_enc_of_abs_le (f := f) (rn_rn f (x * Config.levels))
    ((abs_of_pos ht).trans_le (ht255.trans hmax))
  refine ⟨⟨_, hval⟩, ht, ht255, quantCode_pos hx hpos, quantCode_le f h1, ?_, ?_⟩ <;>
    rw [quant, quantCode_eq_natCeil]
  · exact Nat.le_ceil _
  · exact Nat.ceil_lt_add_one ht.le

/-- Settles O44: m_1 itself has t up to 1, and t is monotone in the peak. -/
theorem smallPeaksTakeTheLeastLevel : Obligations.SmallPeaksTakeTheLeastLevel := by
  intro f e x he hpos h1
  have hx := rn_of_val he
  obtain ⟨ht, hk⟩ := quantCode_of_le_level_one hx hpos h1
  exact ⟨scaledPeak_pos hx hpos, ht, by rw [quant, hk]⟩

/-- Settles O45, by evaluation of the 255 levels in both formats. -/
theorem levelTableIsComputed : Obligations.LevelTableIsComputed := by
  unfold Obligations.LevelTableIsComputed
  decide +kernel

/-- Settles O46: binary32 has no exception. -/
theorem binary32QuantizerIsAComparator : Obligations.Binary32QuantizerIsAComparator := by
  intro e x he hpos h1
  have hx := rn_of_val he
  exact ⟨quantCode_pos hx hpos, quantCode_le _ h1, rfl,
    le_level_quantCode hx hpos h1 (by simp), fun j _ hj => level_lt_of_lt_quantCode hpos.le h1 hj⟩

/-- Settles O47: a peak other than the exception has another encoding, and the exception is evaluated. -/
theorem binary64QuantizerHasOneException : Obligations.Binary64QuantizerHasOneException := by
  refine ⟨fun e x he hpos h1 hne => ?_, by decide +kernel⟩
  refine ⟨le_level_quantCode (rn_of_val he) hpos h1 fun ⟨_, hexc⟩ => hne ?_,
    fun j _ hj => level_lt_of_lt_quantCode hpos.le h1 hj⟩
  rw [← enc_of_val he (.inr hpos.ne'), hexc]
  exact enc_of_val val_exceptionPeak (.inr exceptionPeak_pos.ne')

/-- Settles O48: the code of a positive peak up to 1 is in 1..255. -/
theorem divisorIsALevel : Obligations.DivisorIsALevel := by
  intro f eps r g b heps
  obtain ⟨hx, hpos, h1⟩ := peak_spec heps r g b
  have hk := quantCode_pos hx hpos
  exact ⟨⟨_, hk, quantCode_le f h1, rfl⟩, level_one_pos f, level_mono f hk⟩

end Sys2Proof.Proofs

/-!
PROOFS about ENCODE (spec/40_encode.md rules R102 to R108, spec/42_max3.md rule R142, spec/45_scale_clamp.md
rule R202): what an output beat depends on, the quotients and the output clamp, how closely the output decodes
to the pixel; then the obligations.
-/

namespace Sys2Proof.Proofs

open Sys2Proof Sys2Proof.Machine Sys2Proof.Laws

/-! ### EPSILON of a build -/

/-- An encoding that is no greater than a non-negative finite one is non-negative and finite. -/
theorem finite_of_toNat_le {f : Fmt} {e e' : Chan f} {v' : Rat} (h' : val f e' = .real v')
    (hs' : signBit f e' = false) (hle : e.toNat ≤ e'.toNat) :
    signBit f e = false ∧ ∃ v, val f e = .real v := by
  have hlt' := (signBit_eq_false_iff f e').1 hs'
  have hexpo {c : Chan f} (h : c.toNat < 2 ^ (f.expBits + f.fracBits)) :
      expField f c = c.toNat / 2 ^ f.fracBits := by
    rw [expField, Nat.mod_eq_of_lt]
    rwa [Nat.div_lt_iff_lt_mul (by positivity), ← pow_add]
  have hlt : e.toNat < 2 ^ (f.expBits + f.fracBits) := hle.trans_lt hlt'
  have hfield : expField f e < f.expMax := by
    rw [hexpo hlt]
    exact (Nat.div_le_div_right hle).trans_lt (hexpo hlt' ▸ (finite_of_val h').1)
  exact ⟨(signBit_eq_false_iff f e).2 hlt, _, by rw [val, if_neg hfield.ne]⟩

/-- The bounds of EPSILON on the encodings are those on the values (rules R8 and R143). -/
theorem epsilonOk_of_toNat {f : Fmt} {eps : Chan f} (hpos : 0 < eps.toNat)
    (hle : eps.toNat ≤ (enc f (level f 1)).toNat) : EpsilonOk f eps := by
  obtain ⟨hunit, -⟩ := inUnit_enc (rn_level f 1) (level_one_pos f).le (level_mem_unit f (by decide)).2
  have hlevel := val_enc_level f (k := 1) (by decide)
  obtain ⟨hs, v, hv⟩ := finite_of_toNat_le hlevel hunit hle
  have hzero : signBit f 0 = false := by cases f <;> rfl
  have hreal : realOf f eps = v := by rw [realOf, hv]
  rw [EpsilonOk, hreal]
  exact ⟨val_lt_of_toNat_lt (val_zero f) hv hzero hs (by simpa using hpos),
    (encodingsOrderAsValues f _ _ _ _ hv hlevel hs hunit).2 hle⟩

/-- A build within its bounds has a permitted EPSILON in both formats (rule R8). -/
theorem epsilonOk_of_build {b : Build} (h : b.epsilonOk = true) :
    EpsilonOk .binary32 b.eps32 ∧ EpsilonOk .binary64 b.eps64 := by
  simp only [Build.epsilonOk, Bool.and_eq_true, decide_eq_true_eq] at h
  obtain ⟨⟨hpos32, hle32⟩, hpos64, hle64⟩ := h
  have h32 : Config.leastLevel32 = enc .binary32 (level .binary32 1) := by decide +kernel
  have h64 : Config.leastLevel64 = enc .binary64 (level .binary64 1) := by decide +kernel
  rw [h32] at hle32
  rw [h64] at hle64
  exact ⟨epsilonOk_of_toNat hpos32 hle32, epsilonOk_of_toNat hpos64 hle64⟩

theorem epsilonOk_of_wf {b : Build} (h : b.wf = true) : b.epsilonOk = true := by
  simp only [Build.wf, Bool.and_eq_true] at h
  exact h.2

/-! ### What an output pixel depends on -/

/-- ENCODE reads its channels through NORM (rule R100). -/
theorem encodeValues_congr {f : Fmt} (eps : Chan f) {r g b r' g' b' : Chan f} (hr : norm f r' = norm f r)
    (hg : norm f g' = norm f g) (hb : norm f b' = norm f b) :
    encodeValues f eps r' g' b' = encodeValues f eps r g b := by
  simp only [encodeValues, encodeQuotients, normPixel, hr, hg, hb]

/-- The code of the peak is that of the greatest channel, floored at m_1: EPSILON does not enter it
(rule R142). -/
theorem quantCode_peak {f : Fmt} {eps : Chan f} (h : EpsilonOk f eps) (r g b : Chan f) :
    quantCode f (peak f eps (normPixel f r g b)) =
      quantCode f (max (level f 1) (max (norm f r) (max (norm f g) (norm f b)))) := by
  obtain ⟨hx, hpos, -⟩ := peak_spec h r g b
  rw [peak_eq h] at hx hpos ⊢
  rcases le_total (level f 1) (max (norm f r) (max (norm f g) (norm f b))) with hbig | hsmall
  · rw [max_eq_right (h.2.trans hbig), max_eq_right hbig]
  · rw [max_eq_left hsmall, (quantCode_of_le_level_one hx hpos (max_le h.2 hsmall)).2,
      (quantCode_of_le_level_one (rn_level f 1) (level_one_pos f) le_rfl).2]

/-- The values of an output pixel from its code (rule R100). -/
theorem encodeValues_of_code {f : Fmt} {eps r g b : Chan f} {k : Nat}
    (hk : quantCode f (peak f eps (normPixel f r g b)) = k) :
    encodeValues f eps r g b =
      { rgb := { r := max 0 (min (rn f (norm f r / level f k)) 1)
                 g := max 0 (min (rn f (norm f g / level f k)) 1)
                 b := max 0 (min (rn f (norm f b / level f k)) 1) }
        m := level f k } :=
  encodeValues_eq f eps r g b (congrArg (level f) hk)

theorem encodeValues_epsilon {f : Fmt} {eps eps' : Chan f} (h : EpsilonOk f eps) (h' : EpsilonOk f eps')
    (r g b : Chan f) : encodeValues f eps r g b = encodeValues f eps' r g b := by
  rw [encodeValues_of_code (quantCode_peak h r g b), encodeValues_of_code (quantCode_peak h' r g b)]

theorem norm_of_pinned {f : Fmt} {e : Chan f} (h : Pinned f e) : norm f e = 1 := by
  rcases h with h | ⟨v, h, h6⟩
  · exact norm_of_posInf h
  · exact norm_of_six_le h h6

/-- Pinned channels normalize alike (rule R105). -/
theorem norm_eq_of_pinned {f : Fmt} {e e' : Chan f} (h : e' = e ∨ Pinned f e ∧ Pinned f e') :
    norm f e' = norm f e := by
  rcases h with rfl | ⟨h, h'⟩
  · rfl
  · rw [norm_of_pinned h, norm_of_pinned h']

/-- Black channels give zeros and m_1 (rule R106). -/
theorem encodeValues_of_black {f : Fmt} {eps r g b : Chan f} (h : EpsilonOk f eps) (hr : norm f r = 0)
    (hg : norm f g = 0) (hb : norm f b = 0) :
    encodeValues f eps r g b = { rgb := { r := 0, g := 0, b := 0 }, m := level f 1 } := by
  have hk : quantCode f (peak f eps (normPixel f r g b)) = 1 := by
    rw [quantCode_peak h, hr, hg, hb, max_self, max_self, max_eq_left (level_one_pos f).le]
    exact (quantCode_of_le_level_one (rn_level f 1) (level_one_pos f) le_rfl).2
  simp [encodeValues_of_code hk, hr, hg, hb]

/-- The encodings of the values of an output pixel are in the classes of an output beat (rule R86). -/
theorem outputOk_encodeValues {f : Fmt} {eps : Chan f} (h : EpsilonOk f eps) (r g b : Chan f) :
    InUnit f (enc f (encodeValues f eps r g b).rgb.r) ∧
      InUnit f (enc f (encodeValues f eps r g b).rgb.g) ∧
      InUnit f (enc f (encodeValues f eps r g b).rgb.b) ∧
      InUnit f (enc f (encodeValues f eps r g b).m) ∧
      IsLevel f (enc f (encodeValues f eps r g b).m) := by
  have hclamp (c rho : Rat) : InUnit f (enc f (oclamp (scale f c rho))) :=
    inUnit_enc (rn_oclamp (rn_rn f _)) (oclamp_nonneg _) (oclamp_le_one _)
  obtain ⟨hx, hpos, h1⟩ := peak_spec h r g b
  have hk := quantCode_le f h1
  obtain ⟨hlevel0, hlevel1⟩ := level_mem_unit f hk
  exact ⟨hclamp _ _, hclamp _ _, hclamp _ _, inUnit_enc (rn_level f _) hlevel0 hlevel1,
    _, quantCode_pos hx hpos, hk, val_enc_level f hk⟩

/-! ### The quotients and the output clamp -/

/-- A channel up to the divisor has a quotient in [0, 1] (rule R202). -/
theorem quotient_mem_unit {f : Fmt} {c m : Rat} (h0 : 0 ≤ c) (h : c ≤ m) (hm : 0 < m) :
    0 ≤ rn f (c / m) ∧ rn f (c / m) ≤ 1 := by
  have hq : 0 ≤ c / m := div_nonneg h0 hm.le
  exact ⟨rn_nonneg f hq, (rn_mono f hq ((div_le_one hm).2 h)).trans_eq (rn_one f)⟩

/-- The clamp leaves a quotient in [0, 1] as it is. -/
theorem oclamp_of_mem_unit {d : Rat} (h : 0 ≤ d ∧ d ≤ 1) : oclamp d = d := by
  rw [oclamp, if_neg h.1.not_gt, if_neg h.2.not_gt]

/-- A channel above the divisor is the exception of binary64, and so is the peak (rule R202). -/
theorem exception_of_divisor_lt {f : Fmt} {eps r g b e : Chan f} (h : EpsilonOk f eps)
    (he : e = r ∨ e = g ∨ e = b)
    (hlt : level f (quantCode f (peak f eps (normPixel f r g b))) < norm f e) :
    f = .binary64 ∧ norm f e = exceptionPeak ∧ peak f eps (normPixel f r g b) = exceptionPeak := by
  obtain ⟨hx, hpos, h1⟩ := peak_spec h r g b
  have hle := norm_le_peak h he
  obtain ⟨rfl, hpeak⟩ := eq_exception_of_level_lt hx hpos h1 (hlt.trans_le hle)
  rw [hpeak] at hlt hle
  rw [exceptionPeak_code.1] at hlt
  have hlevel : 0 < level .binary64 251 := (level_one_pos _).trans_le (level_mono _ (by decide))
  have hnext := add_ulp_le_of_lt (norm_mem_unit _ e).1 (rn_level _ _) hlevel hlt
  rw [exceptionPeak_eq] at hnext
  exact ⟨rfl, le_antisymm hle hnext, hpeak⟩

theorem divisor_pos {f : Fmt} {eps : Chan f} (h : EpsilonOk f eps) (r g b : Chan f) :
    0 < level f (quantCode f (peak f eps (normPixel f r g b))) := by
  obtain ⟨hx, hpos, -⟩ := peak_spec h r g b
  exact (level_one_pos f).trans_le (level_mono f (quantCode_pos hx hpos))

/-- In binary32 every quotient is in [0, 1] (rule R202). -/
theorem quotient32_mem_unit {eps r g b e : BitVec 32} (h : EpsilonOk .binary32 eps)
    (he : e = r ∨ e = g ∨ e = b) :
    let d := scale .binary32 (norm .binary32 e)
      (recip (quant .binary32 (peak .binary32 eps (normPixel .binary32 r g b))).2)
    0 ≤ d ∧ d ≤ 1 := by
  dsimp only
  rw [scale_recip]
  refine quotient_mem_unit (norm_mem_unit .binary32 e).2.1 ?_ (divisor_pos h r g b)
  exact not_lt.1 fun hlt => nomatch (exception_of_divisor_lt (f := .binary32) h he hlt).1

/-! ### How closely the output decodes to the pixel -/

theorem pow2_half (e : Int) : pow2 e / 2 = pow2 (e - 1) := by
  have h := pow2_add (e - 1) 1
  rw [sub_add_cancel] at h
  rw [h]
  exact mul_div_cancel_right₀ _ two_ne_zero

/-- RN is off by at most half a unit of the last place of the values below 1 (rule R104). -/
theorem rn_error_unit (f : Fmt) {x : Rat} (h0 : 0 ≤ x) (h1 : x ≤ 1) :
    |x - rn f x| ≤ pow2 (-f.fracBits - 2) := by
  rcases h1.eq_or_lt with rfl | hlt
  · rw [rn_one, sub_self, abs_zero]
    exact (pow2_pos _).le
  rcases h0.eq_or_lt with rfl | hpos
  · rw [rn_zero, sub_self, abs_zero]
    exact (pow2_pos _).le
  have hmin : f.minExp ≤ -f.fracBits - 1 := by cases f <;> decide
  have hulp : ulpExp f x ≤ -f.fracBits - 1 := by
    refine ulpExp_le hpos.ne' hmin ?_
    rw [abs_of_pos hpos, (by ring : (-f.fracBits - 1 + f.fracBits + 1 : Int) = 0)]
    exact hlt
  calc |x - rn f x| ≤ pow2 (ulpExp f x) / 2 := rn_error f x
    _ ≤ pow2 (-f.fracBits - 1) / 2 := by linarith [pow2_le.2 hulp]
    _ = pow2 (-f.fracBits - 2) := by
      rw [pow2_half]
      congr 1
      ring

/-- A clamped quotient times its divisor is close to the channel, which may exceed the divisor only as the
exception of binary64 (rule R104). -/
theorem quotient_error {f : Fmt} {eps r g b e : Chan f} (h : EpsilonOk f eps) (he : e = r ∨ e = g ∨ e = b) :
    let m := level f (quantCode f (peak f eps (normPixel f r g b)))
    |norm f e - max 0 (min (rn f (norm f e / m)) 1) * m| ≤ pow2 (-f.fracBits - 1) := by
  intro m
  have hm : 0 < m := divisor_pos h r g b
  have hm1 : m ≤ 1 := (level_mem_unit f (quantCode_le f (peak_le_one f eps _))).2
  rw [← oclamp_eq]
  rcases le_or_gt (norm f e) m with hle | hlt
  · have h0 := (norm_mem_unit f e).2.1
    rw [oclamp_of_mem_unit (quotient_mem_unit h0 hle hm)]
    have herr := rn_error_unit f (div_nonneg h0 hm.le) ((div_le_one hm).2 hle)
    have hsplit : norm f e - rn f (norm f e / m) * m = (norm f e / m - rn f (norm f e / m)) * m := by
      rw [sub_mul, div_mul_cancel₀ _ hm.ne']
    rw [hsplit, abs_mul, abs_of_pos hm]
    calc |norm f e / m - rn f (norm f e / m)| * m ≤ |norm f e / m - rn f (norm f e / m)| :=
          mul_le_of_le_one_right (abs_nonneg _) hm1
      _ ≤ pow2 (-f.fracBits - 2) := herr
      _ ≤ pow2 (-f.fracBits - 1) := pow2_le.2 (by omega)
  · obtain ⟨rfl, hnorm, hpeak⟩ := exception_of_divisor_lt h he hlt
    have hm251 : m = level .binary64 251 := by rw [← exceptionPeak_code.1, ← hpeak]
    rw [hnorm, hm251]
    decide +kernel

theorem realOf_of_val {f : Fmt} {e : Chan f} {v : Rat} (h : val f e = .real v) : realOf f e = v := by
  rw [realOf, h]

/-- A channel in [0, RANGE] decodes to within 2^-F of its sixth (rule R104). -/
theorem decode_error {f : Fmt} {eps r g b e : Chan f} (h : EpsilonOk f eps) (he : e = r ∨ e = g ∨ e = b)
    (hrange : InRange f e) :
    let m := level f (quantCode f (peak f eps (normPixel f r g b)))
    |realOf f e / 6 - max 0 (min (rn f (norm f e / m)) 1) * m| < pow2 (-f.fracBits) := by
  intro m
  obtain ⟨v, hv, h0, h6⟩ := hrange
  rw [Config.range] at h6
  have hquot := quotient_error h he
  have hnorm : |realOf f e / 6 - norm f e| ≤ pow2 (-f.fracBits - 2) := by
    rw [realOf_of_val hv, norm_of_mem_range hv h0 h6]
    exact rn_error_unit f (by linarith) (by linarith)
  have hhalf : pow2 (-f.fracBits) / 2 = pow2 (-f.fracBits - 1) := pow2_half _
  have hlt : pow2 (-f.fracBits - 2) < pow2 (-f.fracBits - 1) := pow2_lt.2 (by omega)
  calc _ ≤ |realOf f e / 6 - norm f e| + |norm f e - max 0 (min (rn f (norm f e / m)) 1) * m| :=
        abs_sub_le _ _ _
    _ ≤ pow2 (-f.fracBits - 2) + pow2 (-f.fracBits - 1) := add_le_add hnorm hquot
    _ < pow2 (-f.fracBits) := by linarith

/-- The pixel RN(c * 6) of a normalized channel is in range, and its sixth is close to that of the channel
it came from (rule R108). -/
theorem rescaled_spec {f : Fmt} {e : Chan f} (h : InRange f e) : InRange f (rescaled f e) ∧
    |realOf f e / 6 - realOf f (rescaled f e) / 6| ≤ pow2 (-f.fracBits) := by
  obtain ⟨v, hv, h0, h6⟩ := h
  rw [Config.range] at h6
  obtain ⟨-, hc0, hc1⟩ := norm_mem_unit f e
  obtain ⟨hrn6, hulp6⟩ : rn f 6 = 6 ∧ ulpExp f 6 = 2 - f.fracBits := by cases f <;> decide +kernel
  have hmax : (6 : Rat) ≤ maxFinite f := by linarith [(maxFinite_spec f).2.2]
  have hv0 : 0 ≤ rn f (norm f e * 6) := rn_nonneg f (by linarith)
  have hv6 : rn f (norm f e * 6) ≤ 6 := (rn_mono f (by linarith) (by linarith)).trans_eq hrn6
  have hval : val f (rescaled f e) = .real (rn f (norm f e * 6)) :=
    val_enc_of_abs_le (rn_rn f _) ((abs_of_nonneg hv0).trans_le (hv6.trans hmax))
  refine ⟨⟨_, hval, hv0, hv6⟩, ?_⟩
  have hnorm : |v / 6 - norm f e| ≤ pow2 (-f.fracBits - 2) := by
    rw [norm_of_mem_range hv h0 h6]
    exact rn_error_unit f (by linarith) (by linarith)
  have hscale : |norm f e * 6 - rn f (norm f e * 6)| ≤ pow2 (2 - f.fracBits) / 2 := by
    rcases hc0.eq_or_lt with hzero | hpos
    · rw [← hzero, zero_mul, rn_zero, sub_self, abs_zero]
      linarith [pow2_pos (2 - f.fracBits)]
    · have := pow2_le.2 (ulpExp_mono f (by linarith : 0 < norm f e * 6) (by linarith : _ ≤ (6 : Rat)))
      rw [hulp6] at this
      exact (rn_error f _).trans (by linarith)
  have hquarter : pow2 (-f.fracBits - 2) = pow2 (-f.fracBits) / 4 := by
    rw [sub_eq_add_neg, pow2_add, (by norm_num [pow2_eq_zpow] : pow2 (-2) = 1 / 4), mul_one_div]
  have hfour : pow2 (2 - f.fracBits) = 4 * pow2 (-f.fracBits) := by
    rw [sub_eq_add_neg, pow2_add, (by norm_num [pow2_eq_zpow] : pow2 2 = 4)]
  rw [hquarter, abs_le] at hnorm
  rw [hfour, abs_le] at hscale
  rw [realOf_of_val hv, realOf_of_val hval, abs_le]
  constructor <;> linarith

/-- The bound of R104 is far below the step of the levels. -/
theorem pow2_fracBits_le (f : Fmt) : 3 * pow2 (-f.fracBits) ≤ 1 / 255 := by
  cases f <;> norm_num [pow2_eq_zpow, Fmt.fracBits]

/-- Both decodings of a channel and of its rescaled normalization lie near the channel (rule R108). -/
theorem rescaled_decode_close {f : Fmt} {eps r g b e : Chan f} (h : EpsilonOk f eps)
    (he : e = r ∨ e = g ∨ e = b) (hrange : InRange f e) :
    let m := level f (quantCode f (peak f eps (normPixel f r g b)))
    let m' := level f (quantCode f (peak f eps (normPixel f (rescaled f r) (rescaled f g) (rescaled f b))))
    |max 0 (min (rn f (norm f e / m)) 1) * m -
      max 0 (min (rn f (norm f (rescaled f e) / m')) 1) * m'| ≤ 2 / 255 := by
  intro m m'
  obtain ⟨hrange', hclose⟩ := rescaled_spec hrange
  have he' : rescaled f e = rescaled f r ∨ rescaled f e = rescaled f g ∨ rescaled f e = rescaled f b := by
    rcases he with rfl | rfl | rfl <;> simp
  have hdec := decode_error h he hrange
  have hdec' := decode_error h he' hrange'
  have hsmall := pow2_fracBits_le f
  dsimp only at hdec hdec'
  rw [abs_lt] at hdec hdec'
  rw [abs_le] at hclose ⊢
  constructor <;> linarith

/-! ### The obligations -/

/-- Settles O52: the fields of the packed beat are the encodings of the values of the output pixel. -/
theorem everyOutputFieldIsInUnit : Obligations.EveryOutputFieldIsInUnit := by
  intro build i hwf
  obtain ⟨h32, h64⟩ := epsilonOk_of_build (epsilonOk_of_wf hwf)
  cases i with
  | encode32 r g b =>
    obtain ⟨hr, hg, hb, hm⟩ := fieldAt_pack32 (encodeValues .binary32 build.eps32 r g b)
    obtain ⟨hur, hug, hub, hum, hlevel⟩ := outputOk_encodeValues h32 r g b
    refine ⟨fun k hk => ?_, hm ▸ hlevel⟩
    interval_cases k
    exacts [hr ▸ hur, hg ▸ hug, hb ▸ hub, hm ▸ hum]
  | encode64 r g b =>
    obtain ⟨hr, hg, hb, hm⟩ := fieldAt_pack64 (encodeValues .binary64 build.eps64 r g b)
    obtain ⟨hur, hug, hub, hum, hlevel⟩ := outputOk_encodeValues h64 r g b
    refine ⟨fun k hk => ?_, hm ▸ hlevel⟩
    interval_cases k
    exacts [hr ▸ hur, hg ▸ hug, hb ▸ hub, hm ▸ hum]

/-- Settles O53: the pinned channels normalize alike. -/
theorem channelsAboveRangeArePinned : Obligations.ChannelsAboveRangeArePinned := by
  refine ⟨fun build r g b r' g' b' hr hg hb => ?_, fun build r g b r' g' b' hr hg hb => ?_⟩
  · exact congrArg (fun v => OutData.w128 (pack32 v)) (encodeValues_congr _
      (norm_eq_of_pinned hr) (norm_eq_of_pinned hg) (norm_eq_of_pinned hb))
  · exact congrArg (fun v => OutData.w256 (pack64 v)) (encodeValues_congr _
      (norm_eq_of_pinned hr) (norm_eq_of_pinned hg) (norm_eq_of_pinned hb))

/-- Settles O54: zeros and m_1, packed. -/
theorem blackPixelGivesTheLeastLevel : Obligations.BlackPixelGivesTheLeastLevel := by
  refine ⟨fun build r g b hwf hr hg hb => ?_, fun build r g b hwf hr hg hb => ?_⟩
  · have heps := (epsilonOk_of_build (epsilonOk_of_wf hwf)).1
    rw [encodeBeat, encodeValues_of_black heps hr hg hb]
    decide +kernel
  · have heps := (epsilonOk_of_build (epsilonOk_of_wf hwf)).2
    rw [encodeBeat, encodeValues_of_black heps hr hg hb]
    decide +kernel

/-- Settles O55: in binary32 no channel exceeds the divisor. -/
theorem clampNeverActsInBinary32 : Obligations.ClampNeverActsInBinary32 := by
  intro eps r g b h d
  have hr := quotient32_mem_unit (r := r) (g := g) (b := b) h (.inl rfl)
  have hg := quotient32_mem_unit (r := r) (g := g) (b := b) h (.inr (.inl rfl))
  have hb := quotient32_mem_unit (r := r) (g := g) (b := b) h (.inr (.inr rfl))
  exact ⟨hr.2, hg.2, hb.2, congr (congr (congrArg Rgb.mk (oclamp_of_mem_unit hr))
    (oclamp_of_mem_unit hg)) (oclamp_of_mem_unit hb)⟩

/-- Settles O56: a channel up to the divisor has a quotient up to 1, and the exception is evaluated. -/
theorem clampActsForOneBinary64Peak : Obligations.ClampActsForOneBinary64Peak := by
  intro eps r g b e h he mRaw d
  have hd : d = rn .binary64 (norm .binary64 e / level .binary64 (quantCode .binary64 mRaw)) :=
    scale_recip _ _ _
  clear_value d
  have hexc (hgt : 1 < d) : norm .binary64 e = exceptionPeak ∧ mRaw = exceptionPeak := by
    refine (exception_of_divisor_lt (f := .binary64) h he (not_le.1 fun hle => hgt.not_ge ?_)).2
    rw [hd]
    exact (quotient_mem_unit (norm_mem_unit .binary64 e).2.1 hle
      (divisor_pos (f := .binary64) h r g b)).2
  have hval (hx : norm .binary64 e = exceptionPeak ∧ mRaw = exceptionPeak) : d = 1 + 1 / 2 ^ 52 := by
    rw [hd, hx.1, hx.2, exceptionPeak_code.1]
    decide +kernel
  refine ⟨⟨hexc, fun hx => ?_⟩, fun hgt => ⟨hval (hexc hgt), ?_⟩⟩
  · rw [hval hx]
    norm_num
  · rw [oclamp, if_neg (by linarith), if_pos hgt]

/-- Settles O57: the code of the peak does not depend on EPSILON, and nothing else reads it. -/
theorem epsilonIsNotObservable : Obligations.EpsilonIsNotObservable := by
  intro b b' i h h'
  obtain ⟨h32, h64⟩ := epsilonOk_of_build h
  obtain ⟨h32', h64'⟩ := epsilonOk_of_build h'
  cases i with
  | encode32 r g b => rw [encodeBeat, encodeBeat, encodeValues_epsilon h32 h32']
  | encode64 r g b => rw [encodeBeat, encodeBeat, encodeValues_epsilon h64 h64']

/-- Settles O58: the two roundings are each within half a unit of the last place. -/
theorem reconstructionIsWithinBound : Obligations.ReconstructionIsWithinBound := by
  intro f eps r g b h hr hg hb v bound
  have hbound : bound = pow2 (-f.fracBits) := by
    cases f
    · exact (by norm_num [pow2_eq_zpow, Fmt.fracBits] :
        (1 / 2 ^ 23 : Rat) = pow2 (-Fmt.binary32.fracBits))
    · exact (by norm_num [pow2_eq_zpow, Fmt.fracBits] :
        (1 / 2 ^ 52 : Rat) = pow2 (-Fmt.binary64.fracBits))
  have hv : v = _ := encodeValues_of_code rfl
  rw [hbound, hv]
  have hsmall : pow2 (-f.fracBits) ≤ 1 / 255 := by linarith [pow2_fracBits_le f, pow2_pos (-f.fracBits)]
  exact ⟨hsmall, decode_error h (.inl rfl) hr,
    decode_error h (.inr (.inl rfl)) hg, decode_error h (.inr (.inr rfl)) hb⟩

/-- Settles O59: both pixels decode to near the same values. -/
theorem rescaledPixelDecodesClose : Obligations.RescaledPixelDecodesClose := by
  intro f eps r g b h hr hg hb v v'
  have hv : v = _ := encodeValues_of_code rfl
  have hv' : v' = _ := encodeValues_of_code rfl
  rw [hv, hv']
  exact ⟨rescaled_decode_close h (.inl rfl) hr, rescaled_decode_close h (.inr (.inl rfl)) hg,
    rescaled_decode_close h (.inr (.inr rfl)) hb⟩

/-- Settles O49, by evaluation of the spec's examples. -/
theorem quotientsAreRoundedOnce : Obligations.QuotientsAreRoundedOnce := by
  unfold Obligations.QuotientsAreRoundedOnce
  decide +kernel

/-- Settles O60, by evaluation of the spec's test vectors. -/
theorem sourceScenarios : Obligations.SourceScenarios := by
  unfold Obligations.SourceScenarios
  decide +kernel

end Sys2Proof.Proofs
